-- ==== Sys2Proof/Word.lean ====
section
/-! DEFINITION. The word types of the block and the names of its three ports. -/

namespace Sys2Proof

/-- A command word, a response word or a CSR word (R22, R40): 32 bits, bit 0 the least significant (R9). -/
abbrev Word := BitVec 32

/-- A sample: 16 bits, read as two's complement through `BitVec.toInt` (R6). -/
abbrev Sample := BitVec 16

/-- The three ports (R20): W the producer, R the real-time consumer, H the host or observer. -/
inductive Port where
  | W
  | R
  | H
  deriving DecidableEq, Repr

end Sys2Proof
end

