-- ==== Sys2Proof/Syntax.lean ====
section
/-! DEFINITION. The commands of the block: one constructor per row of the opcode map (R104). -/

namespace Sys2Proof

/-- A command as one port receives it (R100): the port, and the operands of R103 at the widths their fields have,
so that no operand can be out of range. Which port may issue which command is R112 (`Instr.wellFormed`).
The header word of a command, which an error records, is `Instr.header` (log 7). -/
inductive Instr where
  /-- NOP (R260); `hint` is ignored (R107). -/
  | nop (p : Port) (hint : BitVec 28)
  /-- PUSH (R140): one sample. -/
  | push (p : Port) (x : BitVec 16)
  /-- POP_BLOCK (R145): `f` filters through FC_P, `n` samples. -/
  | popBlock (p : Port) (f : Bool) (n : BitVec 16)
  /-- SNAPSHOT (R155): `n` samples. -/
  | snapshot (p : Port) (n : BitVec 16)
  /-- ANALYZE (R220): `f` filters through FC_A, `n` samples. -/
  | analyze (p : Port) (f : Bool) (n : BitVec 16)
  /-- RESET (R262): bits RB 0, FCP 1, FCA 2, CNT 3, STATS 4. -/
  | reset (p : Port) (mask : BitVec 5)
  /-- CSR_READ (R270). -/
  | csrRead (p : Port) (addr : BitVec 8)
  /-- CSR_WRITE (R275): a two-word command. -/
  | csrWrite (p : Port) (addr : BitVec 8) (data : BitVec 32)
  deriving DecidableEq, Repr

/-- The port the command was received on. -/
def Instr.port : Instr → Port
  | .nop p _ => p
  | .push p _ => p
  | .popBlock p _ _ => p
  | .snapshot p _ => p
  | .analyze p _ _ => p
  | .reset p _ => p
  | .csrRead p _ => p
  | .csrWrite p _ _ => p

/-- The opcode `OP` of the command (R104). -/
def Instr.opcode : Instr → BitVec 4
  | .nop _ _ => 0x0#4
  | .push _ _ => 0x1#4
  | .popBlock _ _ _ => 0x2#4
  | .snapshot _ _ => 0x3#4
  | .analyze _ _ _ => 0x4#4
  | .reset _ _ => 0x5#4
  | .csrRead _ _ => 0x6#4
  | .csrWrite _ _ _ => 0x7#4

end Sys2Proof
end

