-- ==== Sys2Proof/WellFormed.lean ====
section
/-! DEFINITION. Which commands are well-formed: the port is one that accepts the command (R112). Every other
range of R103 is carried by the operand's type. -/

namespace Sys2Proof

/-- `ports(op)` of R112; a reserved opcode is accepted nowhere (R105). -/
def acceptedOn (op : BitVec 4) (p : Port) : Bool :=
  match op.toNat, p with
  | 0, _ => true
  | 1, .W => true
  | 2, .R => true
  | 3, .H => true
  | 4, .H => true
  | 5, .H => true
  | 6, .H => true
  | 7, .H => true
  | _, _ => false

/-- A command is well-formed when the port it stands on accepts it (R108, R112). -/
def Instr.wellFormed (i : Instr) : Bool := acceptedOn i.opcode i.port

end Sys2Proof
end

