-- ==== Sys2Proof/Decode.lean ====
section
/-! DEFINITION. Decoding and encoding of command words (30_encoding.md), and the causes a command error has. -/

namespace Sys2Proof

/-- The six causes of R300; codes 0 and 7 to 15 are never raised. -/
inductive Cause where
  | illegalOp
  | wrongPort
  | reservedBits
  | badLen
  | badCsrAddr
  | csrReadOnly
  deriving DecidableEq, Repr

/-- The code ERR_INFO.CAUSE records (R300). -/
def Cause.code : Cause → BitVec 4
  | .illegalOp => 1#4
  | .wrongPort => 2#4
  | .reservedBits => 3#4
  | .badLen => 4#4
  | .badCsrAddr => 5#4
  | .csrReadOnly => 6#4

/-- The code ERR_INFO.PORT records (R302). -/
def Port.code : Port → BitVec 2
  | .W => 0#2
  | .R => 1#2
  | .H => 2#2

/-- `OP`, bits 31:28 of a header (R100). -/
def opcodeOf (w0 : Word) : BitVec 4 := w0.extractLsb' 28 4

/-- The length in words of the command whose header is `w0`: a function of OP alone, on every port (R101). -/
def cmdLen (w0 : Word) : Nat := if opcodeOf w0 = 0x7#4 then 2 else 1

/-- `rsvmask(op)` of R109: the bits of a header that must be 0. -/
def rsvMask (op : BitVec 4) : Word :=
  match op.toNat with
  | 1 => 0x0FFF0000#32
  | 2 => 0x07FF0000#32
  | 3 => 0x0FFF0000#32
  | 4 => 0x07FF0000#32
  | 5 => 0x0FFFFFE0#32
  | 6 => 0x0FFFFF00#32
  | 7 => 0x0FFFFF00#32
  | _ => 0x00000000#32

/-- Operand assembly (R103) for the opcodes 0 to 7. -/
def operandsOf (p : Port) (w0 w1 : Word) : Instr :=
  match (opcodeOf w0).toNat with
  | 0 => .nop p (w0.extractLsb' 0 28)
  | 1 => .push p (w0.extractLsb' 0 16)
  | 2 => .popBlock p (w0.getLsbD 27) (w0.extractLsb' 0 16)
  | 3 => .snapshot p (w0.extractLsb' 0 16)
  | 4 => .analyze p (w0.getLsbD 27) (w0.extractLsb' 0 16)
  | 5 => .reset p (w0.extractLsb' 0 5)
  | 6 => .csrRead p (w0.extractLsb' 0 8)
  | _ => .csrWrite p (w0.extractLsb' 0 8) w1

/-- `decode` of R109, in the check order of R301. `w1` matters only for a two-word command. The word 0 that a
CSR_READ header with RSV bits emits on port H is emitted by the machine (`State.decodeError`). -/
def decode (p : Port) (w0 w1 : Word) : Except Cause Instr :=
  if 0x8#4 ≤ opcodeOf w0 then .error .illegalOp
  else if acceptedOn (opcodeOf w0) p = false then .error .wrongPort
  else if w0 &&& rsvMask (opcodeOf w0) ≠ 0#32 then .error .reservedBits
  else .ok (operandsOf p w0 w1)

/-- The header word of a command, written from the formats of R102. -/
def Instr.header : Instr → Word
  | .nop _ hint => 0x0#4 ++ hint
  | .push _ x => 0x1#4 ++ 0#12 ++ x
  | .popBlock _ f n => 0x2#4 ++ BitVec.ofBool f ++ 0#11 ++ n
  | .snapshot _ n => 0x3#4 ++ 0#12 ++ n
  | .analyze _ f n => 0x4#4 ++ BitVec.ofBool f ++ 0#11 ++ n
  | .reset _ mask => 0x5#4 ++ 0#23 ++ mask
  | .csrRead _ addr => 0x6#4 ++ 0#20 ++ addr
  | .csrWrite _ addr _ => 0x7#4 ++ 0#20 ++ addr

/-- The words of a command after its header: the data word of CSR_WRITE, nothing else (R101). -/
def Instr.dataWords : Instr → List Word
  | .csrWrite _ _ data => [data]
  | .nop _ _ => []
  | .push _ _ => []
  | .popBlock _ _ _ => []
  | .snapshot _ _ => []
  | .analyze _ _ _ => []
  | .reset _ _ => []
  | .csrRead _ _ => []

/-- The words of a command, header first. -/
def encode (i : Instr) : List Word := i.header :: i.dataWords

/-- The command a list of words begins with on port `p`, as a header and its second word (0 where the command has
none); `none` while a word of the command is missing (R22, R101). -/
def takeCommand : List Word → Option (Word × Word)
  | [] => none
  | w0 :: rest =>
    if cmdLen w0 = 2 then
      match rest with
      | [] => none
      | w1 :: _ => some (w0, w1)
    else some (w0, 0#32)

/-- Decode the command that a list of words begins with; `none` where a word is missing. -/
def decodeWords (p : Port) (ws : List Word) : Option (Except Cause Instr) :=
  (takeCommand ws).map fun c => decode p c.1 c.2

/-- The port a bare header is given to by `decodeTableWord` and `State.withFetchWord`: the first port the opcode
table lists for its row; port H where no row lists one (log 14, DESIGN CHOICE). -/
def homePort (w0 : Word) : Port :=
  match (opcodeOf w0).toNat with
  | 0 => .W
  | 1 => .W
  | 2 => .R
  | _ => .H

/-- The words of an instruction given as one number, bit 0 the least significant bit of the first word: the
`nbits` given bits, zero above them, as many words as the command has. -/
def tableWords (nbits w : Nat) : List Word :=
  let v := w % 2 ^ nbits
  let w0 := BitVec.ofNat 32 v
  if cmdLen w0 = 2 then [w0, BitVec.ofNat 32 (v / 2 ^ 32)] else [w0]

/-- The instruction the decoder reads from the bits `w` of one row of the opcode table. -/
def decodeTableWord (nbits w : Nat) : Option Instr :=
  match decodeWords (homePort (BitVec.ofNat 32 (w % 2 ^ nbits))) (tableWords nbits w) with
  | some (.ok i) => some i
  | _ => none

end Sys2Proof
end

