-- ==== Sys2Proof/Config.lean ====
section
/-! DEFINITION. What one implementation of the block fixes, and the one value the spec leaves free. -/

namespace Sys2Proof

/-- The synthesis-time parameters of R5. They are constants of one block. Every state carries them, because
a step has no other argument (log 1, DESIGN CHOICE), and no step changes them. -/
structure Params where
  /-- `C`, the ring capacity in samples; 1 to 65535. -/
  capacity : Nat
  /-- `LPF_ORDER`, the order `N` of the low-pass filter; 1 to 4. -/
  lpfOrder : Nat
  deriving DecidableEq, Repr

/-- The legal range of the parameters (R5). -/
abbrev Params.Legal (p : Params) : Prop :=
  (1 ≤ p.capacity ∧ p.capacity ≤ 65535) ∧ (1 ≤ p.lpfOrder ∧ p.lpfOrder ≤ 4)

/-- The defaults the spec takes: C = 512, LPF_ORDER = 4 (R5). -/
def Params.standard : Params := { capacity := 512, lpfOrder := 4 }

namespace Config

/-- `ID_VALUE` (R5, R41). -/
def idValue : Word := 0x52424431#32

/-- FREE VALUE. What ring slot `i` holds before anything has written it. The spec leaves the contents open
("any value", 93_implementation_defined.md 2.1; R30), so nothing in Lean can know it (log 5). -/
opaque freeSlot : Nat → Sample

/-- OPEN PARAMETER `PLATFORM_BASE`: where the CSR space stands in a system's address map. No rule depends on it
(R95; log 10). -/
opaque platformBase : Nat

/-- OPEN PARAMETER `RSP_DEPTH`: the depth of a response buffer, at least one word. The model's response streams
are unbounded, so no rule depends on it (R23, R356; log 9, log 10). -/
opaque rspDepth : PNat

/-- OPEN PARAMETER `CMD_LATENCY`: cycles a command takes. The model has no time (R360; log 10). -/
opaque cmdLatency : Nat

/-- OPEN PARAMETER `F_MAX`: the maximum sustained sample rate. The model has no time (R360; log 10). -/
opaque fMax : Nat

end Config

end Sys2Proof
end

