-- ==== Sys2Proof/Machine/State.lean ====
section
/-! DEFINITION. The state of the block (10_state.md), its reset value (R69), and the reasons a step can stop. -/

namespace Sys2Proof.Machine

/-- What the world outside the block does next. No rule fixes the order of these, nor when they come (R22, R24,
R91); a state holds a list of them, so that a statement about every state is about every order (log 2). -/
inductive Input where
  /-- Port `p` accepts one command word (R22). -/
  | accept (p : Port) (w : Word)
  /-- It is the turn of port `p` (R24). -/
  | execute (p : Port)
  /-- `rst_n` is asserted and released again, which is one step (R340). -/
  | hardReset
  deriving DecidableEq, Repr

/-- The state of one filter chain (R38). `xh` and `yh` hold N samples each, index 1 first. -/
structure Chain where
  /-- `DC_X`, the DC blocker's previous input. -/
  dcX : Sample
  /-- `DC_Y`, the DC blocker's previous output in units of 2^-16 of a sample. -/
  dcY : BitVec 40
  /-- `LPF_XH[1..N]`, past inputs of the low-pass filter. -/
  xh : List Sample
  /-- `LPF_YH[1..N]`, past outputs of the low-pass filter. -/
  yh : List Sample
  deriving DecidableEq, Repr

/-- The statistics registers (R56 to R64), each at the width the rule gives it. -/
structure Stats where
  n : BitVec 16
  sumsq : BitVec 48
  rms : BitVec 24
  peak : BitVec 17
  lowSum : BitVec 32
  highSum : BitVec 32
  lowE : BitVec 24
  highE : BitVec 24
  deriving DecidableEq, Repr

/-- The state of the block. Every field but `params` and `inputs` is one that 10_state.md names. -/
structure State where
  /-- The synthesis parameters (R5), constant along every run (log 1). -/
  params : Params
  /-- The MODEL's own field: what the outside world does next (log 2). -/
  inputs : List Input
  /-- The command streams: every word the port has accepted since reset (R22, R27, R29). -/
  cmdW : List Word
  cmdR : List Word
  cmdH : List Word
  /-- The command positions (R27). -/
  posW : Nat
  posR : Nat
  posH : Nat
  /-- The response streams, oldest word first (R23). -/
  rspR : List Word
  rspH : List Word
  /-- The ring storage (R30): the slots written since reset, as (slot, sample) pairs, slots strictly rising. A
  slot not listed holds no value (log 5). -/
  ring : List (Nat × Sample)
  /-- The write cursor (R31). -/
  wptr : Nat
  /-- The number of samples pushed and not yet popped (R32). -/
  level : Nat
  /-- The number of samples held for SNAPSHOT (R33). -/
  fill : Nat
  /-- The counters (R36, R37). -/
  underrunCnt : BitVec 32
  dropCnt : BitVec 32
  /-- The playback chain FC_P and the analysis chain FC_A (R38). -/
  chainP : Chain
  chainA : Chain
  /-- CTRL (R43). -/
  dcEn : Bool
  lpfEn : Bool
  /-- STATUS (R44). -/
  err : Bool
  satP : Bool
  satA : Bool
  statsValid : Bool
  /-- ERR_INFO and ERR_WORD (R45, R46). -/
  errCause : BitVec 4
  errPort : BitVec 2
  errWord : Word
  /-- DC_R and SPLIT_THR (R53, R54). -/
  dcR : BitVec 16
  splitThr : BitVec 16
  /-- `LPF_B[0..N]` (R55). -/
  lpfB : List Word
  /-- `LPF_A[1..N]`, index 1 first (R55). -/
  lpfA : List Word
  /-- The statistics registers (R56 to R64). -/
  stats : Stats
  deriving DecidableEq, Repr

/-- The reasons for which the machine stops with a fault: NONE. No event stops the block: a command error is
recorded and the port goes on (R303), there is no trap (R306), and a port without a complete command waits (R357).
Nobody raises a fault. Safe. -/
inductive Fault where
  deriving DecidableEq, Repr

/-- The reasons for which a step has no meaning in the model. -/
inductive Refusal where
  /-- Raised by an arm of `exec` whose command has no meaning yet. No arm raises it now. Safe. -/
  | notModelled (mnemonic : String)
  deriving DecidableEq, Repr

/-- A cleared filter chain of order `N` (R38, R262). -/
def Chain.cleared (N : Nat) : Chain :=
  { dcX := 0#16, dcY := 0#40, xh := List.replicate N 0#16, yh := List.replicate N 0#16 }

/-- The statistics registers after reset or RESET with mask bit STATS (R56 to R64, R262). -/
def Stats.cleared : Stats :=
  { n := 0#16, sumsq := 0#48, rms := 0#24, peak := 0#17, lowSum := 0#32, highSum := 0#32, lowE := 0#24,
    highE := 0#24 }

/-- The reset state of R69 for a block with the parameters `ps`; `inputs` is what the outside world does after. -/
def State.resetWith (ps : Params) (inputs : List Input) : State :=
  { params := ps
    inputs := inputs
    cmdW := []
    cmdR := []
    cmdH := []
    posW := 0
    posR := 0
    posH := 0
    rspR := []
    rspH := []
    ring := []
    wptr := 0
    level := 0
    fill := 0
    underrunCnt := 0#32
    dropCnt := 0#32
    chainP := Chain.cleared ps.lpfOrder
    chainA := Chain.cleared ps.lpfOrder
    dcEn := true
    lpfEn := true
    err := false
    satP := false
    satA := false
    statsValid := false
    errCause := 0#4
    errPort := 0#2
    errWord := 0#32
    dcR := 0xFEB8#16
    splitThr := 0x03E8#16
    lpfB := 0x10000000#32 :: List.replicate ps.lpfOrder 0#32
    lpfA := List.replicate ps.lpfOrder 0#32
    stats := Stats.cleared }

/-- The machine right after reset (R69, R340) at the spec's default parameters (R5; log 1). Nothing is on its
command channels, and nothing comes: a command comes to run when the outside world offers it (log 4). -/
def State.reset : State := State.resetWith Params.standard []

end Sys2Proof.Machine
end

