-- ==== Sys2Proof/Machine/Flags.lean ====
section
/-! DEFINITION. The flags: the words of CTRL, STATUS and ERR_INFO, and every rule by which a STATUS bit is set or
cleared. -/

namespace Sys2Proof.Machine

/-- CTRL as it reads (R43): bit 0 DC_EN, bit 1 LPF_EN, RSV bits 0. -/
def State.ctrlWord (s : State) : Word := 0#30 ++ BitVec.ofBool s.lpfEn ++ BitVec.ofBool s.dcEn

/-- CTRL[1:0] <- data[1:0]; RSV bits ignored (R66, R275). -/
def State.writeCtrl (data : Word) (s : State) : State :=
  { s with dcEn := data.getLsbD 0, lpfEn := data.getLsbD 1 }

/-- STATUS as it reads (R44): bit 0 ERR, bit 1 SAT_P, bit 2 SAT_A, bit 3 STATS_VALID, RSV bits 0. -/
def State.statusWord (s : State) : Word :=
  0#28 ++ BitVec.ofBool s.statsValid ++ BitVec.ofBool s.satA ++ BitVec.ofBool s.satP ++ BitVec.ofBool s.err

/-- A write of STATUS: each of bits 0 to 2 that is written 1 is cleared; bit 3 and up are ignored (R44, R275). -/
def State.writeStatus (data : Word) (s : State) : State :=
  { s with
    err := s.err && !data.getLsbD 0
    satP := s.satP && !data.getLsbD 1
    satA := s.satA && !data.getLsbD 2 }

/-- ERR_INFO as it reads (R45): CAUSE in bits 3:0, PORT in bits 5:4, RSV bits 0. -/
def State.errInfoWord (s : State) : Word := 0#26 ++ s.errPort ++ s.errCause

/-- SAT_P is sticky: it becomes 1 when a step of chain P saturated (R202). -/
def State.noteSatP (sat : Bool) (s : State) : State := { s with satP := s.satP || sat }

/-- SAT_A is sticky: it becomes 1 when a step of chain A saturated (R202). -/
def State.noteSatA (sat : Bool) (s : State) : State := { s with satA := s.satA || sat }

end Sys2Proof.Machine
end

