-- ==== Sys2Proof/Machine/Operands.lean ====
section
/-! DEFINITION. The operand forms of R103 as the commands use them: block lengths, RESET masks and CSR addresses. -/

namespace Sys2Proof.Machine

/-- `n`, a block length: the 16 bits as a natural number (R103). -/
def blockLen (n : BitVec 16) : Nat := n.toNat

/-- The five parts a RESET mask names (format M of R102). -/
def maskRB (mask : BitVec 5) : Bool := mask.getLsbD 0
def maskFCP (mask : BitVec 5) : Bool := mask.getLsbD 1
def maskFCA (mask : BitVec 5) : Bool := mask.getLsbD 2
def maskCNT (mask : BitVec 5) : Bool := mask.getLsbD 3
def maskSTATS (mask : BitVec 5) : Bool := mask.getLsbD 4

/-- The mapped registers of the CSR space (R41 to R64). -/
inductive Csr where
  | id
  | param
  | ctrl
  | status
  | errInfo
  | errWord
  | level
  | wptr
  | rptr
  | fill
  | underrunCnt
  | dropCnt
  | dcR
  | splitThr
  | lpfB (k : Nat)
  | lpfA (k : Nat)
  | statN
  | statSumsqLo
  | statSumsqHi
  | statRms
  | statPeak
  | statLowSum
  | statHighSum
  | statLowE
  | statHighE
  deriving DecidableEq, Repr

/-- The register at a word address, `none` where the address is unmapped (R65); `N` is LPF_ORDER (R55). -/
def csrOf (N : Nat) (addr : BitVec 8) : Option Csr :=
  match addr.toNat with
  | 0x00 => some .id
  | 0x01 => some .param
  | 0x02 => some .ctrl
  | 0x03 => some .status
  | 0x04 => some .errInfo
  | 0x05 => some .errWord
  | 0x06 => some .level
  | 0x07 => some .wptr
  | 0x08 => some .rptr
  | 0x09 => some .fill
  | 0x0A => some .underrunCnt
  | 0x0B => some .dropCnt
  | 0x0C => some .dcR
  | 0x0D => some .splitThr
  | 0x30 => some .statN
  | 0x31 => some .statSumsqLo
  | 0x32 => some .statSumsqHi
  | 0x33 => some .statRms
  | 0x34 => some .statPeak
  | 0x35 => some .statLowSum
  | 0x36 => some .statHighSum
  | 0x37 => some .statLowE
  | 0x38 => some .statHighE
  | a =>
    if 0x10 ≤ a ∧ a ≤ 0x10 + N then some (.lpfB (a - 0x10))
    else if 0x21 ≤ a ∧ a ≤ 0x20 + N then some (.lpfA (a - 0x20))
    else none

/-- Which registers are read-only (R275). STATUS is not: its bit 3 is, and a write ignores it (R44). -/
def Csr.readOnly : Csr → Bool
  | .id => true
  | .param => true
  | .ctrl => false
  | .status => false
  | .errInfo => true
  | .errWord => true
  | .level => true
  | .wptr => true
  | .rptr => true
  | .fill => true
  | .underrunCnt => true
  | .dropCnt => true
  | .dcR => false
  | .splitThr => false
  | .lpfB _ => false
  | .lpfA _ => false
  | .statN => true
  | .statSumsqLo => true
  | .statSumsqHi => true
  | .statRms => true
  | .statPeak => true
  | .statLowSum => true
  | .statHighSum => true
  | .statLowE => true
  | .statHighE => true

end Sys2Proof.Machine
end

