-- ==== Sys2Proof/Machine/Arith.lean ====
section
/-! DEFINITION. The integer functions of R10. Arithmetic is exact over the integers; a width is applied only
where one of these functions says so. -/

namespace Sys2Proof.Machine

/-- `wrapS_N(v)`: the integer in `-2^(N-1) .. 2^(N-1)-1` congruent to `v` modulo `2^N` (R10). -/
def wrapS (N : Nat) (v : Int) : Int := v.bmod (2 ^ N)

/-- `wrapU_32(v)` as the 32-bit word (R10). -/
def wrapU32 (v : Int) : Word := BitVec.ofInt 32 v

/-- `sext_32(code)` of a coefficient register, or the value of a sample: the two's-complement integer (R10). -/
def sext {N : Nat} (v : BitVec N) : Int := v.toInt

/-- `sat16(v)` (R10). -/
def sat16 (v : Int) : Int := min (max v (-32768)) 32767

/-- `fdiv(a, b)`: floor of `a / b` for `b > 0` (R10). -/
def fdiv (a b : Int) : Int := a.fdiv b

/-- `tdiv(a, b)`: `a / b` truncated toward zero for `b > 0` (R10). -/
def tdiv (a b : Int) : Int := a.tdiv b

/-- `i mod C` with a result in `0 .. C-1` (R34, R82). -/
def modC (C : Nat) (i : Int) : Nat := (i.emod C).toNat

/-- One binary digit of the root after the other, from digit `k - 1` down: `m` is the root so far. -/
def isqrtFrom : Nat → Nat → Nat → Nat
  | 0, _, m => m
  | k + 1, v, m =>
    if (m + 2 ^ k) * (m + 2 ^ k) ≤ v then isqrtFrom k v (m + 2 ^ k) else isqrtFrom k v m

/-- `isqrt(v)`: the greatest `m` with `m * m <= v` (R10). Found digit by digit; `isqrt_spec` in
Sys2Proof/Laws/Arith.lean says that it is that number. -/
def isqrt (v : Nat) : Nat := isqrtFrom (Nat.log2 v / 2 + 1) v 0

end Sys2Proof.Machine
end

