-- ==== Sys2Proof/Machine/Ops.lean ====
section
/-! DEFINITION. The named operations over the ports, the ring storage and the ring cursors, and the recording of a
command error, which is this block's one "exception" (R302). -/

namespace Sys2Proof.Machine

/-! ### Ports: streams and positions -/

/-- The command stream of port `p` (R27). -/
def State.stream (s : State) : Port → List Word
  | .W => s.cmdW
  | .R => s.cmdR
  | .H => s.cmdH

/-- The command position `pos_p` (R27). -/
def State.pos (s : State) : Port → Nat
  | .W => s.posW
  | .R => s.posR
  | .H => s.posH

/-- `pos_p <- pos_p + len` (R28). -/
def State.advance (p : Port) (len : Nat) (s : State) : State :=
  match p with
  | .W => { s with posW := s.posW + len }
  | .R => { s with posR := s.posR + len }
  | .H => { s with posH := s.posH + len }

/-- Port `p`'s command stream becomes `ws`. -/
def State.setStream (p : Port) (ws : List Word) (s : State) : State :=
  match p with
  | .W => { s with cmdW := ws }
  | .R => { s with cmdR := ws }
  | .H => { s with cmdH := ws }

/-- `emit(p, w)` for each word in order (R23). Port W has no response channel, and no rule emits there. -/
def State.emit (p : Port) (ws : List Word) (s : State) : State :=
  match p with
  | .W => s
  | .R => { s with rspR := s.rspR ++ ws }
  | .H => { s with rspH := s.rspH ++ ws }

/-! ### Command errors -/

/-- `raise CmdError(cause)` on port `p` with header `w0` (R302): the first error since ERR was last 0 is captured,
ERR becomes 1, and the position moves past the command. There is no handler to return from (R306): the host clears ERR by
writing STATUS (`State.writeStatus` in Flags.lean, R277), which re-arms the capture. -/
def State.cmdError (cause : Cause) (p : Port) (w0 : Word) (s : State) : State :=
  State.advance p (cmdLen w0)
    { s with
      errCause := if s.err then s.errCause else cause.code
      errPort := if s.err then s.errPort else p.code
      errWord := if s.err then s.errWord else w0
      err := true }

/-- What a header that does not decode does: the error of R109 is recorded; a CSR_READ header with RSV bits on port
H first gets the one word 0 that R272 promises. -/
def State.decodeError (cause : Cause) (p : Port) (w0 : Word) (s : State) : State :=
  if cause = .reservedBits ∧ opcodeOf w0 = 0x6#4 then State.cmdError cause p w0 (State.emit p [0#32] s)
  else State.cmdError cause p w0 s

/-- The port check every command makes before it runs (R108, R301): on a port that does not accept it, it raises
WRONG_PORT and does nothing else. `decode` has made this check already for a command that came through `step`;
it stands here so that a meaning is right for every term of `Instr` (log 7). -/
def State.onPort (i : Instr) (body : State → State) (s : State) : State :=
  if i.wellFormed then body s else State.cmdError .wrongPort i.port i.header s

/-! ### Ring storage -/

/-- The ring storage as data: the slots written since reset, slots strictly rising (R30). -/
abbrev Memory := List (Nat × Sample)

/-- The one canonical form of a storage: slots strictly rising. An unlisted slot holds no value, so no entry can
equal what an unlisted slot holds (log 5). -/
abbrev Memory.wf (m : Memory) : Prop := (m.map Prod.fst).Pairwise (· < ·)

/-- What a storage holds in slot `i`; `none` for a slot that nothing has written. -/
def Memory.get : Memory → Nat → Option Sample
  | [], _ => none
  | (k, v) :: rest, i => if k = i then some v else Memory.get rest i

/-- Store `x` into slot `i`, keeping the slots strictly rising. -/
def Memory.set : Memory → Nat → Sample → Memory
  | [], i, x => [(i, x)]
  | (k, v) :: rest, i, x =>
    if i < k then (i, x) :: (k, v) :: rest
    else if i = k then (i, x) :: rest
    else (k, v) :: Memory.set rest i x

/-- `MemRead(i, 1)` (R11). A slot that nothing has written answers a free value (log 5). -/
def State.memRead (s : State) (i : Nat) : Sample := (Memory.get s.ring i).getD (Config.freeSlot i)

/-- `MemWrite(i, 1, x)` (R11). -/
def State.memWrite (i : Nat) (x : Sample) (s : State) : State := { s with ring := Memory.set s.ring i x }

/-! ### Ring cursors -/

/-- `RPTR = (WPTR - LEVEL) mod C` (R34). -/
def State.rptr (s : State) : Nat := modC s.params.capacity ((s.wptr : Int) - s.level)

/-- The effect of PUSH on the ring (R140, R142): store at WPTR, and when full drop the oldest unpopped sample, which
is counted, with LEVEL staying at C so that RPTR moves with WPTR. -/
def State.pushSample (x : Sample) (s : State) : State :=
  let C := s.params.capacity
  { State.memWrite s.wptr x s with
    wptr := modC C (s.wptr + 1)
    level := if s.level = C then s.level else s.level + 1
    dropCnt := if s.level = C then s.dropCnt + 1#32 else s.dropCnt
    fill := min (s.fill + 1) C }

/-- The `n` values POP_BLOCK takes: the oldest unpopped samples, then zeros (R145, R150). -/
def State.popValues (n : Nat) (s : State) : List Sample :=
  (List.range n).map fun (i : Nat) =>
    if i < min n s.level then s.memRead (modC s.params.capacity ((s.rptr + i : Nat) : Int)) else 0#16

/-- The effect of POP_BLOCK on the ring state and the underrun counter (R145, R150). -/
def State.popCount (n : Nat) (s : State) : State :=
  let k := min n s.level
  { s with
    level := s.level - k
    underrunCnt := if k < n then s.underrunCnt + 1#32 else s.underrunCnt }

/-- The `n` values of SNAPSHOT: zeros for positions older than any held sample, then the newest samples, oldest
first (R155, R157). -/
def State.snapshotValues (n : Nat) (s : State) : List Sample :=
  let m := min n s.fill
  (List.range n).map fun (i : Nat) =>
    if i < n - m then 0#16
    else s.memRead (modC s.params.capacity ((s.wptr : Int) - m + ((i - (n - m) : Nat) : Int)))

/-- A sample as a response word: sign-extended to 32 bits (R145, R155). -/
def sampleWord (v : Sample) : Word := wrapU32 (sext v)

end Sys2Proof.Machine
end

