-- ==== Sys2Proof/Machine/Control.lean ====
section
/-! DEFINITION. The meanings of the control commands NOP, RESET, CSR_READ and CSR_WRITE (43_control.md). -/

namespace Sys2Proof.Machine

/-- NOP (R260): every hint does nothing (R107). -/
def execNop (p : Port) (hint : BitVec 28) (s : State) : Host.Outcome State Fault Refusal :=
  .next (State.onPort (.nop p hint) (State.advance p 1) s)

/-- The parts of RESET (R262): what the mask names is cleared, everything else is kept. With RB the slots keep
their contents. -/
def State.resetParts (mask : BitVec 5) (s : State) : State :=
  { s with
    wptr := if maskRB mask then 0 else s.wptr
    level := if maskRB mask then 0 else s.level
    fill := if maskRB mask then 0 else s.fill
    chainP := if maskFCP mask then Chain.cleared s.params.lpfOrder else s.chainP
    chainA := if maskFCA mask then Chain.cleared s.params.lpfOrder else s.chainA
    underrunCnt := if maskCNT mask then 0#32 else s.underrunCnt
    dropCnt := if maskCNT mask then 0#32 else s.dropCnt
    stats := if maskSTATS mask then Stats.cleared else s.stats
    statsValid := if maskSTATS mask then false else s.statsValid }

/-- RESET (R262). -/
def execReset (p : Port) (mask : BitVec 5) (s : State) : Host.Outcome State Fault Refusal :=
  .next (State.onPort (.reset p mask) (fun s => State.advance p 1 (State.resetParts mask s)) s)

/-- The value a CSR reads as, RSV bits 0 (R41 to R64). -/
def State.csrValue (s : State) : Csr → Word
  | .id => Config.idValue
  | .param => 0#13 ++ BitVec.ofNat 3 s.params.lpfOrder ++ BitVec.ofNat 16 s.params.capacity
  | .ctrl => s.ctrlWord
  | .status => s.statusWord
  | .errInfo => s.errInfoWord
  | .errWord => s.errWord
  | .level => (BitVec.ofNat 17 s.level).setWidth 32
  | .wptr => (BitVec.ofNat 16 s.wptr).setWidth 32
  | .rptr => (BitVec.ofNat 16 s.rptr).setWidth 32
  | .fill => (BitVec.ofNat 17 s.fill).setWidth 32
  | .underrunCnt => s.underrunCnt
  | .dropCnt => s.dropCnt
  | .dcR => s.dcR.setWidth 32
  | .splitThr => s.splitThr.setWidth 32
  | .lpfB k => s.lpfB.getD k 0#32
  | .lpfA k => s.lpfA.getD (k - 1) 0#32
  | .statN => s.stats.n.setWidth 32
  | .statSumsqLo => s.stats.sumsq.extractLsb' 0 32
  | .statSumsqHi => (s.stats.sumsq.extractLsb' 32 16).setWidth 32
  | .statRms => s.stats.rms.setWidth 32
  | .statPeak => s.stats.peak.setWidth 32
  | .statLowSum => s.stats.lowSum
  | .statHighSum => s.stats.highSum
  | .statLowE => s.stats.lowE.setWidth 32
  | .statHighE => s.stats.highE.setWidth 32

/-- The effect of writing `data` to a writable CSR (R275), RSV bits of `data` ignored (R66). A read-only register
is never written: CSR_WRITE raises CSR_READ_ONLY before. -/
def State.csrStore (c : Csr) (data : Word) (s : State) : State :=
  match c with
  | .ctrl => State.writeCtrl data s
  | .status => State.writeStatus data s
  | .dcR => { s with dcR := data.extractLsb' 0 16 }
  | .splitThr => { s with splitThr := data.extractLsb' 0 16 }
  | .lpfB k => { s with lpfB := s.lpfB.set k data }
  | .lpfA k => { s with lpfA := s.lpfA.set (k - 1) data }
  | .id => s
  | .param => s
  | .errInfo => s
  | .errWord => s
  | .level => s
  | .wptr => s
  | .rptr => s
  | .fill => s
  | .underrunCnt => s
  | .dropCnt => s
  | .statN => s
  | .statSumsqLo => s
  | .statSumsqHi => s
  | .statRms => s
  | .statPeak => s
  | .statLowSum => s
  | .statHighSum => s
  | .statLowE => s
  | .statHighE => s

/-- The effect of CSR_READ on port `p` (R270): one word in every case (R272). -/
def State.csrRead (p : Port) (addr : BitVec 8) (s : State) : State :=
  match csrOf s.params.lpfOrder addr with
  | none => State.cmdError .badCsrAddr p (Instr.csrRead p addr).header (State.emit p [0#32] s)
  | some c => State.advance p 1 (State.emit p [s.csrValue c] s)

/-- CSR_READ (R270). -/
def execCsrRead (p : Port) (addr : BitVec 8) (s : State) : Host.Outcome State Fault Refusal :=
  .next (State.onPort (.csrRead p addr) (State.csrRead p addr) s)

/-- The effect of CSR_WRITE on port `p` (R275): BAD_CSR_ADDR, then CSR_READ_ONLY, then the write. -/
def State.csrWrite (p : Port) (addr : BitVec 8) (data : Word) (s : State) : State :=
  match csrOf s.params.lpfOrder addr with
  | none => State.cmdError .badCsrAddr p (Instr.csrWrite p addr data).header s
  | some c =>
    if c.readOnly then State.cmdError .csrReadOnly p (Instr.csrWrite p addr data).header s
    else State.advance p 2 (State.csrStore c data s)

/-- CSR_WRITE (R275). -/
def execCsrWrite (p : Port) (addr : BitVec 8) (data : BitVec 32) (s : State) : Host.Outcome State Fault Refusal :=
  .next (State.onPort (.csrWrite p addr data) (State.csrWrite p addr data) s)

end Sys2Proof.Machine
end

