-- ==== Sys2Proof/Machine/Filters.lean ====
section
/-! DEFINITION. The filter datapath (41_filters.md): the DC blocker, the low-pass filter, and a chain of the two. -/

namespace Sys2Proof.Machine

/-- The configuration both chains read (R180, R204): it cannot change within a command. -/
structure FilterCfg where
  dcEn : Bool
  lpfEn : Bool
  rCode : BitVec 16
  order : Nat
  b : List Word
  a : List Word
  deriving DecidableEq, Repr

/-- The configuration in effect in a state (R204). -/
def State.filterCfg (s : State) : FilterCfg :=
  { dcEn := s.dcEn, lpfEn := s.lpfEn, rCode := s.dcR, order := s.params.lpfOrder, b := s.lpfB, a := s.lpfA }

/-- What one stage or one chain step gives: the output sample, whether a result was saturated, and the chain's
next state. -/
structure StageOut where
  y : Sample
  sat : Bool
  chain : Chain
  deriving DecidableEq, Repr

/-- The exact `y[n]` of the DC blocker in units of 2^-16, before `wrapS_40` (R182). -/
def dcExact (rCode : BitVec 16) (c : Chain) (x : Sample) : Int :=
  (sext x - sext c.dcX) * 65536 + tdiv ((rCode.toNat : Int) * sext c.dcY) 65536

/-- `DCStep(c, x)` (R182). -/
def dcStep (rCode : BitVec 16) (c : Chain) (x : Sample) : StageOut :=
  let Y := wrapS 40 (dcExact rCode c x)
  let yr := fdiv (Y + 32768) 65536
  let y := sat16 yr
  { y := BitVec.ofInt 16 y
    sat := decide (y ≠ yr)
    chain := { c with dcX := x, dcY := BitVec.ofInt 40 Y } }

/-- `LPF_B[k]` as the integer of its code (R190). -/
def coefB (g : FilterCfg) (k : Nat) : Int := sext (g.b.getD k 0#32)

/-- `LPF_A[k]`, `k` from 1, as the integer of its code (R190). -/
def coefA (g : FilterCfg) (k : Nat) : Int := sext (g.a.getD (k - 1) 0#32)

/-- History entry `k`, from 1, as the integer of its sample (R38). -/
def histAt (h : List Sample) (k : Nat) : Int := sext (h.getD (k - 1) 0#16)

/-- The sum over `k = 1 .. N` of `f k` (R191). -/
def sumTo (N : Nat) (f : Nat → Int) : Int := ((List.range N).map fun i => f (i + 1)).sum

/-- `acc` of LPFStep, exact (R191, R192). -/
def lpfAcc (g : FilterCfg) (c : Chain) (x : Sample) : Int :=
  coefB g 0 * sext x + sumTo g.order (fun k => coefB g k * histAt c.xh k)
    - sumTo g.order (fun k => coefA g k * histAt c.yh k)

/-- A history takes a new entry 1; entry `k` moves to `k + 1` and entry `N` leaves (R191). -/
def shiftIn (N : Nat) (v : Sample) (h : List Sample) : List Sample := (v :: h).take N

/-- `LPFStep(c, x)` (R191). -/
def lpfStep (g : FilterCfg) (c : Chain) (x : Sample) : StageOut :=
  let yr := fdiv (lpfAcc g c x + 2 ^ 27) (2 ^ 28)
  let y := sat16 yr
  { y := BitVec.ofInt 16 y
    sat := decide (y ≠ yr)
    chain := { c with xh := shiftIn g.order x c.xh, yh := shiftIn g.order (BitVec.ofInt 16 y) c.yh } }

/-- A stage that is off: the input passes and the chain's state is frozen (R200). -/
def passThrough (c : Chain) (x : Sample) : StageOut := { y := x, sat := false, chain := c }

/-- `ChainStep(c, x)` (R201): the DC stage first, then the low-pass stage, each under its enable. -/
def chainStep (g : FilterCfg) (c : Chain) (x : Sample) : StageOut :=
  let u := if g.dcEn then dcStep g.rCode c x else passThrough c x
  let v := if g.lpfEn then lpfStep g u.chain u.y else passThrough u.chain u.y
  { y := v.y, sat := u.sat || v.sat, chain := v.chain }

/-- What a chain gives for a block of samples. -/
structure BlockOut where
  ys : List Sample
  sat : Bool
  chain : Chain
  deriving DecidableEq, Repr

/-- ChainStep over a block, index 0 first, each step from the state the one before left (R203). -/
def chainBlock (g : FilterCfg) : Chain → List Sample → BlockOut
  | c, [] => { ys := [], sat := false, chain := c }
  | c, x :: xs =>
    let o := chainStep g c x
    let r := chainBlock g o.chain xs
    { ys := o.y :: r.ys, sat := o.sat || r.sat, chain := r.chain }

/-- A block that is not filtered (`F = 0`) leaves the chain alone (R147, R221). -/
def chainBlockIf (f : Bool) (g : FilterCfg) (c : Chain) (xs : List Sample) : BlockOut :=
  if f then chainBlock g c xs else { ys := xs, sat := false, chain := c }

end Sys2Proof.Machine
end

