-- ==== Sys2Proof/Machine/RingBuffer.lean ====
section
/-! DEFINITION. The meanings of the ring buffer commands PUSH, POP_BLOCK and SNAPSHOT (40_ring_buffer.md). -/

namespace Sys2Proof.Machine

/-- PUSH (R140). -/
def execPush (p : Port) (x : BitVec 16) (s : State) : Host.Outcome State Fault Refusal :=
  .next (State.onPort (.push p x) (fun s => State.advance p 1 (State.pushSample x s)) s)

/-- The effect of POP_BLOCK on port `p` (R145): the values leave the ring, pass through FC_P when `f` is set (R147,
R203), and are emitted. -/
def State.popBlock (p : Port) (f : Bool) (n : Nat) (s : State) : State :=
  let out := chainBlockIf f s.filterCfg s.chainP (s.popValues n)
  let filtered := { State.popCount n s with chainP := out.chain }
  State.advance p 1 (State.emit p (out.ys.map sampleWord) (State.noteSatP out.sat filtered))

/-- POP_BLOCK (R145). -/
def execPopBlock (p : Port) (f : Bool) (n : BitVec 16) (s : State) : Host.Outcome State Fault Refusal :=
  .next (State.onPort (.popBlock p f n) (State.popBlock p f (blockLen n)) s)

/-- The effect of SNAPSHOT on port `p` for a length the ring can hold (R155). -/
def State.snapshot (p : Port) (n : Nat) (s : State) : State :=
  State.advance p 1 (State.emit p ((s.snapshotValues n).map sampleWord) s)

/-- SNAPSHOT (R155); BAD_LEN when `n > C` (R158). -/
def execSnapshot (p : Port) (n : BitVec 16) (s : State) : Host.Outcome State Fault Refusal :=
  .next (State.onPort (.snapshot p n) (fun s =>
    if s.params.capacity < blockLen n then State.cmdError .badLen p (Instr.snapshot p n).header s
    else State.snapshot p (blockLen n) s) s)

end Sys2Proof.Machine
end

