-- ==== Sys2Proof/Machine/Statistics.lean ====
section
/-! DEFINITION. The meaning of ANALYZE and the statistics it computes (42_statistics.md). Every sum is exact; a
register's width is applied when it is written. -/

namespace Sys2Proof.Machine

/-- `SUMSQ`, the exact sum of the squares (R223). -/
def sumSq (z : List Sample) : Nat := (z.map fun v => (sext v * sext v).toNat).sum

/-- `RMS_Q8 = isqrt(fdiv(SUMSQ * 65536, n))` (R224). -/
def rmsQ8 (sumsq n : Nat) : Nat := isqrt (sumsq * 65536 / n)

/-- `PEAK`, the largest magnitude in the block (R226). -/
def peakOf (z : List Sample) : Nat := (z.map fun v => (sext v).natAbs).foldl max 0

/-- The absolute first differences inside the block (R230). -/
def firstDiffs : List Sample → List Nat
  | [] => []
  | [_] => []
  | a :: b :: rest => (sext b - sext a).natAbs :: firstDiffs (b :: rest)

/-- `LOW_SUM`, the sum of the differences below the threshold (R231). -/
def lowSumOf (thr : Nat) (z : List Sample) : Nat := ((firstDiffs z).filter fun d => decide (d < thr)).sum

/-- `HIGH_SUM`, the sum of the differences at or above the threshold (R231). -/
def highSumOf (thr : Nat) (z : List Sample) : Nat := ((firstDiffs z).filter fun d => decide (thr ≤ d)).sum

/-- A sum of differences divided by the block length, in Q16.8, rounded down (R232). -/
def energyQ8 (sum n : Nat) : Nat := sum * 256 / n

/-- All nine statistics registers of a block of `n` samples (R220, R234). -/
def blockStats (thr n : Nat) (z : List Sample) : Stats :=
  { n := BitVec.ofNat 16 n
    sumsq := BitVec.ofNat 48 (sumSq z)
    rms := BitVec.ofNat 24 (rmsQ8 (sumSq z) n)
    peak := BitVec.ofNat 17 (peakOf z)
    lowSum := BitVec.ofNat 32 (lowSumOf thr z)
    highSum := BitVec.ofNat 32 (highSumOf thr z)
    lowE := BitVec.ofNat 24 (energyQ8 (lowSumOf thr z) n)
    highE := BitVec.ofNat 24 (energyQ8 (highSumOf thr z) n) }

/-- The effect of ANALYZE on port `p` for a legal length (R220): the block SNAPSHOT would give, through FC_A when
`f` is set, into the statistics registers. -/
def State.analyze (p : Port) (f : Bool) (n : Nat) (s : State) : State :=
  let out := chainBlockIf f s.filterCfg s.chainA (s.snapshotValues n)
  let filtered := State.noteSatA out.sat { s with chainA := out.chain }
  State.advance p 1
    { filtered with stats := blockStats s.splitThr.toNat n out.ys, statsValid := true }

/-- ANALYZE (R220); BAD_LEN when `n = 0` or `n > C` (R222). -/
def execAnalyze (p : Port) (f : Bool) (n : BitVec 16) (s : State) : Host.Outcome State Fault Refusal :=
  .next (State.onPort (.analyze p f n) (fun s =>
    if blockLen n = 0 ∨ s.params.capacity < blockLen n then
      State.cmdError .badLen p (Instr.analyze p f n).header s
    else State.analyze p f (blockLen n) s) s)

end Sys2Proof.Machine
end

