-- ==== Sys2Proof/Machine/Dispatch.lean ====
section
/-! DEFINITION. The meaning of every command: one arm per constructor of Instr. -/

namespace Sys2Proof.Machine

def exec (i : Instr) (s : State) : Host.Outcome State Fault Refusal :=
  match i with
  | .nop p hint => Sys2Proof.Machine.execNop p hint s
  | .push p x => Sys2Proof.Machine.execPush p x s
  | .popBlock p f n => Sys2Proof.Machine.execPopBlock p f n s
  | .snapshot p n => Sys2Proof.Machine.execSnapshot p n s
  | .analyze p f n => Sys2Proof.Machine.execAnalyze p f n s
  | .reset p mask => Sys2Proof.Machine.execReset p mask s
  | .csrRead p addr => Sys2Proof.Machine.execCsrRead p addr s
  | .csrWrite p addr data => Sys2Proof.Machine.execCsrWrite p addr data s

end Sys2Proof.Machine
end

