-- ==== Sys2Proof/Machine/Turn.lean ====
section
/-! DEFINITION. One input of the outside world: a word arrives on a port, a port has its turn, or the block is
reset. -/

namespace Sys2Proof.Machine

/-- The command at `pos_p` of port `p`, as a header and its second word (0 where it has none); `none` while the
port holds no complete command (R22, R24, R357). -/
def State.pending (s : State) (p : Port) : Option (Word × Word) := takeCommand ((s.stream p).drop (s.pos p))

/-- The turn of port `p` (R24): its complete command is decoded (R109) and executed, or its error recorded. A port
that holds no complete command waits, and nothing changes (R357; log 3). -/
def State.turn (p : Port) (s : State) : Host.Outcome State Fault Refusal :=
  match s.pending p with
  | none => .next s
  | some (w0, w1) =>
    match decode p w0 w1 with
    | .ok i => exec i s
    | .error cause => .next (State.decodeError cause p w0 s)

/-- What one input does. Hardware reset empties the command streams with any partly received command in them, and
keeps the parameters and what the outside world does afterwards (R340; log 6). -/
def State.perform (inp : Input) (s : State) : Host.Outcome State Fault Refusal :=
  match inp with
  | .accept p w => .next (State.setStream p (s.stream p ++ [w]) s)
  | .execute p => State.turn p s
  | .hardReset => .next (State.resetWith s.params s.inputs)

/-- A stream with the words `ws` standing from position `pos` on; a stream too short to reach `pos` is filled up
with NOP headers. -/
def placeWords (stream : List Word) (pos : Nat) (ws : List Word) : List Word :=
  (stream ++ List.replicate (pos - stream.length) 0#32).take pos ++ ws ++ stream.drop (pos + ws.length)

end Sys2Proof.Machine
end

