-- ==== Sys2Proof/Machine/Step.lean ====
section
/-! DEFINITION. The step function. -/

namespace Sys2Proof.Machine

/-- One step: the next input of the outside world happens. Where none is left the block waits, unchanged (log 3). -/
def step (s : State) : Host.Outcome State Fault Refusal :=
  match s.inputs with
  | [] => .next s
  | inp :: rest => State.perform inp { s with inputs := rest }

/-- `s` with the instruction whose bits are `w` standing at the command position of its port, and that port's turn
next: the program is loaded from outside, over the command channel (log 4, log 14). -/
def State.withFetchWord (s : State) (nbits w : Nat) : State :=
  let ws := tableWords nbits w
  let p := homePort (BitVec.ofNat 32 (w % 2 ^ nbits))
  let loaded := State.setStream p (placeWords (s.stream p) (s.pos p) ws) s
  { loaded with inputs := .execute p :: s.inputs }

end Sys2Proof.Machine
end

