-- ==== Sys2Proof/Safety.lean ====
section
/-! DEFINITION. What claims about runs are stated in: the samples the ring holds, the invariant of the block, and
schedules of the outside world. -/

namespace Sys2Proof.Machine

/-! ### What the ring holds -/

/-- The samples held for SNAPSHOT, oldest first (R33): the FILL newest slots behind WPTR. -/
def State.held (s : State) : List Sample :=
  (List.range s.fill).map fun (i : Nat) => s.memRead (modC s.params.capacity ((s.wptr : Int) - s.fill + i))

/-- The unpopped samples, oldest first (R32, R34): LEVEL slots from RPTR on. -/
def State.unpopped (s : State) : List Sample :=
  (List.range s.level).map fun (i : Nat) => s.memRead (modC s.params.capacity ((s.rptr + i : Nat) : Int))

/-- The last `n` elements of a list. -/
def lastN (n : Nat) (l : List Sample) : List Sample := l.drop (l.length - n)

/-! ### Blocks through a filter chain -/

/-- `out` is what ChainStep gives when it is applied to `xs` in order, index 0 first, from the chain `c` (R203): there
are states, `c` the first of them, such that step `k` goes from state `k` to state `k + 1` and gives output `k`; the
chain ends in the last state, and the block saturated exactly when one of its steps did. -/
abbrev StepsThrough (g : FilterCfg) (c : Chain) (xs : List Sample) (out : BlockOut) : Prop :=
  ∃ at' : Nat → Chain, at' 0 = c ∧ out.chain = at' xs.length ∧ out.ys.length = xs.length ∧
    (∀ (k : Nat) (x : Sample), xs[k]? = some x →
      out.ys[k]? = some (chainStep g (at' k) x).y ∧ at' (k + 1) = (chainStep g (at' k) x).chain) ∧
    (out.sat = true ↔ ∃ (k : Nat) (x : Sample), xs[k]? = some x ∧ (chainStep g (at' k) x).sat = true)

/-! ### The invariant -/

/-- The ring state (R35): the bounds, the place of the samples while nothing has wrapped, and every held slot
written, which is what makes the contents after reset unobservable (R83). -/
abbrev State.RingInv (s : State) : Prop :=
  s.level ≤ s.fill ∧ s.fill ≤ s.params.capacity ∧ s.wptr < s.params.capacity ∧
    (s.fill < s.params.capacity → s.wptr = s.fill) ∧ ∀ i < s.fill, (Memory.get s.ring i).isSome = true

/-- The storage keeps its canonical form and has no slot outside `0 .. C-1` (R30). -/
abbrev State.StorageInv (s : State) : Prop :=
  Memory.wf s.ring ∧ ∀ e ∈ s.ring, e.1 < s.params.capacity

/-- A filter chain of order `N` (R38): N history samples, and a DC output that stays near its input, from which
R186 follows. -/
abbrev Chain.Inv (N : Nat) (c : Chain) : Prop :=
  c.xh.length = N ∧ c.yh.length = N ∧ |sext c.dcY - 65536 * sext c.dcX| < 2 ^ 31 + 2 ^ 16

/-- The coefficient registers are LPF_B[0..N] and LPF_A[1..N] (R55). -/
abbrev State.CoefInv (s : State) : Prop :=
  s.lpfB.length = s.params.lpfOrder + 1 ∧ s.lpfA.length = s.params.lpfOrder

/-- The error record (R45, R300): no reserved cause code, no port code 3, and a cause wherever ERR is set. -/
abbrev State.ErrInv (s : State) : Prop :=
  s.errCause.toNat ≤ 6 ∧ s.errPort.toNat ≤ 2 ∧ (s.err = true → s.errCause ≠ 0#4) ∧
    (s.errCause = 0#4 → s.errPort = 0#2 ∧ s.errWord = 0#32)

/-- The statistics (R56 to R64, R223, R224, R226, R231): clear until an ANALYZE has completed, then in the ranges
the rules give. -/
abbrev State.StatsInv (s : State) : Prop :=
  (s.statsValid = false → s.stats = Stats.cleared) ∧
    (s.statsValid = true → 1 ≤ s.stats.n.toNat ∧ s.stats.n.toNat ≤ s.params.capacity) ∧
    s.stats.sumsq.toNat ≤ s.stats.n.toNat * 2 ^ 30 ∧ s.stats.rms.toNat ≤ 2 ^ 23 ∧ s.stats.peak.toNat ≤ 32768 ∧
    s.stats.lowSum.toNat + s.stats.highSum.toNat ≤ 65535 * (s.stats.n.toNat - 1)

/-- No position is past the words its port has accepted (R27). -/
abbrev State.PosInv (s : State) : Prop :=
  s.posW ≤ s.cmdW.length ∧ s.posR ≤ s.cmdR.length ∧ s.posH ≤ s.cmdH.length

/-- The invariant of the block: legal parameters, and every part above. -/
abbrev State.Inv (s : State) : Prop :=
  s.params.Legal ∧ s.RingInv ∧ s.StorageInv ∧ Chain.Inv s.params.lpfOrder s.chainP ∧
    Chain.Inv s.params.lpfOrder s.chainA ∧ s.CoefInv ∧ s.ErrInv ∧ s.StatsInv ∧ s.PosInv

/-! ### Which addresses exist, and which error a command raises -/

/-- The mapped word addresses (R65); `N` is LPF_ORDER. -/
abbrev mappedAddr (N a : Nat) : Prop :=
  a ≤ 0x0D ∨ (0x10 ≤ a ∧ a ≤ 0x10 + N) ∨ (0x21 ≤ a ∧ a ≤ 0x20 + N) ∨ (0x30 ≤ a ∧ a ≤ 0x38)

/-- The addresses of read-only registers (R275): ID, PARAM, ERR_INFO to DROP_CNT, and the statistics. -/
abbrev readOnlyAddr (a : Nat) : Prop := a ≤ 0x01 ∨ (0x04 ≤ a ∧ a ≤ 0x0B) ∨ (0x30 ≤ a ∧ a ≤ 0x38)

/-- The code of the error a command raises on port `p` (R300), in the order of R301; `none` where it raises none.
`C` is the capacity and `N` is LPF_ORDER. -/
def raisedCode (C N : Nat) (p : Port) (w0 : Word) : Option (BitVec 4) :=
  let op := opcodeOf w0
  let n := (w0.extractLsb' 0 16).toNat
  let addr := (w0.extractLsb' 0 8).toNat
  if 0x8#4 ≤ op then some 1#4
  else if acceptedOn op p = false then some 2#4
  else if w0 &&& rsvMask op ≠ 0#32 then some 3#4
  else if (op = 0x3#4 ∧ C < n) ∨ (op = 0x4#4 ∧ (n = 0 ∨ C < n)) then some 4#4
  else if (op = 0x6#4 ∨ op = 0x7#4) ∧ ¬mappedAddr N addr then some 5#4
  else if op = 0x7#4 ∧ readOnlyAddr addr then some 6#4
  else none

/-- The code of a port in ERR_INFO (R45, R302). -/
def portNumber : Port → BitVec 2
  | .W => 0#2
  | .R => 1#2
  | .H => 2#2

/-! ### Runs of commands and of inputs -/

/-- Execute a list of commands one after the other: one interleaving of the ports (R89). -/
def execAll : List Instr → State → Host.Outcome State Fault Refusal
  | [], s => .next s
  | i :: is, s =>
    match exec i s with
    | .next t => execAll is t
    | .fault r => .fault r
    | .refused r => .refused r

/-- The samples the PUSHes of a list of commands write, in order. -/
def pushedBy : List Instr → List Sample
  | [] => []
  | .push _ x :: is => x :: pushedBy is
  | _ :: is => pushedBy is

/-- The samples, without zero-fill, that the POP_BLOCKs of a list of commands take out of the ring, in order (R90). -/
def poppedBy : List Instr → State → List Sample
  | [], _ => []
  | i :: is, s =>
    let here := match i with
      | .popBlock _ _ n => s.unpopped.take (blockLen n)
      | _ => []
    match exec i s with
    | .next t => here ++ poppedBy is t
    | _ => here

/-- What the outside world does, for ever: input `k` is `w k`. -/
abbrev Schedule := Nat → Input

/-- The state after `k` inputs of a schedule, as long as no step stops. -/
def follow (w : Schedule) : Nat → State → Host.Outcome State Fault Refusal
  | 0, s => .next s
  | k + 1, s =>
    match follow w k s with
    | .next t => State.perform (w k) t
    | .fault r => .fault r
    | .refused r => .refused r

/-- Weak fairness (R88): from every point of the run at which a port holds a complete command, that port has a turn
at that point or later. -/
def WeaklyFair (w : Schedule) (s : State) : Prop :=
  ∀ (p : Port) (k : Nat) (t : State), follow w k s = .next t → (t.pending p).isSome = true →
    ∃ m, k ≤ m ∧ w m = .execute p

end Sys2Proof.Machine
end

