-- ==== Sys2Proof/Certificates/Slice0/Obligations.lean ====
section
/-! DEFINITION. The statements for the provers, family by family. Each docstring names the rule of spec/ it says. -/

open Sys2Proof Sys2Proof.Machine

/-! ## Encoding -/

/-- R102, R103, R109: the words of every well-formed command decode, on its port and whatever words follow, to that
command, with every operand at every value. -/
def Obligations.EncodedCommandsDecodeBack : Prop :=
  ∀ (i : Instr) (more : List Word), i.wellFormed = true →
    decodeWords i.port (encode i ++ more) = some (.ok i)

/-- R102, R103: what decodes to a command is that command's own words, so decoding drops no bit of a header; and the
command is well-formed. -/
def Obligations.DecodedCommandsEncodeBack : Prop :=
  ∀ (p : Port) (w0 w1 : Word) (i : Instr), decode p w0 w1 = .ok i →
    i.port = p ∧ i.wellFormed = true ∧ i.header = w0 ∧ (cmdLen w0 = 2 → i.dataWords = [w1]) ∧
      (cmdLen w0 = 1 → i.dataWords = [])

/-- R104: a header selects exactly the row whose match it has under the row's mask, on the ports of the row, with the
row's length; OP 0x8 to 0xF is reserved on every port. -/
def Obligations.DecodeFollowsTheOpcodeMap : Prop :=
  ∀ (p : Port) (w0 w1 : Word),
    ((∃ h, decode p w0 w1 = .ok (.nop p h)) ↔ w0 &&& 0xF0000000#32 = 0x00000000#32) ∧
    ((∃ x, decode p w0 w1 = .ok (.push p x)) ↔ w0 &&& 0xFFFF0000#32 = 0x10000000#32 ∧ p = .W) ∧
    ((∃ f n, decode p w0 w1 = .ok (.popBlock p f n)) ↔ w0 &&& 0xF7FF0000#32 = 0x20000000#32 ∧ p = .R) ∧
    ((∃ n, decode p w0 w1 = .ok (.snapshot p n)) ↔ w0 &&& 0xFFFF0000#32 = 0x30000000#32 ∧ p = .H) ∧
    ((∃ f n, decode p w0 w1 = .ok (.analyze p f n)) ↔ w0 &&& 0xF7FF0000#32 = 0x40000000#32 ∧ p = .H) ∧
    ((∃ m, decode p w0 w1 = .ok (.reset p m)) ↔ w0 &&& 0xFFFFFFE0#32 = 0x50000000#32 ∧ p = .H) ∧
    ((∃ a, decode p w0 w1 = .ok (.csrRead p a)) ↔ w0 &&& 0xFFFFFF00#32 = 0x60000000#32 ∧ p = .H) ∧
    ((∃ a, decode p w0 w1 = .ok (.csrWrite p a w1)) ↔ w0 &&& 0xFFFFFF00#32 = 0x70000000#32 ∧ p = .H) ∧
    (decode p w0 w1 = .error .illegalOp ↔ 8 ≤ (w0.extractLsb' 28 4).toNat) ∧
    (cmdLen w0 = 2 ↔ (w0.extractLsb' 28 4).toNat = 7) ∧ (cmdLen w0 = 1 ↔ (w0.extractLsb' 28 4).toNat ≠ 7)

/-- R102 to R104, with the words of 95_test_vectors.md: one word of each command decodes to what the spec says. -/
def Obligations.WordsOfTheSpecDecode : Prop :=
  decode .W 0x00ABCDEF#32 0#32 = .ok (.nop .W 0x0ABCDEF#28) ∧
  decode .W 0x10008000#32 0#32 = .ok (.push .W 0x8000#16) ∧
  decode .R 0x2800FFFF#32 0#32 = .ok (.popBlock .R true 65535#16) ∧
  decode .H 0x30000004#32 0#32 = .ok (.snapshot .H 4#16) ∧
  decode .H 0x40000005#32 0#32 = .ok (.analyze .H false 5#16) ∧
  decode .H 0x50000009#32 0#32 = .ok (.reset .H 0b01001#5) ∧
  decode .H 0x6000000C#32 0#32 = .ok (.csrRead .H 0x0C#8) ∧
  decode .H 0x70000011#32 0x08000000#32 = .ok (.csrWrite .H 0x11#8 0x08000000#32)

/-! ## Steps -/

/-- R24, R85, R109: when it is a port's turn, the step is that port's turn on the state from which the input has been
taken off, whatever words the port holds; and when the words at its position are those of a well-formed command, the
step is that command's meaning on that state. The list of inputs is the model's choice (log 2). -/
def Obligations.StepRunsTheDecodedCommand : Prop :=
  (∀ (s : State) (p : Port) (rest : List Input), s.inputs = .execute p :: rest →
    step s = State.turn p { s with inputs := rest }) ∧
  (∀ (s : State) (i : Instr) (rest : List Input) (more : List Word), i.wellFormed = true →
    s.inputs = .execute i.port :: rest → (s.stream i.port).drop (s.pos i.port) = encode i ++ more →
      step s = exec i { s with inputs := rest })

/-- R28: after every command, one that raises an error too, the position of its port has moved by the command's
length; no other position moves, and no command stream changes. -/
def Obligations.EveryCommandAdvancesItsOwnPosition : Prop :=
  ∀ (s : State) (p : Port) (w0 w1 : Word), s.pending p = some (w0, w1) →
    ∃ t, State.turn p s = .next t ∧ t.pos p = s.pos p + (if (w0.extractLsb' 28 4).toNat = 7 then 2 else 1) ∧
      (∀ q, q ≠ p → t.pos q = s.pos q) ∧ ∀ q, t.stream q = s.stream q

/-- R300, R301, R302: the turn of a port that holds the command with header `w0` raises exactly the error the table
gives, the first in the order of the checks; it records it, captures it only while ERR is 0, and does nothing else
but move past the command and, for a CSR_READ header on port H, emit one word 0. A command that raises none leaves
the error record alone, but for a CSR_WRITE of STATUS that clears ERR. -/
def Obligations.TurnRaisesTheFirstErrorOfTheTable : Prop :=
  ∀ (s : State) (p : Port) (w0 w1 : Word), s.pending p = some (w0, w1) →
    ∃ t, State.turn p s = .next t ∧
      match raisedCode s.params.capacity s.params.lpfOrder p w0 with
      | some code =>
        t.pos p = s.pos p + cmdLen w0 ∧ (∀ q, q ≠ p → t.pos q = s.pos q) ∧
        t = { s with
          posW := t.posW
          posR := t.posR
          posH := t.posH
          err := true
          errCause := if s.err then s.errCause else code
          errPort := if s.err then s.errPort else portNumber p
          errWord := if s.err then s.errWord else w0
          rspH := if p = .H ∧ opcodeOf w0 = 0x6#4 then s.rspH ++ [0#32] else s.rspH }
      | none =>
        t.errCause = s.errCause ∧ t.errPort = s.errPort ∧ t.errWord = s.errWord ∧
        (t.err = s.err ∨
          (p = .H ∧ opcodeOf w0 = 0x7#4 ∧ w0.extractLsb' 0 8 = 0x03#8 ∧ w1.getLsbD 0 = true ∧ t.err = false))

/-- The meaning of a command on a port that does not accept it, for every command and every such port: it raises
WRONG_PORT and has no other effect. That a meaning makes this check is the model's choice (log 7): it repeats the
decoder's, which answers such words before any meaning runs, and ERR_WORD is the header the encoder gives. R108 and
R310 name WRONG_PORT for such words; TurnRaisesTheFirstErrorOfTheTable says it of them. -/
def Obligations.CommandsOnTheWrongPortAreDropped : Prop :=
  ∀ (i : Instr) (s : State), i.wellFormed = false →
    ∃ t, exec i s = .next t ∧ t.pos i.port = s.pos i.port + cmdLen i.header ∧
      (∀ q, q ≠ i.port → t.pos q = s.pos q) ∧
      t = { s with
        posW := t.posW
        posR := t.posR
        posH := t.posH
        err := true
        errCause := if s.err then s.errCause else 2#4
        errPort := if s.err then s.errPort else portNumber i.port
        errWord := if s.err then s.errWord else i.header }

/-- R22, R24, R357: a word a port accepts goes to the end of that port's command stream, and nothing else changes; a
port whose next word is a CSR_WRITE header without its data word, or which has no word at all, executes no command in
its turn. The list of inputs is the model's choice (log 2), and so is that the turn of a waiting port is a step that
uses its input up and leaves all else (log 3). -/
def Obligations.PortsQueueWordsAndWaitForCompleteCommands : Prop :=
  (∀ (s : State) (p : Port) (w : Word) (rest : List Input), s.inputs = .accept p w :: rest →
    ∃ t, step s = .next t ∧ t.stream p = s.stream p ++ [w] ∧ (∀ q, q ≠ p → t.stream q = s.stream q) ∧
      t = { s with inputs := rest, cmdW := t.cmdW, cmdR := t.cmdR, cmdH := t.cmdH }) ∧
  (∀ (s : State) (p : Port) (rest : List Input), s.inputs = .execute p :: rest →
    ((s.stream p).drop (s.pos p) = [] ∨
      ∃ w0, (s.stream p).drop (s.pos p) = [w0] ∧ (w0.extractLsb' 28 4).toNat = 7) →
    step s = .next { s with inputs := rest })

/-- R69, R340: hardware reset, from any state and with a command half received, sets every state element to the value
of the table of R69, and the ring holds nothing. That reset is one step, which leaves the inputs still to come, is the
model's choice (log 6), and so are parameters that are held in the state and stay (log 1). -/
def Obligations.HardwareResetSetsEveryElement : Prop :=
  ∀ (s : State) (rest : List Input), s.inputs = .hardReset :: rest →
    ∃ t, step s = .next t ∧ t.params = s.params ∧ t.inputs = rest ∧
      t.wptr = 0 ∧ t.level = 0 ∧ t.fill = 0 ∧ t.rptr = 0 ∧ t.underrunCnt = 0#32 ∧ t.dropCnt = 0#32 ∧
      (∀ c, c = t.chainP ∨ c = t.chainA → c.dcX = 0#16 ∧ c.dcY = 0#40 ∧
        c.xh = List.replicate s.params.lpfOrder 0#16 ∧ c.yh = List.replicate s.params.lpfOrder 0#16) ∧
      t.csrValue .ctrl = 0x00000003#32 ∧ t.csrValue .status = 0x00000000#32 ∧ t.csrValue .errInfo = 0#32 ∧
      t.csrValue .errWord = 0#32 ∧ t.csrValue .dcR = 0x0000FEB8#32 ∧ t.csrValue .splitThr = 0x000003E8#32 ∧
      t.csrValue (.lpfB 0) = 0x10000000#32 ∧
      (∀ k, 1 ≤ k → k ≤ s.params.lpfOrder → t.csrValue (.lpfB k) = 0#32 ∧ t.csrValue (.lpfA k) = 0#32) ∧
      (∀ c ∈ [Csr.statN, .statSumsqLo, .statSumsqHi, .statRms, .statPeak, .statLowSum, .statHighSum, .statLowE,
        .statHighE], t.csrValue c = 0#32) ∧
      (∀ p, t.pos p = 0 ∧ t.stream p = []) ∧ t.rspR = [] ∧ t.rspH = [] ∧
      t.csrValue .id = 0x52424431#32 ∧
      t.csrValue .param = 0#13 ++ BitVec.ofNat 3 s.params.lpfOrder ++ BitVec.ofNat 16 s.params.capacity

/-- R303, R306, R346: no command and no error stops the block. Every step of every state answers a next state, and the
parameters never change. That a step with no input left, and the turn of a waiting port, answers a next state too is
the model's choice (log 3), and so are parameters that are held in the state (log 1). -/
def Obligations.NoStepStopsTheBlock : Prop :=
  ∀ s : State, ∃ t, step s = .next t ∧ t.params = s.params

/-- R88: when the outside world is weakly fair and never resets the block, a port that holds a complete command
executes it. That the host drains the response streams (R356) is assumed with it: the model's are unbounded (log 9). -/
def Obligations.FairPortsExecuteTheirCommands : Prop :=
  ∀ (w : Schedule) (s : State) (p : Port), WeaklyFair w s → (∀ k, w k ≠ .hardReset) →
    (s.pending p).isSome = true → ∃ k t, follow w k s = .next t ∧ s.pos p < t.pos p

/-! ## The invariant -/

/-- Every step from every state that meets the invariant of the block leads to one that meets it. -/
def Obligations.EveryStepKeepsTheInvariant : Prop :=
  ∀ s t : State, s.Inv → step s = .next t → t.Inv

/-- R69, R5: the reset state meets the invariant, at every legal value of the parameters and whatever comes after;
and so does the state the host starts from. -/
def Obligations.ResetMeetsTheInvariant : Prop :=
  (∀ (ps : Params) (inputs : List Input), ps.Legal → (State.resetWith ps inputs).Inv) ∧ State.reset.Inv

/-- R35: the ring invariant holds after reset, every command preserves it, and while FILL < C the samples held are
in slots 0 to FILL-1 and WPTR is FILL. -/
def Obligations.RingInvariantIsPreserved : Prop :=
  (∀ (ps : Params) (inputs : List Input), ps.Legal → (State.resetWith ps inputs).RingInv) ∧
  (∀ (i : Instr) (s t : State), s.RingInv → exec i s = .next t → t.RingInv) ∧
  (∀ s : State, s.RingInv → s.level ≤ s.fill ∧ s.fill ≤ s.params.capacity ∧ s.wptr < s.params.capacity ∧
    (s.fill < s.params.capacity → s.wptr = s.fill ∧ s.held = (List.range s.fill).map s.memRead))

/-- R83: what the ring slots held before the last clear is never observable. Two states that agree in everything but
slots not written since the clear stay so under every command: the same words are emitted, and every register
ends the same. -/
def Obligations.UnwrittenSlotsAreNeverObservable : Prop :=
  ∀ (i : Instr) (s : State) (ring' : List (Nat × Sample)), s.RingInv →
    (∀ j, j < s.fill → Memory.get ring' j = Memory.get s.ring j) →
    ∃ t t', exec i s = .next t ∧ exec i { s with ring := ring' } = .next t' ∧
      t' = { t with ring := t'.ring } ∧ ∀ j, j < t.fill → Memory.get t'.ring j = Memory.get t.ring j

/-! ## PUSH -/

/-- R140: PUSH in every state: the sample goes to slot WPTR and no other slot changes; WPTR moves on; LEVEL and FILL
grow up to C; a push into a full ring is counted. Nothing else changes. -/
def Obligations.PushWritesOneSlot : Prop :=
  ∀ (s : State) (x : Sample), ∃ t, exec (.push .W x) s = .next t ∧
    Memory.get t.ring s.wptr = some x ∧ (∀ j, j ≠ s.wptr → Memory.get t.ring j = Memory.get s.ring j) ∧
    t.wptr = (s.wptr + 1) % s.params.capacity ∧
    (s.level = s.params.capacity → t.level = s.params.capacity ∧ t.dropCnt = s.dropCnt + 1#32) ∧
    (s.level ≠ s.params.capacity → t.level = s.level + 1 ∧ t.dropCnt = s.dropCnt) ∧
    t.fill = min (s.fill + 1) s.params.capacity ∧ t.posW = s.posW + 1 ∧
    t = { s with
      ring := t.ring
      wptr := t.wptr
      level := t.level
      fill := t.fill
      dropCnt := t.dropCnt
      posW := t.posW }

/-- R33, R142, R161: PUSH in terms of what the ring holds: the samples held are the newest C of the old ones and the
new one; the unpopped ones gain the new one and, when all C slots were unpopped, lose the oldest. -/
def Obligations.PushDropsOnlyTheOldest : Prop :=
  ∀ (s : State) (x : Sample), s.RingInv → ∃ t, exec (.push .W x) s = .next t ∧
    t.held = lastN s.params.capacity (s.held ++ [x]) ∧
    (s.level < s.params.capacity → t.unpopped = s.unpopped ++ [x]) ∧
    (s.level = s.params.capacity → t.unpopped = s.unpopped.tail ++ [x] ∧ t.dropCnt = s.dropCnt + 1#32)

/-- R144: WPTR changes only by PUSH, by one modulo C, and by the ring clear, which sets it to 0; so after any commands
without a ring clear from an empty ring it is the number of pushes modulo C. And FILL is that number, up to C (R33). -/
def Obligations.CursorsCountThePushes : Prop :=
  (∀ (i : Instr) (s t : State), exec i s = .next t →
    t.wptr = s.wptr ∨ (∃ x, i = .push .W x ∧ t.wptr = (s.wptr + 1) % s.params.capacity) ∨
      ∃ m, i = .reset .H m ∧ m.getLsbD 0 = true ∧ t.wptr = 0) ∧
  (∀ (ps : Params) (inputs : List Input), (State.resetWith ps inputs).wptr = 0) ∧
  ∀ (cmds : List Instr) (s t : State), s.RingInv → s.fill = 0 → (∀ i ∈ cmds, i.wellFormed = true) →
    (∀ p m, Instr.reset p m ∈ cmds → m.getLsbD 0 = false) → execAll cmds s = .next t →
    t.wptr = (pushedBy cmds).length % s.params.capacity ∧ t.fill = min (pushedBy cmds).length s.params.capacity

/-! ## POP_BLOCK -/

/-- R145, R147: POP_BLOCK in every state of the ring: the LEVEL oldest unpopped samples up to n, then zeros, pass
through FC_P when F is set, and are emitted in order; LEVEL drops by the samples taken; nothing else changes but the
underrun count, FC_P, SAT_P and the position. And R203: with F set every value takes one ChainStep, index 0 first,
each from the state the step before left. -/
def Obligations.PopBlockEmitsTheOldestSamples : Prop :=
  ∀ (s : State) (f : Bool) (n : BitVec 16), ∃ t, exec (.popBlock .R f n) s = .next t ∧
    let block := s.unpopped.take n.toNat ++ List.replicate (n.toNat - s.level) 0#16
    let out := if f then chainBlock s.filterCfg s.chainP block else { ys := block, sat := false, chain := s.chainP }
    (f = true → StepsThrough s.filterCfg s.chainP block out) ∧
    out.ys.length = n.toNat ∧ t.rspR = s.rspR ++ out.ys.map (fun v => v.signExtend 32) ∧
    t.chainP = out.chain ∧ t.satP = (s.satP || out.sat) ∧
    t.level = s.level - min n.toNat s.level ∧
    t.underrunCnt = (if s.level < n.toNat then s.underrunCnt + 1#32 else s.underrunCnt) ∧
    t.posR = s.posR + 1 ∧
    t = { s with
      rspR := t.rspR
      chainP := t.chainP
      satP := t.satP
      level := t.level
      underrunCnt := t.underrunCnt
      posR := t.posR }

/-- R146: what POP_BLOCK returns, the oldest unpopped samples in push order, is removed from the unpopped samples, and
nothing else is; FILL, WPTR, the slots and so the samples held stay. -/
def Obligations.PopBlockRemovesWhatItReturns : Prop :=
  ∀ (s t : State) (f : Bool) (n : BitVec 16), s.RingInv → exec (.popBlock .R f n) s = .next t →
    (f = false → t.rspR = s.rspR ++ (s.unpopped.take n.toNat ++ List.replicate (n.toNat - s.level) 0#16).map
      (fun v => v.signExtend 32)) ∧
    t.unpopped = s.unpopped.drop n.toNat ∧ t.level = s.level - (s.unpopped.take n.toNat).length ∧
    t.fill = s.fill ∧ t.wptr = s.wptr ∧ t.ring = s.ring ∧ t.held = s.held

/-- R148: POP_BLOCK with n = 0, filtered or not, changes nothing but its position. -/
def Obligations.PopOfNothingChangesNothing : Prop :=
  ∀ (s : State) (f : Bool), exec (.popBlock .R f 0#16) s = .next { s with posR := s.posR + 1 }

/-- R149: POP_BLOCK with n > C returns the unpopped samples, then n - LEVEL zeros, and counts one underrun. -/
def Obligations.PopBeyondCapacityUnderruns : Prop :=
  ∀ (s : State) (n : BitVec 16), s.RingInv → s.params.capacity < n.toNat →
    ∃ t, exec (.popBlock .R false n) s = .next t ∧
      t.rspR = s.rspR ++ (s.unpopped ++ List.replicate (n.toNat - s.level) 0#16).map (fun v => v.signExtend 32) ∧
      t.underrunCnt = s.underrunCnt + 1#32 ∧ t.level = 0

/-- R150: an underrun returns what is there, then silence, counts once however many samples are missing, and is no
error: it sets no STATUS bit and the command completes. With F set the same values go through FC_P. -/
def Obligations.UnderrunCountsOnceAndIsNoError : Prop :=
  ∀ (s : State) (n : BitVec 16), s.level < n.toNat →
    (∃ t, exec (.popBlock .R false n) s = .next t ∧
      t.rspR = s.rspR ++ (s.unpopped ++ List.replicate (n.toNat - s.level) 0#16).map (fun v => v.signExtend 32) ∧
      t.underrunCnt = s.underrunCnt + 1#32 ∧ t.csrValue .status = s.csrValue .status ∧
      t.errCause = s.errCause ∧ t.errPort = s.errPort ∧ t.errWord = s.errWord) ∧
    (∃ t, exec (.popBlock .R true n) s = .next t ∧
      t.rspR = s.rspR ++ ((chainBlock s.filterCfg s.chainP
        (s.unpopped ++ List.replicate (n.toNat - s.level) 0#16)).ys.map (fun v => v.signExtend 32)) ∧
      t.underrunCnt = s.underrunCnt + 1#32 ∧ t.err = s.err)

/-- R90: over any run of commands from a ring with nothing unpopped, the samples the POP_BLOCKs take out, without
zero-fill, are a subsequence of the samples pushed, in push order: first in, first out, each at most once. -/
def Obligations.PopsAreASubsequenceOfPushes : Prop :=
  ∀ (cmds : List Instr) (s : State), s.RingInv → s.level = 0 → (∀ i ∈ cmds, i.wellFormed = true) →
    (poppedBy cmds s).Sublist (pushedBy cmds)

/-- R90, R353: over any run of commands without RESET from a ring with nothing unpopped, every pushed sample has been
popped, or was dropped and counted in DROP_CNT, or is still unpopped. -/
def Obligations.EverySampleIsPoppedDroppedOrUnpopped : Prop :=
  ∀ (cmds : List Instr) (s : State), s.RingInv → s.level = 0 → (∀ i ∈ cmds, i.wellFormed = true) →
    (∀ p m, Instr.reset p m ∉ cmds) → ∃ t dropped, execAll cmds s = .next t ∧
      (pushedBy cmds).length = (poppedBy cmds s).length + dropped + t.level ∧
      t.dropCnt = s.dropCnt + BitVec.ofNat 32 dropped

/-- R161: after any commands without a ring clear from an empty ring, the unpopped samples are the newest LEVEL
pushes, in push order, and LEVEL is at most FILL. -/
def Obligations.UnpoppedAreTheNewestPushes : Prop :=
  ∀ (cmds : List Instr) (s t : State), s.RingInv → s.fill = 0 → (∀ i ∈ cmds, i.wellFormed = true) →
    (∀ p m, Instr.reset p m ∈ cmds → m.getLsbD 0 = false) → execAll cmds s = .next t →
    t.level ≤ (pushedBy cmds).length ∧ t.unpopped = lastN t.level (pushedBy cmds) ∧ t.level ≤ t.fill

/-! ## SNAPSHOT -/

/-- R155, R157: SNAPSHOT of n ≤ C: n - FILL zeros, then the newest samples held, oldest first, are emitted; nothing
else changes but the position. -/
def Obligations.SnapshotEmitsTheNewestSamples : Prop :=
  ∀ (s : State) (n : BitVec 16), n.toNat ≤ s.params.capacity →
    exec (.snapshot .H n) s = .next { s with
      rspH := s.rspH ++
        (List.replicate (n.toNat - s.fill) 0#16 ++ lastN n.toNat s.held).map (fun v => v.signExtend 32)
      posH := s.posH + 1 }

/-- R158: SNAPSHOT of n > C raises BAD_LEN, emits nothing, and changes nothing but the error record and its
position. -/
def Obligations.SnapshotBeyondCapacityIsBadLen : Prop :=
  ∀ (s : State) (n : BitVec 16), s.params.capacity < n.toNat →
    exec (.snapshot .H n) s = .next { s with
      err := true
      errCause := if s.err then s.errCause else 4#4
      errPort := if s.err then s.errPort else 2#2
      errWord := if s.err then s.errWord else 0x3#4 ++ 0#12 ++ n
      posH := s.posH + 1 }

/-- R159: SNAPSHOT returns the newest pushes whether or not POP_BLOCK has returned them: a POP_BLOCK before it
changes none of its words. -/
def Obligations.SnapshotSeesPoppedSamples : Prop :=
  ∀ (s t u v : State) (f : Bool) (k n : BitVec 16), exec (.popBlock .R f k) s = .next t →
    exec (.snapshot .H n) t = .next u → exec (.snapshot .H n) s = .next v → u.rspH = v.rspH

/-- R160: after more than C pushes, in any interleaving with POP_BLOCKs, SNAPSHOT of C returns exactly the last C
pushed samples in push order. -/
def Obligations.SnapshotAfterOverflowIsTheLastPushes : Prop :=
  ∀ (cmds : List Instr) (s : State), s.params.Legal → s.RingInv → s.fill = 0 →
    (∀ i ∈ cmds, (∃ x, i = .push .W x) ∨ (∃ f n, i = .popBlock .R f n)) →
    s.params.capacity < (pushedBy cmds).length →
    ∃ t u, execAll cmds s = .next t ∧ exec (.snapshot .H (BitVec.ofNat 16 s.params.capacity)) t = .next u ∧
      u.rspH = t.rspH ++ (lastN s.params.capacity (pushedBy cmds)).map (fun v => v.signExtend 32)

/-! ## Filters -/

/-- R183: the DC blocker follows y[n] = x[n] - x[n-1] + R*y[n-1] up to the truncation of the feedback product, whose
error is below one unit of 2^-16 and has the sign of that product; the emitted sample is the stored output rounded to
nearest, ties upward, and saturated. In units of 2^-32 of a sample. -/
def Obligations.DcBlockerFollowsItsEquation : Prop :=
  ∀ (N : Nat) (c : Chain) (r : BitVec 16) (x : Sample), Chain.Inv N c →
    let o := dcStep r c x
    let e := (x.toInt - c.dcX.toInt) * 2 ^ 32 + (r.toNat : Int) * c.dcY.toInt - 2 ^ 16 * o.chain.dcY.toInt
    |e| < 2 ^ 16 ∧ (e ≠ 0 → 0 < e * ((r.toNat : Int) * c.dcY.toInt)) ∧
    (∃ yr : Int, 2 ^ 16 * yr ≤ o.chain.dcY.toInt + 2 ^ 15 ∧ o.chain.dcY.toInt + 2 ^ 15 < 2 ^ 16 * (yr + 1) ∧
      o.y.toInt = min (max yr (-32768)) 32767 ∧ (o.sat = true ↔ yr < -32768 ∨ 32767 < yr)) ∧
    o.chain = { c with dcX := x, dcY := o.chain.dcY }

/-- R186: from cleared state, for any inputs and any sequence of R values, |DC_Y| stays below 2^32 + 2^16 and the
40-bit wrap is never active. -/
def Obligations.DcOutputNeverWraps : Prop :=
  ∀ (N : Nat) (run : List (BitVec 16 × Sample)) (r : BitVec 16) (x : Sample),
    let c := run.foldl (fun c e => (dcStep e.1 c e.2).chain) (Chain.cleared N)
    |c.dcY.toInt| < 2 ^ 32 + 2 ^ 16 ∧ |dcExact r c x| < 2 ^ 32 + 2 ^ 16 ∧
      (dcStep r c x).chain.dcY.toInt = dcExact r c x

/-- R185: on a constant input the stored output of the DC blocker strictly shrinks until it is 0, which takes finitely
many samples; from then on it stays 0 and the emitted sample is 0. The emitted sample is 0 as soon as
-32768 ≤ DC_Y < 32768. -/
def Obligations.ConstantInputConvergesToZero : Prop :=
  ∀ (N : Nat) (c : Chain) (r : BitVec 16) (x : Sample), Chain.Inv N c →
    let after : Nat → StageOut := fun k =>
      (List.range k).foldl (fun o _ => dcStep r o.chain x) (dcStep r c x)
    (∀ k, (after k).chain.dcY.toInt ≠ 0 →
      |(after (k + 1)).chain.dcY.toInt| < |(after k).chain.dcY.toInt|) ∧
    (∀ k, (after k).chain.dcY.toInt = 0 → (after (k + 1)).chain.dcY.toInt = 0) ∧
    (∀ k, -32768 ≤ (after k).chain.dcY.toInt → (after k).chain.dcY.toInt < 32768 → (after k).y = 0#16) ∧
    ∃ K, ∀ k, K ≤ k → (after k).chain.dcY.toInt = 0 ∧ (after k).y = 0#16

/-- R191, R5: at every order 1 to 4 the low-pass filter is the direct form I sum of its 2N + 1 products, rounded to
nearest with ties upward, and saturated; the histories shift by one, the output history takes the saturated output,
and the DC state stays. The second part writes the nine products of order 4 out. -/
def Obligations.LowPassIsTheDirectFormSum : Prop :=
  let gives : FilterCfg → Chain → Sample → Int → Prop := fun g c x acc =>
    let o := lpfStep g c x
    ∃ yr : Int, 2 ^ 28 * yr ≤ acc + 2 ^ 27 ∧ acc + 2 ^ 27 < 2 ^ 28 * (yr + 1) ∧
      o.y.toInt = min (max yr (-32768)) 32767 ∧ (o.sat = true ↔ yr < -32768 ∨ 32767 < yr) ∧
      o.chain = { c with xh := x :: c.xh.dropLast, yh := o.y :: c.yh.dropLast }
  let products : List Word → List Sample → List Int := List.zipWith fun k v => k.toInt * v.toInt
  (∀ (g : FilterCfg) (c : Chain) (x : Sample) (b0 : Word) (bs : List Word), 1 ≤ g.order → g.order ≤ 4 →
    g.b = b0 :: bs → bs.length = g.order → g.a.length = g.order →
    c.xh.length = g.order → c.yh.length = g.order →
    gives g c x (b0.toInt * x.toInt + (products bs c.xh).sum - (products g.a c.yh).sum)) ∧
  (∀ (g : FilterCfg) (c : Chain) (x x1 x2 x3 x4 y1 y2 y3 y4 : Sample) (b0 b1 b2 b3 b4 a1 a2 a3 a4 : Word),
    g.order = 4 → g.b = [b0, b1, b2, b3, b4] → g.a = [a1, a2, a3, a4] →
    c.xh = [x1, x2, x3, x4] → c.yh = [y1, y2, y3, y4] →
    gives g c x (b0.toInt * x.toInt + b1.toInt * x1.toInt + b2.toInt * x2.toInt + b3.toInt * x3.toInt +
      b4.toInt * x4.toInt - a1.toInt * y1.toInt - a2.toInt * y2.toInt - a3.toInt * y3.toInt - a4.toInt * y4.toInt))

/-- R192: each product of the low-pass filter has magnitude at most 2^46, and its accumulator stays below 2^50, so it
fits 64 bits. -/
def Obligations.LowPassAccumulatorFits : Prop :=
  (∀ (b : Word) (v : Sample), |b.toInt * v.toInt| ≤ 2 ^ 46) ∧
  ∀ (g : FilterCfg) (c : Chain) (x : Sample), g.order ≤ 4 → |lpfAcc g c x| < 2 ^ 50

/-- R193: with the reset coefficients acc is 2^28 times the input, and the low-pass stage outputs its input, never
saturates, and still shifts its history. -/
def Obligations.ResetCoefficientsAreTheIdentity : Prop :=
  ∀ (g : FilterCfg) (c : Chain) (x : Sample), g.b = 0x10000000#32 :: List.replicate g.order 0#32 →
    g.a = List.replicate g.order 0#32 →
    lpfAcc g c x = 2 ^ 28 * x.toInt ∧ lpfStep g c x = {
      y := x
      sat := false
      chain := { c with xh := (x :: c.xh).take g.order, yh := (x :: c.yh).take g.order } }

/-- R200, R201: ChainStep at each of the four settings of CTRL. A stage that is on gives its output and moves its own
state; one that is off passes its input and freezes its state; the DC stage comes first, and the chain saturates when
a stage that is on does. With both off a chain is the identity. Then the same of the block, under the CTRL of its
state: a filtered POP_BLOCK of one sample is one ChainStep of FC_P and sets SAT_P when that saturates, and a filtered
ANALYZE of one is one of FC_A and sets SAT_A. -/
def Obligations.DisabledStagesPassAndFreeze : Prop :=
  (∀ (g : FilterCfg) (c : Chain) (x : Sample),
    let d := dcStep g.rCode c x
    let u : Sample := if g.dcEn then d.y else x
    let l := lpfStep g c u
    let o := chainStep g c x
    (g.dcEn = true → o.chain.dcX = d.chain.dcX ∧ o.chain.dcY = d.chain.dcY) ∧
    (g.dcEn = false → o.chain.dcX = c.dcX ∧ o.chain.dcY = c.dcY) ∧
    (g.lpfEn = true → o.y = l.y ∧ o.chain.xh = l.chain.xh ∧ o.chain.yh = l.chain.yh) ∧
    (g.lpfEn = false → o.y = u ∧ o.chain.xh = c.xh ∧ o.chain.yh = c.yh) ∧
    (o.sat = true ↔ (g.dcEn = true ∧ d.sat = true) ∨ (g.lpfEn = true ∧ l.sat = true)) ∧
    (g.dcEn = false → g.lpfEn = false → o = { y := x, sat := false, chain := c })) ∧
  (∀ s : State, s.filterCfg.dcEn = s.dcEn ∧ s.filterCfg.lpfEn = s.lpfEn ∧ s.filterCfg.rCode = s.dcR ∧
    s.filterCfg.order = s.params.lpfOrder ∧ s.filterCfg.b = s.lpfB ∧ s.filterCfg.a = s.lpfA) ∧
  (∀ (s : State) (x : Sample) (rest : List Sample), s.unpopped = x :: rest →
    ∃ t, exec (.popBlock .R true 1#16) s = .next t ∧
      let o := chainStep s.filterCfg s.chainP x
      t.rspR = s.rspR ++ [o.y.signExtend 32] ∧ t.chainP = o.chain ∧ t.satP = (s.satP || o.sat)) ∧
  (∀ (s : State) (x : Sample), List.replicate (1 - s.fill) 0#16 ++ lastN 1 s.held = [x] → 1 ≤ s.params.capacity →
    ∃ t, exec (.analyze .H true 1#16) s = .next t ∧
      let o := chainStep s.filterCfg s.chainA x
      t.stats = blockStats s.splitThr.toNat 1 [o.y] ∧ t.chainA = o.chain ∧ t.satA = (s.satA || o.sat))

/-- R205: the chains are isolated. What FC_A holds has no influence on a POP_BLOCK and a POP_BLOCK does not change it;
and so with FC_P and ANALYZE. -/
def Obligations.FilterChainsAreIsolated : Prop :=
  ∀ (s : State) (p : Port) (f : Bool) (n : BitVec 16) (other : Chain),
    (∃ t, exec (.popBlock p f n) s = .next t ∧ t.chainA = s.chainA ∧ t.satA = s.satA ∧
      exec (.popBlock p f n) { s with chainA := other } = .next { t with chainA := other }) ∧
    (∃ t, exec (.analyze p f n) s = .next t ∧ t.chainP = s.chainP ∧ t.satP = s.satP ∧
      exec (.analyze p f n) { s with chainP := other } = .next { t with chainP := other })

/-- R39: the filter state changes only by POP_BLOCK with F = 1 (FC_P), by ANALYZE with F = 1 (FC_A) and by RESET with
the mask bit FCP or FCA, and no CSR reads it. -/
def Obligations.FilterStateChangesOnlyWhereSaid : Prop :=
  (∀ (i : Instr) (s t : State), exec i s = .next t →
    (t.chainP = s.chainP ∨ (∃ n, i = .popBlock .R true n) ∨ ∃ m, i = .reset .H m ∧ m.getLsbD 1 = true) ∧
    (t.chainA = s.chainA ∨ (∃ n, i = .analyze .H true n) ∨ ∃ m, i = .reset .H m ∧ m.getLsbD 2 = true)) ∧
  (∀ (s : State) (c : Csr) (cp ca : Chain), ({ s with chainP := cp, chainA := ca } : State).csrValue c = s.csrValue c) ∧
  (∀ (s : State) (rest : List Input), s.inputs = .hardReset :: rest → ∃ t, step s = .next t ∧
    t.chainP = Chain.cleared s.params.lpfOrder ∧ t.chainA = Chain.cleared s.params.lpfOrder)

/-- R202, R44: SAT_P and SAT_A are sticky: of all commands only a CSR_WRITE of 1 to the bit clears it, and only a
filtered POP_BLOCK or ANALYZE in whose chain a result saturated sets it; and saturation is no error: no POP_BLOCK and
no ANALYZE of a legal length changes ERR. -/
def Obligations.SaturationIsStickyAndNoError : Prop :=
  ∀ (i : Instr) (s t : State), exec i s = .next t →
    (s.satP = true → t.satP = false → ∃ d, i = .csrWrite .H 0x03#8 d ∧ d.getLsbD 1 = true) ∧
    (s.satA = true → t.satA = false → ∃ d, i = .csrWrite .H 0x03#8 d ∧ d.getLsbD 2 = true) ∧
    (s.satP = false → t.satP = true → ∃ n, i = .popBlock .R true n ∧
      (chainBlock s.filterCfg s.chainP (s.popValues n.toNat)).sat = true) ∧
    (s.satA = false → t.satA = true → ∃ n, i = .analyze .H true n ∧
      (chainBlock s.filterCfg s.chainA (s.snapshotValues n.toNat)).sat = true) ∧
    (∀ f n, i = .popBlock .R f n → t.err = s.err) ∧
    (∀ f n, i = .analyze .H f n → 1 ≤ n.toNat → n.toNat ≤ s.params.capacity → t.err = s.err)

/-! ## ANALYZE -/

/-- R220, R221: ANALYZE of a legal length computes the statistics of exactly the values SNAPSHOT would emit, through
FC_A when F is set, sets STATS_VALID, and changes nothing else but FC_A, SAT_A and the position. And R203: with F set
every value takes one ChainStep, index 0 first, each from the state the step before left. -/
def Obligations.AnalyzeMeasuresTheSnapshotBlock : Prop :=
  ∀ (s : State) (f : Bool) (n : BitVec 16), 1 ≤ n.toNat → n.toNat ≤ s.params.capacity →
    ∃ t, exec (.analyze .H f n) s = .next t ∧
      let block := List.replicate (n.toNat - s.fill) 0#16 ++ lastN n.toNat s.held
      let out := if f then chainBlock s.filterCfg s.chainA block else { ys := block, sat := false, chain := s.chainA }
      (f = true → StepsThrough s.filterCfg s.chainA block out) ∧
      block.length = n.toNat ∧ out.ys.length = n.toNat ∧ t.stats.n = n ∧
      t.stats = blockStats s.splitThr.toNat n.toNat out.ys ∧ t.statsValid = true ∧ t.chainA = out.chain ∧
      t.satA = (s.satA || out.sat) ∧ t.posH = s.posH + 1 ∧
      t = { s with
        stats := t.stats
        statsValid := t.statsValid
        chainA := t.chainA
        satA := t.satA
        posH := t.posH }

/-- R222: ANALYZE with n = 0 or n > C raises BAD_LEN and changes nothing but the error record and its position. -/
def Obligations.AnalyzeOfABadLengthIsDropped : Prop :=
  ∀ (s : State) (f : Bool) (n : BitVec 16), n.toNat = 0 ∨ s.params.capacity < n.toNat →
    exec (.analyze .H f n) s = .next { s with
      err := true
      errCause := if s.err then s.errCause else 4#4
      errPort := if s.err then s.errPort else 2#2
      errWord := if s.err then s.errWord else (Instr.analyze .H f n).header
      posH := s.posH + 1 }

/-- R223: SUMSQ is the exact sum of the squares of the block, below 2^46. -/
def Obligations.SumOfSquaresIsExact : Prop :=
  ∀ (thr n : Nat) (z : List Sample), z.length = n → n ≤ 65535 →
    ((blockStats thr n z).sumsq.toNat : Int) = (z.map fun v => v.toInt * v.toInt).sum ∧
      (blockStats thr n z).sumsq.toNat < 2 ^ 46

/-- R224: RMS_Q8 is the integer root of SUMSQ * 65536 / n, which is floor(256 * sqrt(SUMSQ / n)) exactly; it is at most
2^23, and a block of -32768 reaches that. -/
def Obligations.RmsIsTheRealRootRoundedDown : Prop :=
  (∀ thr n : Nat, 1 ≤ n → n ≤ 65535 → (blockStats thr n (List.replicate n 0x8000#16)).rms.toNat = 2 ^ 23) ∧
  ∀ (thr n : Nat) (z : List Sample), z.length = n → 1 ≤ n → n ≤ 65535 →
    (blockStats thr n z).rms.toNat = Nat.sqrt ((blockStats thr n z).sumsq.toNat * 65536 / n) ∧
    (((blockStats thr n z).rms.toNat : Nat) : Int) =
        ⌊(256 : ℝ) * Real.sqrt (((blockStats thr n z).sumsq.toNat : ℝ) / (n : ℝ))⌋ ∧
      (blockStats thr n z).rms.toNat ≤ 2 ^ 23

/-- R226: PEAK is the largest magnitude of the block, an integer in 0 .. 32768, exact. -/
def Obligations.PeakIsTheLargestMagnitude : Prop :=
  ∀ (thr n : Nat) (z : List Sample), z ≠ [] →
    (∀ v ∈ z, v.toInt.natAbs ≤ (blockStats thr n z).peak.toNat) ∧
    (∃ v ∈ z, v.toInt.natAbs = (blockStats thr n z).peak.toNat) ∧ (blockStats thr n z).peak.toNat ≤ 32768

/-- R230, R231: LOW_SUM and HIGH_SUM are the exact sums of the absolute first differences inside the block that lie
below the threshold, and at or above it; together they are the sum of all of them. -/
def Obligations.EnergySplitIsExact : Prop :=
  ∀ (thr n : Nat) (z : List Sample), z.length = n → n ≤ 65535 →
    let dlt := (List.range (n - 1)).map fun i => ((z.getD (i + 1) 0#16).toInt - (z.getD i 0#16).toInt).natAbs
    (blockStats thr n z).lowSum.toNat = (dlt.filter fun d => decide (d < thr)).sum ∧
    (blockStats thr n z).highSum.toNat = (dlt.filter fun d => decide (thr ≤ d)).sum ∧
    (blockStats thr n z).lowSum.toNat + (blockStats thr n z).highSum.toNat = dlt.sum

/-- R232: LOW_E_Q8 and HIGH_E_Q8 are LOW_SUM and HIGH_SUM, times 256, divided by the block length and rounded down;
both are below 65535 * 256. -/
def Obligations.EnergiesAreNormalisedByBlockLength : Prop :=
  ∀ (thr n : Nat) (z : List Sample), z.length = n → 1 ≤ n → n ≤ 65535 →
    (blockStats thr n z).lowE.toNat = (blockStats thr n z).lowSum.toNat * 256 / n ∧
    (blockStats thr n z).highE.toNat = (blockStats thr n z).highSum.toNat * 256 / n ∧
    (blockStats thr n z).lowE.toNat < 65535 * 256 ∧ (blockStats thr n z).highE.toNat < 65535 * 256

/-- R234: a completed ANALYZE overwrites all nine statistics registers and sets STATS_VALID: what they held before has
no influence. POP_BLOCK, SNAPSHOT and PUSH never write them. -/
def Obligations.StatisticsAreRecomputedFresh : Prop :=
  (∀ (s : State) (f : Bool) (n : BitVec 16) (old : Stats) (valid : Bool), 1 ≤ n.toNat → n.toNat ≤ s.params.capacity →
    ∃ t, exec (.analyze .H f n) s = .next t ∧ t.statsValid = true ∧
      exec (.analyze .H f n) { s with stats := old, statsValid := valid } = .next t) ∧
  (∀ (i : Instr) (s t : State), exec i s = .next t → t.stats = s.stats ∧ t.statsValid = s.statsValid ∨
    (∃ f n, i = .analyze .H f n) ∨ ∃ m, i = .reset .H m ∧ m.getLsbD 4 = true)

/-! ## Control commands -/

/-- R260, R107: NOP with any hint on any port changes nothing but that port's position. -/
def Obligations.NopOnlyAdvances : Prop :=
  ∀ (s : State) (p : Port) (hint : BitVec 28), ∃ t, exec (.nop p hint) s = .next t ∧ t.pos p = s.pos p + 1 ∧
    (∀ q, q ≠ p → t.pos q = s.pos q) ∧ t = { s with posW := t.posW, posR := t.posR, posH := t.posH }

/-- R262: RESET clears exactly the parts its mask names, and the position moves; nothing else changes. -/
def Obligations.ResetClearsTheNamedParts : Prop :=
  ∀ (s : State) (m : BitVec 5), ∃ t, exec (.reset .H m) s = .next t ∧ t.posH = s.posH + 1 ∧
    (if m.getLsbD 0 then t.wptr = 0 ∧ t.level = 0 ∧ t.fill = 0 ∧ t.held = [] ∧ t.unpopped = []
      else t.wptr = s.wptr ∧ t.level = s.level ∧ t.fill = s.fill) ∧
    t.chainP = (if m.getLsbD 1 then Chain.cleared s.params.lpfOrder else s.chainP) ∧
    t.chainA = (if m.getLsbD 2 then Chain.cleared s.params.lpfOrder else s.chainA) ∧
    (if m.getLsbD 3 then t.underrunCnt = 0#32 ∧ t.dropCnt = 0#32
      else t.underrunCnt = s.underrunCnt ∧ t.dropCnt = s.dropCnt) ∧
    (if m.getLsbD 4 then t.stats = Stats.cleared ∧ t.statsValid = false
      else t.stats = s.stats ∧ t.statsValid = s.statsValid) ∧
    t = { s with
      wptr := t.wptr
      level := t.level
      fill := t.fill
      chainP := t.chainP
      chainA := t.chainA
      underrunCnt := t.underrunCnt
      dropCnt := t.dropCnt
      stats := t.stats
      statsValid := t.statsValid
      posH := t.posH }

/-- R263: RESET leaves the configuration registers and the error and saturation records; of all commands only
CSR_WRITE changes the configuration; writing STATUS clears the error record's ERR. -/
def Obligations.ConfigurationChangesOnlyByCsrWrite : Prop :=
  (∀ (s t : State) (m : BitVec 5), exec (.reset .H m) s = .next t →
    t.dcEn = s.dcEn ∧ t.lpfEn = s.lpfEn ∧ t.dcR = s.dcR ∧ t.splitThr = s.splitThr ∧ t.lpfB = s.lpfB ∧
      t.lpfA = s.lpfA ∧ t.err = s.err ∧ t.satP = s.satP ∧ t.satA = s.satA ∧ t.errCause = s.errCause ∧
      t.errPort = s.errPort ∧ t.errWord = s.errWord) ∧
  (∀ (i : Instr) (s t : State), exec i s = .next t →
    (t.dcEn = s.dcEn ∧ t.lpfEn = s.lpfEn ∧ t.dcR = s.dcR ∧ t.splitThr = s.splitThr ∧ t.lpfB = s.lpfB ∧
      t.lpfA = s.lpfA) ∨ ∃ a d, i = .csrWrite .H a d) ∧
  (∀ (s t : State), exec (.csrWrite .H 0x03#8 0x7#32) s = .next t → t.err = false ∧ t.satP = false ∧ t.satA = false)

/-- R41 to R64, R270: CSR_READ of every mapped address emits the register's value with its reserved bits 0, and
changes nothing but the response stream and the position. -/
def Obligations.CsrReadEmitsTheRegister : Prop :=
  ∀ (s : State), s.params.Legal →
    let reads : Nat → Word → Prop := fun a v =>
      exec (.csrRead .H (BitVec.ofNat 8 a)) s = .next { s with rspH := s.rspH ++ [v], posH := s.posH + 1 }
    reads 0x00 0x52424431#32 ∧
    reads 0x01 (BitVec.ofNat 32 (s.params.capacity + 65536 * s.params.lpfOrder)) ∧
    reads 0x02 (BitVec.ofNat 32 (s.dcEn.toNat + 2 * s.lpfEn.toNat)) ∧
    reads 0x03 (BitVec.ofNat 32 (s.err.toNat + 2 * s.satP.toNat + 4 * s.satA.toNat + 8 * s.statsValid.toNat)) ∧
    reads 0x04 (BitVec.ofNat 32 (s.errCause.toNat + 16 * s.errPort.toNat)) ∧ reads 0x05 s.errWord ∧
    (s.level ≤ s.params.capacity → reads 0x06 (BitVec.ofNat 32 s.level)) ∧
    (s.wptr < s.params.capacity → reads 0x07 (BitVec.ofNat 32 s.wptr)) ∧
    reads 0x08 (BitVec.ofNat 32 (((s.wptr : Int) - s.level) % s.params.capacity).toNat) ∧
    (s.fill ≤ s.params.capacity → reads 0x09 (BitVec.ofNat 32 s.fill)) ∧
    reads 0x0A s.underrunCnt ∧ reads 0x0B s.dropCnt ∧
    reads 0x0C (BitVec.ofNat 32 s.dcR.toNat) ∧ reads 0x0D (BitVec.ofNat 32 s.splitThr.toNat) ∧
    (s.CoefInv → ∀ k, k ≤ s.params.lpfOrder → ∃ w, s.lpfB[k]? = some w ∧ reads (0x10 + k) w) ∧
    (s.CoefInv → ∀ k, 1 ≤ k → k ≤ s.params.lpfOrder → ∃ w, s.lpfA[k - 1]? = some w ∧ reads (0x20 + k) w) ∧
    reads 0x30 (BitVec.ofNat 32 s.stats.n.toNat) ∧
    reads 0x31 (BitVec.ofNat 32 (s.stats.sumsq.toNat % 2 ^ 32)) ∧
    reads 0x32 (BitVec.ofNat 32 (s.stats.sumsq.toNat / 2 ^ 32)) ∧
    reads 0x33 (BitVec.ofNat 32 s.stats.rms.toNat) ∧ reads 0x34 (BitVec.ofNat 32 s.stats.peak.toNat) ∧
    reads 0x35 s.stats.lowSum ∧ reads 0x36 s.stats.highSum ∧
    reads 0x37 (BitVec.ofNat 32 s.stats.lowE.toNat) ∧ reads 0x38 (BitVec.ofNat 32 s.stats.highE.toNat)

/-- R65: exactly the listed addresses are mapped; a CSR_READ of any other emits 0 and raises BAD_CSR_ADDR, a CSR_WRITE
of any other raises BAD_CSR_ADDR; and a mapped read raises nothing. -/
def Obligations.UnmappedAddressesRaiseBadCsrAddr : Prop :=
  ∀ (s : State) (a : BitVec 8) (d : Word),
    (mappedAddr s.params.lpfOrder a.toNat → ∃ t w, exec (.csrRead .H a) s = .next t ∧
      t = { s with rspH := s.rspH ++ [w], posH := s.posH + 1 }) ∧
    (¬mappedAddr s.params.lpfOrder a.toNat →
      exec (.csrRead .H a) s = .next { s with
        rspH := s.rspH ++ [0#32]
        err := true
        errCause := if s.err then s.errCause else 5#4
        errPort := if s.err then s.errPort else 2#2
        errWord := if s.err then s.errWord else 0x6#4 ++ 0#20 ++ a
        posH := s.posH + 1 } ∧
      exec (.csrWrite .H a d) s = .next { s with
        err := true
        errCause := if s.err then s.errCause else 5#4
        errPort := if s.err then s.errPort else 2#2
        errWord := if s.err then s.errWord else 0x7#4 ++ 0#20 ++ a
        posH := s.posH + 2 })

/-- R272: on port H every header with OP 0x6 emits exactly one response word, whatever its outcome, and 0 when it
raises an error; on ports W and R it raises WRONG_PORT and emits nothing. -/
def Obligations.EveryCsrReadHeaderEmitsOneWord : Prop :=
  ∀ (s : State) (w0 w1 : Word), (w0.extractLsb' 28 4).toNat = 6 →
    (s.pending .H = some (w0, w1) → ∃ t w, State.turn .H s = .next t ∧ t.rspH = s.rspH ++ [w] ∧ t.rspR = s.rspR ∧
      (raisedCode s.params.capacity s.params.lpfOrder .H w0 ≠ none → w = 0#32) ∧
      (∀ c, raisedCode s.params.capacity s.params.lpfOrder .H w0 = none →
        csrOf s.params.lpfOrder (w0.extractLsb' 0 8) = some c → w = s.csrValue c)) ∧
    (∀ p, p ≠ .H → s.pending p = some (w0, w1) → ∃ t, State.turn p s = .next t ∧ t.rspH = s.rspH ∧
      t.rspR = s.rspR ∧ t.err = true ∧ (s.err = false → t.errCause = 2#4))

/-- R275: CSR_WRITE of each writable register writes that register, by its rule, and nothing else but the position. -/
def Obligations.CsrWriteSetsTheRegister : Prop :=
  ∀ (s : State) (d : Word), s.params.Legal → s.CoefInv →
    exec (.csrWrite .H 0x02#8 d) s = .next { s with
      dcEn := d.getLsbD 0, lpfEn := d.getLsbD 1, posH := s.posH + 2 } ∧
    exec (.csrWrite .H 0x03#8 d) s = .next { s with
      err := if d.getLsbD 0 then false else s.err
      satP := if d.getLsbD 1 then false else s.satP
      satA := if d.getLsbD 2 then false else s.satA
      posH := s.posH + 2 } ∧
    exec (.csrWrite .H 0x0C#8 d) s = .next { s with dcR := d.extractLsb' 0 16, posH := s.posH + 2 } ∧
    exec (.csrWrite .H 0x0D#8 d) s = .next { s with splitThr := d.extractLsb' 0 16, posH := s.posH + 2 } ∧
    (∀ k, k ≤ s.params.lpfOrder → ∃ t, exec (.csrWrite .H (BitVec.ofNat 8 (0x10 + k)) d) s = .next t ∧
      t = { s with lpfB := t.lpfB, posH := s.posH + 2 } ∧ t.lpfB[k]? = some d ∧
      ∀ j, j ≠ k → t.lpfB[j]? = s.lpfB[j]?) ∧
    (∀ k, 1 ≤ k → k ≤ s.params.lpfOrder → ∃ t, exec (.csrWrite .H (BitVec.ofNat 8 (0x20 + k)) d) s = .next t ∧
      t = { s with lpfA := t.lpfA, posH := s.posH + 2 } ∧ t.lpfA[k - 1]? = some d ∧
      ∀ j, j ≠ k - 1 → t.lpfA[j]? = s.lpfA[j]?)

/-- R275, R40: CSR_WRITE of a read-only register raises CSR_READ_ONLY and changes nothing but the error record and its
position. -/
def Obligations.CsrWriteOfAReadOnlyRegisterIsDropped : Prop :=
  ∀ (s : State) (a : BitVec 8) (d : Word), readOnlyAddr a.toNat →
    exec (.csrWrite .H a d) s = .next { s with
      err := true
      errCause := if s.err then s.errCause else 6#4
      errPort := if s.err then s.errPort else 2#2
      errWord := if s.err then s.errWord else 0x7#4 ++ 0#20 ++ a
      posH := s.posH + 2 }

/-- R66: reserved bits read as 0; a write ignores them and raises no error; a writable field holds exactly the bits
written. -/
def Obligations.ReservedBitsReadZeroAndIgnoreWrites : Prop :=
  (∀ s : State, ∀ e ∈ [(Csr.param, 0xFFF80000#32), (.ctrl, 0xFFFFFFFC#32), (.status, 0xFFFFFFF0#32),
      (.errInfo, 0xFFFFFFC0#32), (.level, 0xFFFE0000#32), (.wptr, 0xFFFF0000#32), (.rptr, 0xFFFF0000#32),
      (.fill, 0xFFFE0000#32), (.dcR, 0xFFFF0000#32), (.splitThr, 0xFFFF0000#32), (.statN, 0xFFFF0000#32),
      (.statSumsqHi, 0xFFFF0000#32), (.statRms, 0xFF000000#32), (.statPeak, 0xFFFE0000#32),
      (.statLowE, 0xFF000000#32), (.statHighE, 0xFF000000#32)], s.csrValue e.1 &&& e.2 = 0#32) ∧
  (∀ (s : State) (d : Word), s.params.Legal → s.CoefInv →
    let wrote : Nat → Csr → Word → Prop := fun a c v =>
      ∃ t, exec (.csrWrite .H (BitVec.ofNat 8 a) d) s = .next t ∧ t.csrValue c = v ∧ t.errCause = s.errCause ∧
        t.errPort = s.errPort ∧ t.errWord = s.errWord ∧ (a ≠ 0x03 → t.err = s.err)
    wrote 0x02 .ctrl (d &&& 0x3#32) ∧ wrote 0x03 .status (s.csrValue .status &&& ~~~(d &&& 0x7#32)) ∧
    wrote 0x0C .dcR (d &&& 0xFFFF#32) ∧ wrote 0x0D .splitThr (d &&& 0xFFFF#32) ∧
    (∀ k, k ≤ s.params.lpfOrder → wrote (0x10 + k) (.lpfB k) d) ∧
    (∀ k, 1 ≤ k → k ≤ s.params.lpfOrder → wrote (0x20 + k) (.lpfA k) d))

/-- R277: a CSR_WRITE of STATUS with bit 0 set clears ERR and re-arms the capture: ERR_INFO and ERR_WORD keep their
values, and the next command error, whatever it is, is captured. -/
def Obligations.ClearingErrRearmsTheCapture : Prop :=
  ∀ (s : State) (d : Word), d.getLsbD 0 = true → ∃ t, exec (.csrWrite .H 0x03#8 d) s = .next t ∧ t.err = false ∧
    t.errCause = s.errCause ∧ t.errPort = s.errPort ∧ t.errWord = s.errWord ∧
    ∀ (p : Port) (w0 w1 : Word) (u : State) (code : BitVec 4), t.pending p = some (w0, w1) →
      raisedCode t.params.capacity t.params.lpfOrder p w0 = some code → State.turn p t = .next u →
      u.err = true ∧ u.errCause = code ∧ u.errPort = portNumber p ∧ u.errWord = w0

/-- R36, R37: after reset both counters are 0; UNDERRUN_CNT grows by one, modulo 2^32, with each POP_BLOCK that finds
fewer samples than it asks for, DROP_CNT with each PUSH that overwrites an unpopped sample; nothing else changes them
but RESET with the mask bit CNT. -/
def Obligations.CountersCountOnlyTheirEvents : Prop :=
  (∀ (ps : Params) (inputs : List Input),
    (State.resetWith ps inputs).underrunCnt = 0#32 ∧ (State.resetWith ps inputs).dropCnt = 0#32) ∧
  (∀ (s t : State) (f : Bool) (n : BitVec 16), exec (.popBlock .R f n) s = .next t →
    t.underrunCnt.toNat = (s.underrunCnt.toNat + if s.level < n.toNat then 1 else 0) % 2 ^ 32) ∧
  (∀ (s t : State) (x : Sample), exec (.push .W x) s = .next t →
    t.dropCnt.toNat = (s.dropCnt.toNat + if s.level = s.params.capacity then 1 else 0) % 2 ^ 32) ∧
  (∀ (i : Instr) (s t : State), exec i s = .next t →
    (t.underrunCnt = s.underrunCnt ∨ (∃ f n, i = .popBlock .R f n) ∨ ∃ m, i = .reset .H m ∧ m.getLsbD 3 = true) ∧
    (t.dropCnt = s.dropCnt ∨ (∃ x, i = .push .W x) ∨ ∃ m, i = .reset .H m ∧ m.getLsbD 3 = true))
end

