-- ==== Sys2Proof/Laws/Arith.lean ====
section
/-! SUPPORT. What the integer functions of R10 compute. -/

namespace Sys2Proof.Machine

theorem isqrtFrom_spec (k v m : Nat) (hm : m * m ≤ v) (hv : v < (m + 2 ^ k) * (m + 2 ^ k)) :
    isqrtFrom k v m * isqrtFrom k v m ≤ v ∧ v < (isqrtFrom k v m + 1) * (isqrtFrom k v m + 1) := by
  induction k generalizing m with
  | zero => simpa [isqrtFrom] using ⟨hm, hv⟩
  | succ k ih =>
    unfold isqrtFrom
    split
    · rename_i h
      exact ih _ h (by rwa [show m + 2 ^ k + 2 ^ k = m + 2 ^ (k + 1) by ring])
    · rename_i h
      exact ih _ hm (Nat.lt_of_not_le h)

/-- `isqrt v` is the greatest `m` with `m * m ≤ v` (R10). -/
theorem isqrt_spec (v : Nat) : isqrt v * isqrt v ≤ v ∧ v < (isqrt v + 1) * (isqrt v + 1) := by
  apply isqrtFrom_spec
  · simp
  · have h1 : v < 2 ^ (Nat.log2 v + 1) := Nat.lt_log2_self
    have h2 : 2 ^ (Nat.log2 v + 1) ≤ 2 ^ (2 * (Nat.log2 v / 2 + 1)) := Nat.pow_le_pow_right (by norm_num) (by omega)
    calc v < 2 ^ (2 * (Nat.log2 v / 2 + 1)) := lt_of_lt_of_le h1 h2
      _ = _ := by rw [two_mul, pow_add]; ring

theorem isqrt_eq_sqrt (v : Nat) : isqrt v = Nat.sqrt v :=
  Nat.eq_sqrt.mpr (isqrt_spec v)

theorem sat16_range (v : Int) : -32768 ≤ sat16 v ∧ sat16 v ≤ 32767 := by unfold sat16; omega

/-- A saturated result survives as a sample. -/
theorem toInt_ofInt_sat16 (v : Int) : (BitVec.ofInt 16 (sat16 v)).toInt = sat16 v := by
  have h := sat16_range v
  rw [BitVec.toInt_ofInt]
  exact Int.bmod_eq_of_le (by norm_num; omega) (by norm_num; omega)

/-- Saturation changes a value exactly when it lies outside the sample range. -/
theorem sat16_ne (v : Int) : sat16 v ≠ v ↔ v < -32768 ∨ 32767 < v := by unfold sat16; omega

/-- `fdiv` by a positive number is the integer between (R10). -/
theorem fdiv_spec (a b : Int) (hb : 0 < b) : b * fdiv a b ≤ a ∧ a < b * (fdiv a b + 1) := by
  have e : fdiv a b = a / b := Int.fdiv_eq_ediv_of_nonneg a hb.le
  rw [e]
  constructor
  · exact Int.mul_ediv_self_le hb.ne'
  · have := Int.lt_mul_ediv_self_add (x := a) hb
    linarith

theorem fdiv_unique (a b q : Int) (hb : 0 < b) (h1 : b * q ≤ a) (h2 : a < b * (q + 1)) : fdiv a b = q := by
  obtain ⟨h3, h4⟩ := fdiv_spec a b hb
  have hq : b * fdiv a b < b * (q + 1) := lt_of_le_of_lt h3 h2
  have hq' : b * q < b * (fdiv a b + 1) := lt_of_le_of_lt h1 h4
  have := lt_of_mul_lt_mul_left hq hb.le
  have := lt_of_mul_lt_mul_left hq' hb.le
  omega

theorem wrapS_of_range (v : Int) (h1 : -2 ^ 39 ≤ v) (h2 : v < 2 ^ 39) : wrapS 40 v = v := by
  unfold wrapS
  exact Int.bmod_eq_of_le (by norm_num at *; omega) (by norm_num at *; omega)

theorem wrapS_eq_toInt (v : Int) : wrapS 40 v = (BitVec.ofInt 40 v).toInt := by
  rw [BitVec.toInt_ofInt]; rfl

theorem toInt_ofInt_wrapS (v : Int) : (BitVec.ofInt 40 (wrapS 40 v)).toInt = wrapS 40 v := by
  rw [BitVec.toInt_ofInt]
  unfold wrapS
  exact Int.bmod_bmod

/-- `tdiv` truncates toward zero: the error is below one unit and has the sign of the dividend (R10). -/
theorem tdiv_spec (a b : Int) (hb : 0 < b) :
    |a - b * tdiv a b| < b ∧ (a - b * tdiv a b ≠ 0 → 0 < (a - b * tdiv a b) * a) := by
  have e : a - b * tdiv a b = a.tmod b := by rw [Int.tmod_def]; rfl
  rw [e]
  rcases lt_trichotomy a 0 with ha | ha | ha
  · have h1 : (-a).tmod b = -(a.tmod b) := Int.neg_tmod a b
    have h2 : 0 ≤ (-a).tmod b := Int.tmod_nonneg b (by omega)
    have h3 : (-a).tmod b < b := Int.tmod_lt_of_pos _ hb
    refine ⟨abs_lt.mpr ⟨by omega, by omega⟩, fun h => mul_pos_of_neg_of_neg (by omega) ha⟩
  · subst ha; simp [hb]
  · have h2 : 0 ≤ a.tmod b := Int.tmod_nonneg b ha.le
    have h3 : a.tmod b < b := Int.tmod_lt_of_pos _ hb
    exact ⟨abs_lt.mpr ⟨by omega, h3⟩, fun h => mul_pos (by omega) ha⟩

/-! ### The modulo of the ring -/

theorem modC_eq (C : Nat) (i : Int) (hC : 0 < C) : ((modC C i : Nat) : Int) = i % (C : Int) := by
  unfold modC
  have : (0 : Int) ≤ i % (C : Int) := Int.emod_nonneg _ (by omega)
  exact Int.toNat_of_nonneg this

theorem modC_lt (C : Nat) (i : Int) (hC : 0 < C) : modC C i < C := by
  have h := modC_eq C i hC
  have : i % (C : Int) < C := Int.emod_lt_of_pos _ (by omega)
  omega

theorem modC_natCast (C i : Nat) : modC C (i : Int) = i % C := by
  unfold modC
  exact Int.toNat_natCast (i % C)

theorem modC_of_lt (C i : Nat) (h : i < C) : modC C (i : Int) = i := by
  rw [modC_natCast, Nat.mod_eq_of_lt h]

/-- Equal indices modulo `C` name one slot. -/
theorem modC_congr (C : Nat) (i j : Int) (h : (C : Int) ∣ i - j) : modC C i = modC C j := by
  have e : i % (C : Int) = j % (C : Int) := Int.emod_eq_emod_iff_emod_sub_eq_zero.mpr (Int.emod_eq_zero_of_dvd h)
  show (i % (C : Int)).toNat = (j % (C : Int)).toNat
  rw [e]

/-- Reducing an index before adding to it does not change the slot. -/
theorem modC_add (C : Nat) (i j : Int) (hC : 0 < C) : modC C ((modC C i : Nat) + j) = modC C (i + j) := by
  apply modC_congr
  rw [modC_eq C i hC]
  have := Int.emod_add_mul_ediv i C
  exact ⟨-(i / C), by linarith⟩

/-- Slots of indices less than `C` apart are different. -/
theorem modC_ne (C : Nat) (i j : Int) (h1 : i < j) (h2 : j < i + C) : modC C i ≠ modC C j := by
  intro h
  have hC : 0 < C := by omega
  have e : i % (C : Int) = j % (C : Int) := by rw [← modC_eq C i hC, ← modC_eq C j hC, h]
  have d : (C : Int) ∣ j - i := Int.dvd_of_emod_eq_zero (Int.emod_eq_emod_iff_emod_sub_eq_zero.mp e.symm)
  obtain ⟨k, hk⟩ := d
  have hk0 : 0 < k := by
    by_contra hneg
    have : (C : Int) * k ≤ 0 := mul_nonpos_of_nonneg_of_nonpos (by omega) (by omega)
    omega
  have : (C : Int) * 1 ≤ C * k := mul_le_mul_of_nonneg_left (by omega) (by omega)
  omega

end Sys2Proof.Machine
end

