-- ==== Sys2Proof/Laws/State.lean ====
section
/-! SUPPORT. One small lemma per field and per update: what an operation over the state leaves in each field. They
let a proof read a field of an updated state without unfolding the update. -/

namespace Sys2Proof.Machine

/-! ### Fields an operation does not write -/

@[simp] theorem State.advance_params (p : Port) (len : Nat) (s : State) : (State.advance p len s).params = s.params := by cases p <;> rfl
@[simp] theorem State.advance_inputs (p : Port) (len : Nat) (s : State) : (State.advance p len s).inputs = s.inputs := by cases p <;> rfl
@[simp] theorem State.advance_cmdW (p : Port) (len : Nat) (s : State) : (State.advance p len s).cmdW = s.cmdW := by cases p <;> rfl
@[simp] theorem State.advance_cmdR (p : Port) (len : Nat) (s : State) : (State.advance p len s).cmdR = s.cmdR := by cases p <;> rfl
@[simp] theorem State.advance_cmdH (p : Port) (len : Nat) (s : State) : (State.advance p len s).cmdH = s.cmdH := by cases p <;> rfl
@[simp] theorem State.advance_rspR (p : Port) (len : Nat) (s : State) : (State.advance p len s).rspR = s.rspR := by cases p <;> rfl
@[simp] theorem State.advance_rspH (p : Port) (len : Nat) (s : State) : (State.advance p len s).rspH = s.rspH := by cases p <;> rfl
@[simp] theorem State.advance_ring (p : Port) (len : Nat) (s : State) : (State.advance p len s).ring = s.ring := by cases p <;> rfl
@[simp] theorem State.advance_wptr (p : Port) (len : Nat) (s : State) : (State.advance p len s).wptr = s.wptr := by cases p <;> rfl
@[simp] theorem State.advance_level (p : Port) (len : Nat) (s : State) : (State.advance p len s).level = s.level := by cases p <;> rfl
@[simp] theorem State.advance_fill (p : Port) (len : Nat) (s : State) : (State.advance p len s).fill = s.fill := by cases p <;> rfl
@[simp] theorem State.advance_underrunCnt (p : Port) (len : Nat) (s : State) : (State.advance p len s).underrunCnt = s.underrunCnt := by cases p <;> rfl
@[simp] theorem State.advance_dropCnt (p : Port) (len : Nat) (s : State) : (State.advance p len s).dropCnt = s.dropCnt := by cases p <;> rfl
@[simp] theorem State.advance_chainP (p : Port) (len : Nat) (s : State) : (State.advance p len s).chainP = s.chainP := by cases p <;> rfl
@[simp] theorem State.advance_chainA (p : Port) (len : Nat) (s : State) : (State.advance p len s).chainA = s.chainA := by cases p <;> rfl
@[simp] theorem State.advance_dcEn (p : Port) (len : Nat) (s : State) : (State.advance p len s).dcEn = s.dcEn := by cases p <;> rfl
@[simp] theorem State.advance_lpfEn (p : Port) (len : Nat) (s : State) : (State.advance p len s).lpfEn = s.lpfEn := by cases p <;> rfl
@[simp] theorem State.advance_err (p : Port) (len : Nat) (s : State) : (State.advance p len s).err = s.err := by cases p <;> rfl
@[simp] theorem State.advance_satP (p : Port) (len : Nat) (s : State) : (State.advance p len s).satP = s.satP := by cases p <;> rfl
@[simp] theorem State.advance_satA (p : Port) (len : Nat) (s : State) : (State.advance p len s).satA = s.satA := by cases p <;> rfl
@[simp] theorem State.advance_statsValid (p : Port) (len : Nat) (s : State) : (State.advance p len s).statsValid = s.statsValid := by cases p <;> rfl
@[simp] theorem State.advance_errCause (p : Port) (len : Nat) (s : State) : (State.advance p len s).errCause = s.errCause := by cases p <;> rfl
@[simp] theorem State.advance_errPort (p : Port) (len : Nat) (s : State) : (State.advance p len s).errPort = s.errPort := by cases p <;> rfl
@[simp] theorem State.advance_errWord (p : Port) (len : Nat) (s : State) : (State.advance p len s).errWord = s.errWord := by cases p <;> rfl
@[simp] theorem State.advance_dcR (p : Port) (len : Nat) (s : State) : (State.advance p len s).dcR = s.dcR := by cases p <;> rfl
@[simp] theorem State.advance_splitThr (p : Port) (len : Nat) (s : State) : (State.advance p len s).splitThr = s.splitThr := by cases p <;> rfl
@[simp] theorem State.advance_lpfB (p : Port) (len : Nat) (s : State) : (State.advance p len s).lpfB = s.lpfB := by cases p <;> rfl
@[simp] theorem State.advance_lpfA (p : Port) (len : Nat) (s : State) : (State.advance p len s).lpfA = s.lpfA := by cases p <;> rfl
@[simp] theorem State.advance_stats (p : Port) (len : Nat) (s : State) : (State.advance p len s).stats = s.stats := by cases p <;> rfl

@[simp] theorem State.setStream_params (p : Port) (ws : List Word) (s : State) : (State.setStream p ws s).params = s.params := by cases p <;> rfl
@[simp] theorem State.setStream_inputs (p : Port) (ws : List Word) (s : State) : (State.setStream p ws s).inputs = s.inputs := by cases p <;> rfl
@[simp] theorem State.setStream_posW (p : Port) (ws : List Word) (s : State) : (State.setStream p ws s).posW = s.posW := by cases p <;> rfl
@[simp] theorem State.setStream_posR (p : Port) (ws : List Word) (s : State) : (State.setStream p ws s).posR = s.posR := by cases p <;> rfl
@[simp] theorem State.setStream_posH (p : Port) (ws : List Word) (s : State) : (State.setStream p ws s).posH = s.posH := by cases p <;> rfl
@[simp] theorem State.setStream_rspR (p : Port) (ws : List Word) (s : State) : (State.setStream p ws s).rspR = s.rspR := by cases p <;> rfl
@[simp] theorem State.setStream_rspH (p : Port) (ws : List Word) (s : State) : (State.setStream p ws s).rspH = s.rspH := by cases p <;> rfl
@[simp] theorem State.setStream_ring (p : Port) (ws : List Word) (s : State) : (State.setStream p ws s).ring = s.ring := by cases p <;> rfl
@[simp] theorem State.setStream_wptr (p : Port) (ws : List Word) (s : State) : (State.setStream p ws s).wptr = s.wptr := by cases p <;> rfl
@[simp] theorem State.setStream_level (p : Port) (ws : List Word) (s : State) : (State.setStream p ws s).level = s.level := by cases p <;> rfl
@[simp] theorem State.setStream_fill (p : Port) (ws : List Word) (s : State) : (State.setStream p ws s).fill = s.fill := by cases p <;> rfl
@[simp] theorem State.setStream_underrunCnt (p : Port) (ws : List Word) (s : State) : (State.setStream p ws s).underrunCnt = s.underrunCnt := by cases p <;> rfl
@[simp] theorem State.setStream_dropCnt (p : Port) (ws : List Word) (s : State) : (State.setStream p ws s).dropCnt = s.dropCnt := by cases p <;> rfl
@[simp] theorem State.setStream_chainP (p : Port) (ws : List Word) (s : State) : (State.setStream p ws s).chainP = s.chainP := by cases p <;> rfl
@[simp] theorem State.setStream_chainA (p : Port) (ws : List Word) (s : State) : (State.setStream p ws s).chainA = s.chainA := by cases p <;> rfl
@[simp] theorem State.setStream_dcEn (p : Port) (ws : List Word) (s : State) : (State.setStream p ws s).dcEn = s.dcEn := by cases p <;> rfl
@[simp] theorem State.setStream_lpfEn (p : Port) (ws : List Word) (s : State) : (State.setStream p ws s).lpfEn = s.lpfEn := by cases p <;> rfl
@[simp] theorem State.setStream_err (p : Port) (ws : List Word) (s : State) : (State.setStream p ws s).err = s.err := by cases p <;> rfl
@[simp] theorem State.setStream_satP (p : Port) (ws : List Word) (s : State) : (State.setStream p ws s).satP = s.satP := by cases p <;> rfl
@[simp] theorem State.setStream_satA (p : Port) (ws : List Word) (s : State) : (State.setStream p ws s).satA = s.satA := by cases p <;> rfl
@[simp] theorem State.setStream_statsValid (p : Port) (ws : List Word) (s : State) : (State.setStream p ws s).statsValid = s.statsValid := by cases p <;> rfl
@[simp] theorem State.setStream_errCause (p : Port) (ws : List Word) (s : State) : (State.setStream p ws s).errCause = s.errCause := by cases p <;> rfl
@[simp] theorem State.setStream_errPort (p : Port) (ws : List Word) (s : State) : (State.setStream p ws s).errPort = s.errPort := by cases p <;> rfl
@[simp] theorem State.setStream_errWord (p : Port) (ws : List Word) (s : State) : (State.setStream p ws s).errWord = s.errWord := by cases p <;> rfl
@[simp] theorem State.setStream_dcR (p : Port) (ws : List Word) (s : State) : (State.setStream p ws s).dcR = s.dcR := by cases p <;> rfl
@[simp] theorem State.setStream_splitThr (p : Port) (ws : List Word) (s : State) : (State.setStream p ws s).splitThr = s.splitThr := by cases p <;> rfl
@[simp] theorem State.setStream_lpfB (p : Port) (ws : List Word) (s : State) : (State.setStream p ws s).lpfB = s.lpfB := by cases p <;> rfl
@[simp] theorem State.setStream_lpfA (p : Port) (ws : List Word) (s : State) : (State.setStream p ws s).lpfA = s.lpfA := by cases p <;> rfl
@[simp] theorem State.setStream_stats (p : Port) (ws : List Word) (s : State) : (State.setStream p ws s).stats = s.stats := by cases p <;> rfl

@[simp] theorem State.emit_params (p : Port) (ws : List Word) (s : State) : (State.emit p ws s).params = s.params := by cases p <;> rfl
@[simp] theorem State.emit_inputs (p : Port) (ws : List Word) (s : State) : (State.emit p ws s).inputs = s.inputs := by cases p <;> rfl
@[simp] theorem State.emit_cmdW (p : Port) (ws : List Word) (s : State) : (State.emit p ws s).cmdW = s.cmdW := by cases p <;> rfl
@[simp] theorem State.emit_cmdR (p : Port) (ws : List Word) (s : State) : (State.emit p ws s).cmdR = s.cmdR := by cases p <;> rfl
@[simp] theorem State.emit_cmdH (p : Port) (ws : List Word) (s : State) : (State.emit p ws s).cmdH = s.cmdH := by cases p <;> rfl
@[simp] theorem State.emit_posW (p : Port) (ws : List Word) (s : State) : (State.emit p ws s).posW = s.posW := by cases p <;> rfl
@[simp] theorem State.emit_posR (p : Port) (ws : List Word) (s : State) : (State.emit p ws s).posR = s.posR := by cases p <;> rfl
@[simp] theorem State.emit_posH (p : Port) (ws : List Word) (s : State) : (State.emit p ws s).posH = s.posH := by cases p <;> rfl
@[simp] theorem State.emit_ring (p : Port) (ws : List Word) (s : State) : (State.emit p ws s).ring = s.ring := by cases p <;> rfl
@[simp] theorem State.emit_wptr (p : Port) (ws : List Word) (s : State) : (State.emit p ws s).wptr = s.wptr := by cases p <;> rfl
@[simp] theorem State.emit_level (p : Port) (ws : List Word) (s : State) : (State.emit p ws s).level = s.level := by cases p <;> rfl
@[simp] theorem State.emit_fill (p : Port) (ws : List Word) (s : State) : (State.emit p ws s).fill = s.fill := by cases p <;> rfl
@[simp] theorem State.emit_underrunCnt (p : Port) (ws : List Word) (s : State) : (State.emit p ws s).underrunCnt = s.underrunCnt := by cases p <;> rfl
@[simp] theorem State.emit_dropCnt (p : Port) (ws : List Word) (s : State) : (State.emit p ws s).dropCnt = s.dropCnt := by cases p <;> rfl
@[simp] theorem State.emit_chainP (p : Port) (ws : List Word) (s : State) : (State.emit p ws s).chainP = s.chainP := by cases p <;> rfl
@[simp] theorem State.emit_chainA (p : Port) (ws : List Word) (s : State) : (State.emit p ws s).chainA = s.chainA := by cases p <;> rfl
@[simp] theorem State.emit_dcEn (p : Port) (ws : List Word) (s : State) : (State.emit p ws s).dcEn = s.dcEn := by cases p <;> rfl
@[simp] theorem State.emit_lpfEn (p : Port) (ws : List Word) (s : State) : (State.emit p ws s).lpfEn = s.lpfEn := by cases p <;> rfl
@[simp] theorem State.emit_err (p : Port) (ws : List Word) (s : State) : (State.emit p ws s).err = s.err := by cases p <;> rfl
@[simp] theorem State.emit_satP (p : Port) (ws : List Word) (s : State) : (State.emit p ws s).satP = s.satP := by cases p <;> rfl
@[simp] theorem State.emit_satA (p : Port) (ws : List Word) (s : State) : (State.emit p ws s).satA = s.satA := by cases p <;> rfl
@[simp] theorem State.emit_statsValid (p : Port) (ws : List Word) (s : State) : (State.emit p ws s).statsValid = s.statsValid := by cases p <;> rfl
@[simp] theorem State.emit_errCause (p : Port) (ws : List Word) (s : State) : (State.emit p ws s).errCause = s.errCause := by cases p <;> rfl
@[simp] theorem State.emit_errPort (p : Port) (ws : List Word) (s : State) : (State.emit p ws s).errPort = s.errPort := by cases p <;> rfl
@[simp] theorem State.emit_errWord (p : Port) (ws : List Word) (s : State) : (State.emit p ws s).errWord = s.errWord := by cases p <;> rfl
@[simp] theorem State.emit_dcR (p : Port) (ws : List Word) (s : State) : (State.emit p ws s).dcR = s.dcR := by cases p <;> rfl
@[simp] theorem State.emit_splitThr (p : Port) (ws : List Word) (s : State) : (State.emit p ws s).splitThr = s.splitThr := by cases p <;> rfl
@[simp] theorem State.emit_lpfB (p : Port) (ws : List Word) (s : State) : (State.emit p ws s).lpfB = s.lpfB := by cases p <;> rfl
@[simp] theorem State.emit_lpfA (p : Port) (ws : List Word) (s : State) : (State.emit p ws s).lpfA = s.lpfA := by cases p <;> rfl
@[simp] theorem State.emit_stats (p : Port) (ws : List Word) (s : State) : (State.emit p ws s).stats = s.stats := by cases p <;> rfl

@[simp] theorem State.cmdError_params (c : Cause) (p : Port) (w0 : Word) (s : State) : (State.cmdError c p w0 s).params = s.params := by cases p <;> rfl
@[simp] theorem State.cmdError_inputs (c : Cause) (p : Port) (w0 : Word) (s : State) : (State.cmdError c p w0 s).inputs = s.inputs := by cases p <;> rfl
@[simp] theorem State.cmdError_cmdW (c : Cause) (p : Port) (w0 : Word) (s : State) : (State.cmdError c p w0 s).cmdW = s.cmdW := by cases p <;> rfl
@[simp] theorem State.cmdError_cmdR (c : Cause) (p : Port) (w0 : Word) (s : State) : (State.cmdError c p w0 s).cmdR = s.cmdR := by cases p <;> rfl
@[simp] theorem State.cmdError_cmdH (c : Cause) (p : Port) (w0 : Word) (s : State) : (State.cmdError c p w0 s).cmdH = s.cmdH := by cases p <;> rfl
@[simp] theorem State.cmdError_rspR (c : Cause) (p : Port) (w0 : Word) (s : State) : (State.cmdError c p w0 s).rspR = s.rspR := by cases p <;> rfl
@[simp] theorem State.cmdError_rspH (c : Cause) (p : Port) (w0 : Word) (s : State) : (State.cmdError c p w0 s).rspH = s.rspH := by cases p <;> rfl
@[simp] theorem State.cmdError_ring (c : Cause) (p : Port) (w0 : Word) (s : State) : (State.cmdError c p w0 s).ring = s.ring := by cases p <;> rfl
@[simp] theorem State.cmdError_wptr (c : Cause) (p : Port) (w0 : Word) (s : State) : (State.cmdError c p w0 s).wptr = s.wptr := by cases p <;> rfl
@[simp] theorem State.cmdError_level (c : Cause) (p : Port) (w0 : Word) (s : State) : (State.cmdError c p w0 s).level = s.level := by cases p <;> rfl
@[simp] theorem State.cmdError_fill (c : Cause) (p : Port) (w0 : Word) (s : State) : (State.cmdError c p w0 s).fill = s.fill := by cases p <;> rfl
@[simp] theorem State.cmdError_underrunCnt (c : Cause) (p : Port) (w0 : Word) (s : State) : (State.cmdError c p w0 s).underrunCnt = s.underrunCnt := by cases p <;> rfl
@[simp] theorem State.cmdError_dropCnt (c : Cause) (p : Port) (w0 : Word) (s : State) : (State.cmdError c p w0 s).dropCnt = s.dropCnt := by cases p <;> rfl
@[simp] theorem State.cmdError_chainP (c : Cause) (p : Port) (w0 : Word) (s : State) : (State.cmdError c p w0 s).chainP = s.chainP := by cases p <;> rfl
@[simp] theorem State.cmdError_chainA (c : Cause) (p : Port) (w0 : Word) (s : State) : (State.cmdError c p w0 s).chainA = s.chainA := by cases p <;> rfl
@[simp] theorem State.cmdError_dcEn (c : Cause) (p : Port) (w0 : Word) (s : State) : (State.cmdError c p w0 s).dcEn = s.dcEn := by cases p <;> rfl
@[simp] theorem State.cmdError_lpfEn (c : Cause) (p : Port) (w0 : Word) (s : State) : (State.cmdError c p w0 s).lpfEn = s.lpfEn := by cases p <;> rfl
@[simp] theorem State.cmdError_satP (c : Cause) (p : Port) (w0 : Word) (s : State) : (State.cmdError c p w0 s).satP = s.satP := by cases p <;> rfl
@[simp] theorem State.cmdError_satA (c : Cause) (p : Port) (w0 : Word) (s : State) : (State.cmdError c p w0 s).satA = s.satA := by cases p <;> rfl
@[simp] theorem State.cmdError_statsValid (c : Cause) (p : Port) (w0 : Word) (s : State) : (State.cmdError c p w0 s).statsValid = s.statsValid := by cases p <;> rfl
@[simp] theorem State.cmdError_dcR (c : Cause) (p : Port) (w0 : Word) (s : State) : (State.cmdError c p w0 s).dcR = s.dcR := by cases p <;> rfl
@[simp] theorem State.cmdError_splitThr (c : Cause) (p : Port) (w0 : Word) (s : State) : (State.cmdError c p w0 s).splitThr = s.splitThr := by cases p <;> rfl
@[simp] theorem State.cmdError_lpfB (c : Cause) (p : Port) (w0 : Word) (s : State) : (State.cmdError c p w0 s).lpfB = s.lpfB := by cases p <;> rfl
@[simp] theorem State.cmdError_lpfA (c : Cause) (p : Port) (w0 : Word) (s : State) : (State.cmdError c p w0 s).lpfA = s.lpfA := by cases p <;> rfl
@[simp] theorem State.cmdError_stats (c : Cause) (p : Port) (w0 : Word) (s : State) : (State.cmdError c p w0 s).stats = s.stats := by cases p <;> rfl

@[simp] theorem State.memWrite_params (i : Nat) (x : Sample) (s : State) : (State.memWrite i x s).params = s.params := rfl
@[simp] theorem State.memWrite_inputs (i : Nat) (x : Sample) (s : State) : (State.memWrite i x s).inputs = s.inputs := rfl
@[simp] theorem State.memWrite_cmdW (i : Nat) (x : Sample) (s : State) : (State.memWrite i x s).cmdW = s.cmdW := rfl
@[simp] theorem State.memWrite_cmdR (i : Nat) (x : Sample) (s : State) : (State.memWrite i x s).cmdR = s.cmdR := rfl
@[simp] theorem State.memWrite_cmdH (i : Nat) (x : Sample) (s : State) : (State.memWrite i x s).cmdH = s.cmdH := rfl
@[simp] theorem State.memWrite_posW (i : Nat) (x : Sample) (s : State) : (State.memWrite i x s).posW = s.posW := rfl
@[simp] theorem State.memWrite_posR (i : Nat) (x : Sample) (s : State) : (State.memWrite i x s).posR = s.posR := rfl
@[simp] theorem State.memWrite_posH (i : Nat) (x : Sample) (s : State) : (State.memWrite i x s).posH = s.posH := rfl
@[simp] theorem State.memWrite_rspR (i : Nat) (x : Sample) (s : State) : (State.memWrite i x s).rspR = s.rspR := rfl
@[simp] theorem State.memWrite_rspH (i : Nat) (x : Sample) (s : State) : (State.memWrite i x s).rspH = s.rspH := rfl
@[simp] theorem State.memWrite_wptr (i : Nat) (x : Sample) (s : State) : (State.memWrite i x s).wptr = s.wptr := rfl
@[simp] theorem State.memWrite_level (i : Nat) (x : Sample) (s : State) : (State.memWrite i x s).level = s.level := rfl
@[simp] theorem State.memWrite_fill (i : Nat) (x : Sample) (s : State) : (State.memWrite i x s).fill = s.fill := rfl
@[simp] theorem State.memWrite_underrunCnt (i : Nat) (x : Sample) (s : State) : (State.memWrite i x s).underrunCnt = s.underrunCnt := rfl
@[simp] theorem State.memWrite_dropCnt (i : Nat) (x : Sample) (s : State) : (State.memWrite i x s).dropCnt = s.dropCnt := rfl
@[simp] theorem State.memWrite_chainP (i : Nat) (x : Sample) (s : State) : (State.memWrite i x s).chainP = s.chainP := rfl
@[simp] theorem State.memWrite_chainA (i : Nat) (x : Sample) (s : State) : (State.memWrite i x s).chainA = s.chainA := rfl
@[simp] theorem State.memWrite_dcEn (i : Nat) (x : Sample) (s : State) : (State.memWrite i x s).dcEn = s.dcEn := rfl
@[simp] theorem State.memWrite_lpfEn (i : Nat) (x : Sample) (s : State) : (State.memWrite i x s).lpfEn = s.lpfEn := rfl
@[simp] theorem State.memWrite_err (i : Nat) (x : Sample) (s : State) : (State.memWrite i x s).err = s.err := rfl
@[simp] theorem State.memWrite_satP (i : Nat) (x : Sample) (s : State) : (State.memWrite i x s).satP = s.satP := rfl
@[simp] theorem State.memWrite_satA (i : Nat) (x : Sample) (s : State) : (State.memWrite i x s).satA = s.satA := rfl
@[simp] theorem State.memWrite_statsValid (i : Nat) (x : Sample) (s : State) : (State.memWrite i x s).statsValid = s.statsValid := rfl
@[simp] theorem State.memWrite_errCause (i : Nat) (x : Sample) (s : State) : (State.memWrite i x s).errCause = s.errCause := rfl
@[simp] theorem State.memWrite_errPort (i : Nat) (x : Sample) (s : State) : (State.memWrite i x s).errPort = s.errPort := rfl
@[simp] theorem State.memWrite_errWord (i : Nat) (x : Sample) (s : State) : (State.memWrite i x s).errWord = s.errWord := rfl
@[simp] theorem State.memWrite_dcR (i : Nat) (x : Sample) (s : State) : (State.memWrite i x s).dcR = s.dcR := rfl
@[simp] theorem State.memWrite_splitThr (i : Nat) (x : Sample) (s : State) : (State.memWrite i x s).splitThr = s.splitThr := rfl
@[simp] theorem State.memWrite_lpfB (i : Nat) (x : Sample) (s : State) : (State.memWrite i x s).lpfB = s.lpfB := rfl
@[simp] theorem State.memWrite_lpfA (i : Nat) (x : Sample) (s : State) : (State.memWrite i x s).lpfA = s.lpfA := rfl
@[simp] theorem State.memWrite_stats (i : Nat) (x : Sample) (s : State) : (State.memWrite i x s).stats = s.stats := rfl

@[simp] theorem State.pushSample_params (x : Sample) (s : State) : (State.pushSample x s).params = s.params := rfl
@[simp] theorem State.pushSample_inputs (x : Sample) (s : State) : (State.pushSample x s).inputs = s.inputs := rfl
@[simp] theorem State.pushSample_cmdW (x : Sample) (s : State) : (State.pushSample x s).cmdW = s.cmdW := rfl
@[simp] theorem State.pushSample_cmdR (x : Sample) (s : State) : (State.pushSample x s).cmdR = s.cmdR := rfl
@[simp] theorem State.pushSample_cmdH (x : Sample) (s : State) : (State.pushSample x s).cmdH = s.cmdH := rfl
@[simp] theorem State.pushSample_posW (x : Sample) (s : State) : (State.pushSample x s).posW = s.posW := rfl
@[simp] theorem State.pushSample_posR (x : Sample) (s : State) : (State.pushSample x s).posR = s.posR := rfl
@[simp] theorem State.pushSample_posH (x : Sample) (s : State) : (State.pushSample x s).posH = s.posH := rfl
@[simp] theorem State.pushSample_rspR (x : Sample) (s : State) : (State.pushSample x s).rspR = s.rspR := rfl
@[simp] theorem State.pushSample_rspH (x : Sample) (s : State) : (State.pushSample x s).rspH = s.rspH := rfl
@[simp] theorem State.pushSample_underrunCnt (x : Sample) (s : State) : (State.pushSample x s).underrunCnt = s.underrunCnt := rfl
@[simp] theorem State.pushSample_chainP (x : Sample) (s : State) : (State.pushSample x s).chainP = s.chainP := rfl
@[simp] theorem State.pushSample_chainA (x : Sample) (s : State) : (State.pushSample x s).chainA = s.chainA := rfl
@[simp] theorem State.pushSample_dcEn (x : Sample) (s : State) : (State.pushSample x s).dcEn = s.dcEn := rfl
@[simp] theorem State.pushSample_lpfEn (x : Sample) (s : State) : (State.pushSample x s).lpfEn = s.lpfEn := rfl
@[simp] theorem State.pushSample_err (x : Sample) (s : State) : (State.pushSample x s).err = s.err := rfl
@[simp] theorem State.pushSample_satP (x : Sample) (s : State) : (State.pushSample x s).satP = s.satP := rfl
@[simp] theorem State.pushSample_satA (x : Sample) (s : State) : (State.pushSample x s).satA = s.satA := rfl
@[simp] theorem State.pushSample_statsValid (x : Sample) (s : State) : (State.pushSample x s).statsValid = s.statsValid := rfl
@[simp] theorem State.pushSample_errCause (x : Sample) (s : State) : (State.pushSample x s).errCause = s.errCause := rfl
@[simp] theorem State.pushSample_errPort (x : Sample) (s : State) : (State.pushSample x s).errPort = s.errPort := rfl
@[simp] theorem State.pushSample_errWord (x : Sample) (s : State) : (State.pushSample x s).errWord = s.errWord := rfl
@[simp] theorem State.pushSample_dcR (x : Sample) (s : State) : (State.pushSample x s).dcR = s.dcR := rfl
@[simp] theorem State.pushSample_splitThr (x : Sample) (s : State) : (State.pushSample x s).splitThr = s.splitThr := rfl
@[simp] theorem State.pushSample_lpfB (x : Sample) (s : State) : (State.pushSample x s).lpfB = s.lpfB := rfl
@[simp] theorem State.pushSample_lpfA (x : Sample) (s : State) : (State.pushSample x s).lpfA = s.lpfA := rfl
@[simp] theorem State.pushSample_stats (x : Sample) (s : State) : (State.pushSample x s).stats = s.stats := rfl

@[simp] theorem State.popCount_params (n : Nat) (s : State) : (State.popCount n s).params = s.params := rfl
@[simp] theorem State.popCount_inputs (n : Nat) (s : State) : (State.popCount n s).inputs = s.inputs := rfl
@[simp] theorem State.popCount_cmdW (n : Nat) (s : State) : (State.popCount n s).cmdW = s.cmdW := rfl
@[simp] theorem State.popCount_cmdR (n : Nat) (s : State) : (State.popCount n s).cmdR = s.cmdR := rfl
@[simp] theorem State.popCount_cmdH (n : Nat) (s : State) : (State.popCount n s).cmdH = s.cmdH := rfl
@[simp] theorem State.popCount_posW (n : Nat) (s : State) : (State.popCount n s).posW = s.posW := rfl
@[simp] theorem State.popCount_posR (n : Nat) (s : State) : (State.popCount n s).posR = s.posR := rfl
@[simp] theorem State.popCount_posH (n : Nat) (s : State) : (State.popCount n s).posH = s.posH := rfl
@[simp] theorem State.popCount_rspR (n : Nat) (s : State) : (State.popCount n s).rspR = s.rspR := rfl
@[simp] theorem State.popCount_rspH (n : Nat) (s : State) : (State.popCount n s).rspH = s.rspH := rfl
@[simp] theorem State.popCount_ring (n : Nat) (s : State) : (State.popCount n s).ring = s.ring := rfl
@[simp] theorem State.popCount_wptr (n : Nat) (s : State) : (State.popCount n s).wptr = s.wptr := rfl
@[simp] theorem State.popCount_fill (n : Nat) (s : State) : (State.popCount n s).fill = s.fill := rfl
@[simp] theorem State.popCount_dropCnt (n : Nat) (s : State) : (State.popCount n s).dropCnt = s.dropCnt := rfl
@[simp] theorem State.popCount_chainP (n : Nat) (s : State) : (State.popCount n s).chainP = s.chainP := rfl
@[simp] theorem State.popCount_chainA (n : Nat) (s : State) : (State.popCount n s).chainA = s.chainA := rfl
@[simp] theorem State.popCount_dcEn (n : Nat) (s : State) : (State.popCount n s).dcEn = s.dcEn := rfl
@[simp] theorem State.popCount_lpfEn (n : Nat) (s : State) : (State.popCount n s).lpfEn = s.lpfEn := rfl
@[simp] theorem State.popCount_err (n : Nat) (s : State) : (State.popCount n s).err = s.err := rfl
@[simp] theorem State.popCount_satP (n : Nat) (s : State) : (State.popCount n s).satP = s.satP := rfl
@[simp] theorem State.popCount_satA (n : Nat) (s : State) : (State.popCount n s).satA = s.satA := rfl
@[simp] theorem State.popCount_statsValid (n : Nat) (s : State) : (State.popCount n s).statsValid = s.statsValid := rfl
@[simp] theorem State.popCount_errCause (n : Nat) (s : State) : (State.popCount n s).errCause = s.errCause := rfl
@[simp] theorem State.popCount_errPort (n : Nat) (s : State) : (State.popCount n s).errPort = s.errPort := rfl
@[simp] theorem State.popCount_errWord (n : Nat) (s : State) : (State.popCount n s).errWord = s.errWord := rfl
@[simp] theorem State.popCount_dcR (n : Nat) (s : State) : (State.popCount n s).dcR = s.dcR := rfl
@[simp] theorem State.popCount_splitThr (n : Nat) (s : State) : (State.popCount n s).splitThr = s.splitThr := rfl
@[simp] theorem State.popCount_lpfB (n : Nat) (s : State) : (State.popCount n s).lpfB = s.lpfB := rfl
@[simp] theorem State.popCount_lpfA (n : Nat) (s : State) : (State.popCount n s).lpfA = s.lpfA := rfl
@[simp] theorem State.popCount_stats (n : Nat) (s : State) : (State.popCount n s).stats = s.stats := rfl

@[simp] theorem State.resetParts_params (m : BitVec 5) (s : State) : (State.resetParts m s).params = s.params := rfl
@[simp] theorem State.resetParts_inputs (m : BitVec 5) (s : State) : (State.resetParts m s).inputs = s.inputs := rfl
@[simp] theorem State.resetParts_cmdW (m : BitVec 5) (s : State) : (State.resetParts m s).cmdW = s.cmdW := rfl
@[simp] theorem State.resetParts_cmdR (m : BitVec 5) (s : State) : (State.resetParts m s).cmdR = s.cmdR := rfl
@[simp] theorem State.resetParts_cmdH (m : BitVec 5) (s : State) : (State.resetParts m s).cmdH = s.cmdH := rfl
@[simp] theorem State.resetParts_posW (m : BitVec 5) (s : State) : (State.resetParts m s).posW = s.posW := rfl
@[simp] theorem State.resetParts_posR (m : BitVec 5) (s : State) : (State.resetParts m s).posR = s.posR := rfl
@[simp] theorem State.resetParts_posH (m : BitVec 5) (s : State) : (State.resetParts m s).posH = s.posH := rfl
@[simp] theorem State.resetParts_rspR (m : BitVec 5) (s : State) : (State.resetParts m s).rspR = s.rspR := rfl
@[simp] theorem State.resetParts_rspH (m : BitVec 5) (s : State) : (State.resetParts m s).rspH = s.rspH := rfl
@[simp] theorem State.resetParts_ring (m : BitVec 5) (s : State) : (State.resetParts m s).ring = s.ring := rfl
@[simp] theorem State.resetParts_dcEn (m : BitVec 5) (s : State) : (State.resetParts m s).dcEn = s.dcEn := rfl
@[simp] theorem State.resetParts_lpfEn (m : BitVec 5) (s : State) : (State.resetParts m s).lpfEn = s.lpfEn := rfl
@[simp] theorem State.resetParts_err (m : BitVec 5) (s : State) : (State.resetParts m s).err = s.err := rfl
@[simp] theorem State.resetParts_satP (m : BitVec 5) (s : State) : (State.resetParts m s).satP = s.satP := rfl
@[simp] theorem State.resetParts_satA (m : BitVec 5) (s : State) : (State.resetParts m s).satA = s.satA := rfl
@[simp] theorem State.resetParts_errCause (m : BitVec 5) (s : State) : (State.resetParts m s).errCause = s.errCause := rfl
@[simp] theorem State.resetParts_errPort (m : BitVec 5) (s : State) : (State.resetParts m s).errPort = s.errPort := rfl
@[simp] theorem State.resetParts_errWord (m : BitVec 5) (s : State) : (State.resetParts m s).errWord = s.errWord := rfl
@[simp] theorem State.resetParts_dcR (m : BitVec 5) (s : State) : (State.resetParts m s).dcR = s.dcR := rfl
@[simp] theorem State.resetParts_splitThr (m : BitVec 5) (s : State) : (State.resetParts m s).splitThr = s.splitThr := rfl
@[simp] theorem State.resetParts_lpfB (m : BitVec 5) (s : State) : (State.resetParts m s).lpfB = s.lpfB := rfl
@[simp] theorem State.resetParts_lpfA (m : BitVec 5) (s : State) : (State.resetParts m s).lpfA = s.lpfA := rfl

@[simp] theorem State.noteSatP_params (b : Bool) (s : State) : (State.noteSatP b s).params = s.params := rfl
@[simp] theorem State.noteSatP_inputs (b : Bool) (s : State) : (State.noteSatP b s).inputs = s.inputs := rfl
@[simp] theorem State.noteSatP_cmdW (b : Bool) (s : State) : (State.noteSatP b s).cmdW = s.cmdW := rfl
@[simp] theorem State.noteSatP_cmdR (b : Bool) (s : State) : (State.noteSatP b s).cmdR = s.cmdR := rfl
@[simp] theorem State.noteSatP_cmdH (b : Bool) (s : State) : (State.noteSatP b s).cmdH = s.cmdH := rfl
@[simp] theorem State.noteSatP_posW (b : Bool) (s : State) : (State.noteSatP b s).posW = s.posW := rfl
@[simp] theorem State.noteSatP_posR (b : Bool) (s : State) : (State.noteSatP b s).posR = s.posR := rfl
@[simp] theorem State.noteSatP_posH (b : Bool) (s : State) : (State.noteSatP b s).posH = s.posH := rfl
@[simp] theorem State.noteSatP_rspR (b : Bool) (s : State) : (State.noteSatP b s).rspR = s.rspR := rfl
@[simp] theorem State.noteSatP_rspH (b : Bool) (s : State) : (State.noteSatP b s).rspH = s.rspH := rfl
@[simp] theorem State.noteSatP_ring (b : Bool) (s : State) : (State.noteSatP b s).ring = s.ring := rfl
@[simp] theorem State.noteSatP_wptr (b : Bool) (s : State) : (State.noteSatP b s).wptr = s.wptr := rfl
@[simp] theorem State.noteSatP_level (b : Bool) (s : State) : (State.noteSatP b s).level = s.level := rfl
@[simp] theorem State.noteSatP_fill (b : Bool) (s : State) : (State.noteSatP b s).fill = s.fill := rfl
@[simp] theorem State.noteSatP_underrunCnt (b : Bool) (s : State) : (State.noteSatP b s).underrunCnt = s.underrunCnt := rfl
@[simp] theorem State.noteSatP_dropCnt (b : Bool) (s : State) : (State.noteSatP b s).dropCnt = s.dropCnt := rfl
@[simp] theorem State.noteSatP_chainP (b : Bool) (s : State) : (State.noteSatP b s).chainP = s.chainP := rfl
@[simp] theorem State.noteSatP_chainA (b : Bool) (s : State) : (State.noteSatP b s).chainA = s.chainA := rfl
@[simp] theorem State.noteSatP_dcEn (b : Bool) (s : State) : (State.noteSatP b s).dcEn = s.dcEn := rfl
@[simp] theorem State.noteSatP_lpfEn (b : Bool) (s : State) : (State.noteSatP b s).lpfEn = s.lpfEn := rfl
@[simp] theorem State.noteSatP_err (b : Bool) (s : State) : (State.noteSatP b s).err = s.err := rfl
@[simp] theorem State.noteSatP_satA (b : Bool) (s : State) : (State.noteSatP b s).satA = s.satA := rfl
@[simp] theorem State.noteSatP_statsValid (b : Bool) (s : State) : (State.noteSatP b s).statsValid = s.statsValid := rfl
@[simp] theorem State.noteSatP_errCause (b : Bool) (s : State) : (State.noteSatP b s).errCause = s.errCause := rfl
@[simp] theorem State.noteSatP_errPort (b : Bool) (s : State) : (State.noteSatP b s).errPort = s.errPort := rfl
@[simp] theorem State.noteSatP_errWord (b : Bool) (s : State) : (State.noteSatP b s).errWord = s.errWord := rfl
@[simp] theorem State.noteSatP_dcR (b : Bool) (s : State) : (State.noteSatP b s).dcR = s.dcR := rfl
@[simp] theorem State.noteSatP_splitThr (b : Bool) (s : State) : (State.noteSatP b s).splitThr = s.splitThr := rfl
@[simp] theorem State.noteSatP_lpfB (b : Bool) (s : State) : (State.noteSatP b s).lpfB = s.lpfB := rfl
@[simp] theorem State.noteSatP_lpfA (b : Bool) (s : State) : (State.noteSatP b s).lpfA = s.lpfA := rfl
@[simp] theorem State.noteSatP_stats (b : Bool) (s : State) : (State.noteSatP b s).stats = s.stats := rfl

@[simp] theorem State.noteSatA_params (b : Bool) (s : State) : (State.noteSatA b s).params = s.params := rfl
@[simp] theorem State.noteSatA_inputs (b : Bool) (s : State) : (State.noteSatA b s).inputs = s.inputs := rfl
@[simp] theorem State.noteSatA_cmdW (b : Bool) (s : State) : (State.noteSatA b s).cmdW = s.cmdW := rfl
@[simp] theorem State.noteSatA_cmdR (b : Bool) (s : State) : (State.noteSatA b s).cmdR = s.cmdR := rfl
@[simp] theorem State.noteSatA_cmdH (b : Bool) (s : State) : (State.noteSatA b s).cmdH = s.cmdH := rfl
@[simp] theorem State.noteSatA_posW (b : Bool) (s : State) : (State.noteSatA b s).posW = s.posW := rfl
@[simp] theorem State.noteSatA_posR (b : Bool) (s : State) : (State.noteSatA b s).posR = s.posR := rfl
@[simp] theorem State.noteSatA_posH (b : Bool) (s : State) : (State.noteSatA b s).posH = s.posH := rfl
@[simp] theorem State.noteSatA_rspR (b : Bool) (s : State) : (State.noteSatA b s).rspR = s.rspR := rfl
@[simp] theorem State.noteSatA_rspH (b : Bool) (s : State) : (State.noteSatA b s).rspH = s.rspH := rfl
@[simp] theorem State.noteSatA_ring (b : Bool) (s : State) : (State.noteSatA b s).ring = s.ring := rfl
@[simp] theorem State.noteSatA_wptr (b : Bool) (s : State) : (State.noteSatA b s).wptr = s.wptr := rfl
@[simp] theorem State.noteSatA_level (b : Bool) (s : State) : (State.noteSatA b s).level = s.level := rfl
@[simp] theorem State.noteSatA_fill (b : Bool) (s : State) : (State.noteSatA b s).fill = s.fill := rfl
@[simp] theorem State.noteSatA_underrunCnt (b : Bool) (s : State) : (State.noteSatA b s).underrunCnt = s.underrunCnt := rfl
@[simp] theorem State.noteSatA_dropCnt (b : Bool) (s : State) : (State.noteSatA b s).dropCnt = s.dropCnt := rfl
@[simp] theorem State.noteSatA_chainP (b : Bool) (s : State) : (State.noteSatA b s).chainP = s.chainP := rfl
@[simp] theorem State.noteSatA_chainA (b : Bool) (s : State) : (State.noteSatA b s).chainA = s.chainA := rfl
@[simp] theorem State.noteSatA_dcEn (b : Bool) (s : State) : (State.noteSatA b s).dcEn = s.dcEn := rfl
@[simp] theorem State.noteSatA_lpfEn (b : Bool) (s : State) : (State.noteSatA b s).lpfEn = s.lpfEn := rfl
@[simp] theorem State.noteSatA_err (b : Bool) (s : State) : (State.noteSatA b s).err = s.err := rfl
@[simp] theorem State.noteSatA_satP (b : Bool) (s : State) : (State.noteSatA b s).satP = s.satP := rfl
@[simp] theorem State.noteSatA_statsValid (b : Bool) (s : State) : (State.noteSatA b s).statsValid = s.statsValid := rfl
@[simp] theorem State.noteSatA_errCause (b : Bool) (s : State) : (State.noteSatA b s).errCause = s.errCause := rfl
@[simp] theorem State.noteSatA_errPort (b : Bool) (s : State) : (State.noteSatA b s).errPort = s.errPort := rfl
@[simp] theorem State.noteSatA_errWord (b : Bool) (s : State) : (State.noteSatA b s).errWord = s.errWord := rfl
@[simp] theorem State.noteSatA_dcR (b : Bool) (s : State) : (State.noteSatA b s).dcR = s.dcR := rfl
@[simp] theorem State.noteSatA_splitThr (b : Bool) (s : State) : (State.noteSatA b s).splitThr = s.splitThr := rfl
@[simp] theorem State.noteSatA_lpfB (b : Bool) (s : State) : (State.noteSatA b s).lpfB = s.lpfB := rfl
@[simp] theorem State.noteSatA_lpfA (b : Bool) (s : State) : (State.noteSatA b s).lpfA = s.lpfA := rfl
@[simp] theorem State.noteSatA_stats (b : Bool) (s : State) : (State.noteSatA b s).stats = s.stats := rfl

@[simp] theorem State.writeCtrl_params (d : Word) (s : State) : (State.writeCtrl d s).params = s.params := rfl
@[simp] theorem State.writeCtrl_inputs (d : Word) (s : State) : (State.writeCtrl d s).inputs = s.inputs := rfl
@[simp] theorem State.writeCtrl_cmdW (d : Word) (s : State) : (State.writeCtrl d s).cmdW = s.cmdW := rfl
@[simp] theorem State.writeCtrl_cmdR (d : Word) (s : State) : (State.writeCtrl d s).cmdR = s.cmdR := rfl
@[simp] theorem State.writeCtrl_cmdH (d : Word) (s : State) : (State.writeCtrl d s).cmdH = s.cmdH := rfl
@[simp] theorem State.writeCtrl_posW (d : Word) (s : State) : (State.writeCtrl d s).posW = s.posW := rfl
@[simp] theorem State.writeCtrl_posR (d : Word) (s : State) : (State.writeCtrl d s).posR = s.posR := rfl
@[simp] theorem State.writeCtrl_posH (d : Word) (s : State) : (State.writeCtrl d s).posH = s.posH := rfl
@[simp] theorem State.writeCtrl_rspR (d : Word) (s : State) : (State.writeCtrl d s).rspR = s.rspR := rfl
@[simp] theorem State.writeCtrl_rspH (d : Word) (s : State) : (State.writeCtrl d s).rspH = s.rspH := rfl
@[simp] theorem State.writeCtrl_ring (d : Word) (s : State) : (State.writeCtrl d s).ring = s.ring := rfl
@[simp] theorem State.writeCtrl_wptr (d : Word) (s : State) : (State.writeCtrl d s).wptr = s.wptr := rfl
@[simp] theorem State.writeCtrl_level (d : Word) (s : State) : (State.writeCtrl d s).level = s.level := rfl
@[simp] theorem State.writeCtrl_fill (d : Word) (s : State) : (State.writeCtrl d s).fill = s.fill := rfl
@[simp] theorem State.writeCtrl_underrunCnt (d : Word) (s : State) : (State.writeCtrl d s).underrunCnt = s.underrunCnt := rfl
@[simp] theorem State.writeCtrl_dropCnt (d : Word) (s : State) : (State.writeCtrl d s).dropCnt = s.dropCnt := rfl
@[simp] theorem State.writeCtrl_chainP (d : Word) (s : State) : (State.writeCtrl d s).chainP = s.chainP := rfl
@[simp] theorem State.writeCtrl_chainA (d : Word) (s : State) : (State.writeCtrl d s).chainA = s.chainA := rfl
@[simp] theorem State.writeCtrl_err (d : Word) (s : State) : (State.writeCtrl d s).err = s.err := rfl
@[simp] theorem State.writeCtrl_satP (d : Word) (s : State) : (State.writeCtrl d s).satP = s.satP := rfl
@[simp] theorem State.writeCtrl_satA (d : Word) (s : State) : (State.writeCtrl d s).satA = s.satA := rfl
@[simp] theorem State.writeCtrl_statsValid (d : Word) (s : State) : (State.writeCtrl d s).statsValid = s.statsValid := rfl
@[simp] theorem State.writeCtrl_errCause (d : Word) (s : State) : (State.writeCtrl d s).errCause = s.errCause := rfl
@[simp] theorem State.writeCtrl_errPort (d : Word) (s : State) : (State.writeCtrl d s).errPort = s.errPort := rfl
@[simp] theorem State.writeCtrl_errWord (d : Word) (s : State) : (State.writeCtrl d s).errWord = s.errWord := rfl
@[simp] theorem State.writeCtrl_dcR (d : Word) (s : State) : (State.writeCtrl d s).dcR = s.dcR := rfl
@[simp] theorem State.writeCtrl_splitThr (d : Word) (s : State) : (State.writeCtrl d s).splitThr = s.splitThr := rfl
@[simp] theorem State.writeCtrl_lpfB (d : Word) (s : State) : (State.writeCtrl d s).lpfB = s.lpfB := rfl
@[simp] theorem State.writeCtrl_lpfA (d : Word) (s : State) : (State.writeCtrl d s).lpfA = s.lpfA := rfl
@[simp] theorem State.writeCtrl_stats (d : Word) (s : State) : (State.writeCtrl d s).stats = s.stats := rfl

@[simp] theorem State.writeStatus_params (d : Word) (s : State) : (State.writeStatus d s).params = s.params := rfl
@[simp] theorem State.writeStatus_inputs (d : Word) (s : State) : (State.writeStatus d s).inputs = s.inputs := rfl
@[simp] theorem State.writeStatus_cmdW (d : Word) (s : State) : (State.writeStatus d s).cmdW = s.cmdW := rfl
@[simp] theorem State.writeStatus_cmdR (d : Word) (s : State) : (State.writeStatus d s).cmdR = s.cmdR := rfl
@[simp] theorem State.writeStatus_cmdH (d : Word) (s : State) : (State.writeStatus d s).cmdH = s.cmdH := rfl
@[simp] theorem State.writeStatus_posW (d : Word) (s : State) : (State.writeStatus d s).posW = s.posW := rfl
@[simp] theorem State.writeStatus_posR (d : Word) (s : State) : (State.writeStatus d s).posR = s.posR := rfl
@[simp] theorem State.writeStatus_posH (d : Word) (s : State) : (State.writeStatus d s).posH = s.posH := rfl
@[simp] theorem State.writeStatus_rspR (d : Word) (s : State) : (State.writeStatus d s).rspR = s.rspR := rfl
@[simp] theorem State.writeStatus_rspH (d : Word) (s : State) : (State.writeStatus d s).rspH = s.rspH := rfl
@[simp] theorem State.writeStatus_ring (d : Word) (s : State) : (State.writeStatus d s).ring = s.ring := rfl
@[simp] theorem State.writeStatus_wptr (d : Word) (s : State) : (State.writeStatus d s).wptr = s.wptr := rfl
@[simp] theorem State.writeStatus_level (d : Word) (s : State) : (State.writeStatus d s).level = s.level := rfl
@[simp] theorem State.writeStatus_fill (d : Word) (s : State) : (State.writeStatus d s).fill = s.fill := rfl
@[simp] theorem State.writeStatus_underrunCnt (d : Word) (s : State) : (State.writeStatus d s).underrunCnt = s.underrunCnt := rfl
@[simp] theorem State.writeStatus_dropCnt (d : Word) (s : State) : (State.writeStatus d s).dropCnt = s.dropCnt := rfl
@[simp] theorem State.writeStatus_chainP (d : Word) (s : State) : (State.writeStatus d s).chainP = s.chainP := rfl
@[simp] theorem State.writeStatus_chainA (d : Word) (s : State) : (State.writeStatus d s).chainA = s.chainA := rfl
@[simp] theorem State.writeStatus_dcEn (d : Word) (s : State) : (State.writeStatus d s).dcEn = s.dcEn := rfl
@[simp] theorem State.writeStatus_lpfEn (d : Word) (s : State) : (State.writeStatus d s).lpfEn = s.lpfEn := rfl
@[simp] theorem State.writeStatus_statsValid (d : Word) (s : State) : (State.writeStatus d s).statsValid = s.statsValid := rfl
@[simp] theorem State.writeStatus_errCause (d : Word) (s : State) : (State.writeStatus d s).errCause = s.errCause := rfl
@[simp] theorem State.writeStatus_errPort (d : Word) (s : State) : (State.writeStatus d s).errPort = s.errPort := rfl
@[simp] theorem State.writeStatus_errWord (d : Word) (s : State) : (State.writeStatus d s).errWord = s.errWord := rfl
@[simp] theorem State.writeStatus_dcR (d : Word) (s : State) : (State.writeStatus d s).dcR = s.dcR := rfl
@[simp] theorem State.writeStatus_splitThr (d : Word) (s : State) : (State.writeStatus d s).splitThr = s.splitThr := rfl
@[simp] theorem State.writeStatus_lpfB (d : Word) (s : State) : (State.writeStatus d s).lpfB = s.lpfB := rfl
@[simp] theorem State.writeStatus_lpfA (d : Word) (s : State) : (State.writeStatus d s).lpfA = s.lpfA := rfl
@[simp] theorem State.writeStatus_stats (d : Word) (s : State) : (State.writeStatus d s).stats = s.stats := rfl

/-! ### Fields an operation writes -/

@[simp] theorem State.advance_pos_self (p : Port) (len : Nat) (s : State) :
    (State.advance p len s).pos p = s.pos p + len := by cases p <;> rfl

theorem State.advance_pos_other (p q : Port) (len : Nat) (s : State) (h : q ≠ p) :
    (State.advance p len s).pos q = s.pos q := by cases p <;> cases q <;> first | rfl | exact absurd rfl h

@[simp] theorem State.advance_posW (len : Nat) (s : State) : (State.advance .W len s).posW = s.posW + len := rfl
@[simp] theorem State.advance_posR (len : Nat) (s : State) : (State.advance .R len s).posR = s.posR + len := rfl
@[simp] theorem State.advance_posH (len : Nat) (s : State) : (State.advance .H len s).posH = s.posH + len := rfl
@[simp] theorem State.advance_W_posR (len : Nat) (s : State) : (State.advance .W len s).posR = s.posR := rfl
@[simp] theorem State.advance_W_posH (len : Nat) (s : State) : (State.advance .W len s).posH = s.posH := rfl
@[simp] theorem State.advance_R_posW (len : Nat) (s : State) : (State.advance .R len s).posW = s.posW := rfl
@[simp] theorem State.advance_R_posH (len : Nat) (s : State) : (State.advance .R len s).posH = s.posH := rfl
@[simp] theorem State.advance_H_posW (len : Nat) (s : State) : (State.advance .H len s).posW = s.posW := rfl
@[simp] theorem State.advance_H_posR (len : Nat) (s : State) : (State.advance .H len s).posR = s.posR := rfl

@[simp] theorem State.advance_stream (p q : Port) (len : Nat) (s : State) :
    (State.advance p len s).stream q = s.stream q := by cases p <;> cases q <;> rfl

@[simp] theorem State.setStream_self (p : Port) (ws : List Word) (s : State) :
    (State.setStream p ws s).stream p = ws := by cases p <;> rfl

theorem State.setStream_other (p q : Port) (ws : List Word) (s : State) (h : q ≠ p) :
    (State.setStream p ws s).stream q = s.stream q := by cases p <;> cases q <;> first | rfl | exact absurd rfl h

@[simp] theorem State.setStream_pos (p q : Port) (ws : List Word) (s : State) :
    (State.setStream p ws s).pos q = s.pos q := by cases p <;> cases q <;> rfl

@[simp] theorem State.emit_pos (p q : Port) (ws : List Word) (s : State) :
    (State.emit p ws s).pos q = s.pos q := by cases p <;> cases q <;> rfl

@[simp] theorem State.emit_stream (p q : Port) (ws : List Word) (s : State) :
    (State.emit p ws s).stream q = s.stream q := by cases p <;> cases q <;> rfl

@[simp] theorem State.emit_R_rspR (ws : List Word) (s : State) : (State.emit .R ws s).rspR = s.rspR ++ ws := rfl
@[simp] theorem State.emit_R_rspH (ws : List Word) (s : State) : (State.emit .R ws s).rspH = s.rspH := rfl
@[simp] theorem State.emit_H_rspH (ws : List Word) (s : State) : (State.emit .H ws s).rspH = s.rspH ++ ws := rfl
@[simp] theorem State.emit_H_rspR (ws : List Word) (s : State) : (State.emit .H ws s).rspR = s.rspR := rfl
@[simp] theorem State.emit_W (ws : List Word) (s : State) : State.emit .W ws s = s := rfl

@[simp] theorem State.cmdError_err (c : Cause) (p : Port) (w0 : Word) (s : State) :
    (State.cmdError c p w0 s).err = true := by cases p <;> rfl

@[simp] theorem State.cmdError_pos_self (c : Cause) (p : Port) (w0 : Word) (s : State) :
    (State.cmdError c p w0 s).pos p = s.pos p + cmdLen w0 := by
  cases p <;> rfl

@[simp] theorem State.cmdError_stream (c : Cause) (p q : Port) (w0 : Word) (s : State) :
    (State.cmdError c p w0 s).stream q = s.stream q := by cases q <;> simp [State.stream]

theorem State.cmdError_errCause (c : Cause) (p : Port) (w0 : Word) (s : State) :
    (State.cmdError c p w0 s).errCause = if s.err then s.errCause else c.code := by
  cases p <;> rfl

theorem State.cmdError_errPort (c : Cause) (p : Port) (w0 : Word) (s : State) :
    (State.cmdError c p w0 s).errPort = if s.err then s.errPort else p.code := by
  cases p <;> rfl

theorem State.cmdError_errWord (c : Cause) (p : Port) (w0 : Word) (s : State) :
    (State.cmdError c p w0 s).errWord = if s.err then s.errWord else w0 := by
  cases p <;> rfl

@[simp] theorem State.memWrite_ring (i : Nat) (x : Sample) (s : State) :
    (State.memWrite i x s).ring = Memory.set s.ring i x := rfl

@[simp] theorem State.pushSample_ring (x : Sample) (s : State) :
    (State.pushSample x s).ring = Memory.set s.ring s.wptr x := rfl

@[simp] theorem State.pushSample_wptr (x : Sample) (s : State) :
    (State.pushSample x s).wptr = modC s.params.capacity (s.wptr + 1) := rfl

@[simp] theorem State.pushSample_level (x : Sample) (s : State) : (State.pushSample x s).level =
    if s.level = s.params.capacity then s.level else s.level + 1 := rfl

@[simp] theorem State.pushSample_fill (x : Sample) (s : State) :
    (State.pushSample x s).fill = min (s.fill + 1) s.params.capacity := rfl

@[simp] theorem State.pushSample_dropCnt (x : Sample) (s : State) : (State.pushSample x s).dropCnt =
    if s.level = s.params.capacity then s.dropCnt + 1#32 else s.dropCnt := rfl

@[simp] theorem State.popCount_level (n : Nat) (s : State) :
    (State.popCount n s).level = s.level - min n s.level := rfl

@[simp] theorem State.popCount_underrunCnt (n : Nat) (s : State) : (State.popCount n s).underrunCnt =
    if min n s.level < n then s.underrunCnt + 1#32 else s.underrunCnt := rfl

@[simp] theorem State.noteSatP_satP (b : Bool) (s : State) : (State.noteSatP b s).satP = (s.satP || b) := rfl
@[simp] theorem State.noteSatA_satA (b : Bool) (s : State) : (State.noteSatA b s).satA = (s.satA || b) := rfl
@[simp] theorem State.writeCtrl_dcEn (d : Word) (s : State) : (State.writeCtrl d s).dcEn = d.getLsbD 0 := rfl
@[simp] theorem State.writeCtrl_lpfEn (d : Word) (s : State) : (State.writeCtrl d s).lpfEn = d.getLsbD 1 := rfl

@[simp] theorem State.writeStatus_err (d : Word) (s : State) :
    (State.writeStatus d s).err = (s.err && !d.getLsbD 0) := rfl

@[simp] theorem State.writeStatus_satP (d : Word) (s : State) :
    (State.writeStatus d s).satP = (s.satP && !d.getLsbD 1) := rfl

@[simp] theorem State.writeStatus_satA (d : Word) (s : State) :
    (State.writeStatus d s).satA = (s.satA && !d.getLsbD 2) := rfl

end Sys2Proof.Machine
end

