-- ==== Sys2Proof/Laws/Exec.lean ====
section
/-! SUPPORT. What each meaning answers, once: on a port that accepts the command its effect, on any other WRONG_PORT.
Every meaning answers a next state. -/

namespace Sys2Proof.Machine

/-! ### Ports -/

theorem wellFormed_push (p : Port) (x : BitVec 16) : (Instr.push p x).wellFormed = true ↔ p = .W := by
  cases p <;> simp [Instr.wellFormed, Instr.opcode, Instr.port, acceptedOn]

theorem wellFormed_popBlock (p : Port) (f : Bool) (n : BitVec 16) :
    (Instr.popBlock p f n).wellFormed = true ↔ p = .R := by
  cases p <;> simp [Instr.wellFormed, Instr.opcode, Instr.port, acceptedOn]

theorem wellFormed_snapshot (p : Port) (n : BitVec 16) : (Instr.snapshot p n).wellFormed = true ↔ p = .H := by
  cases p <;> simp [Instr.wellFormed, Instr.opcode, Instr.port, acceptedOn]

theorem wellFormed_analyze (p : Port) (f : Bool) (n : BitVec 16) :
    (Instr.analyze p f n).wellFormed = true ↔ p = .H := by
  cases p <;> simp [Instr.wellFormed, Instr.opcode, Instr.port, acceptedOn]

theorem wellFormed_reset (p : Port) (m : BitVec 5) : (Instr.reset p m).wellFormed = true ↔ p = .H := by
  cases p <;> simp [Instr.wellFormed, Instr.opcode, Instr.port, acceptedOn]

theorem wellFormed_csrRead (p : Port) (a : BitVec 8) : (Instr.csrRead p a).wellFormed = true ↔ p = .H := by
  cases p <;> simp [Instr.wellFormed, Instr.opcode, Instr.port, acceptedOn]

theorem wellFormed_csrWrite (p : Port) (a : BitVec 8) (d : Word) :
    (Instr.csrWrite p a d).wellFormed = true ↔ p = .H := by
  cases p <;> simp [Instr.wellFormed, Instr.opcode, Instr.port, acceptedOn]

theorem wellFormed_nop (p : Port) (h : BitVec 28) : (Instr.nop p h).wellFormed = true := by
  cases p <;> rfl

/-! ### Meanings on the port that accepts them -/

theorem exec_nop (p : Port) (h : BitVec 28) (s : State) : exec (.nop p h) s = .next (State.advance p 1 s) := by
  cases p <;> rfl

theorem exec_push (x : BitVec 16) (s : State) :
    exec (.push .W x) s = .next (State.advance .W 1 (State.pushSample x s)) := rfl

theorem exec_popBlock (f : Bool) (n : BitVec 16) (s : State) :
    exec (.popBlock .R f n) s = .next (State.popBlock .R f n.toNat s) := rfl

theorem exec_snapshot (n : BitVec 16) (s : State) : exec (.snapshot .H n) s = .next
    (if s.params.capacity < n.toNat then State.cmdError .badLen .H (Instr.snapshot .H n).header s
      else State.snapshot .H n.toNat s) := rfl

theorem exec_analyze (f : Bool) (n : BitVec 16) (s : State) : exec (.analyze .H f n) s = .next
    (if n.toNat = 0 ∨ s.params.capacity < n.toNat then
        State.cmdError .badLen .H (Instr.analyze .H f n).header s
      else State.analyze .H f n.toNat s) := rfl

theorem exec_reset (m : BitVec 5) (s : State) :
    exec (.reset .H m) s = .next (State.advance .H 1 (State.resetParts m s)) := rfl

theorem exec_csrRead (a : BitVec 8) (s : State) : exec (.csrRead .H a) s = .next (State.csrRead .H a s) := rfl

theorem exec_csrWrite (a : BitVec 8) (d : Word) (s : State) :
    exec (.csrWrite .H a d) s = .next (State.csrWrite .H a d s) := rfl

/-! ### Any port -/

/-- On a port that does not accept it a command raises WRONG_PORT and nothing else (R108). -/
theorem exec_wrongPort (i : Instr) (s : State) (h : i.wellFormed = false) :
    exec i s = .next (State.cmdError .wrongPort i.port i.header s) := by
  cases i <;>
    simp_all [exec, execNop, execPush, execPopBlock, execSnapshot, execAnalyze, execReset, execCsrRead, execCsrWrite,
      State.onPort, Instr.port]

/-- Everything a command can do, case by case: it stands on a port that does not accept it, or it has its own
effect. -/
theorem exec_cases (i : Instr) (s : State) :
    (i.wellFormed = false ∧ exec i s = .next (State.cmdError .wrongPort i.port i.header s)) ∨
    (∃ p h, i = .nop p h ∧ exec i s = .next (State.advance p 1 s)) ∨
    (∃ x, i = .push .W x ∧ exec i s = .next (State.advance .W 1 (State.pushSample x s))) ∨
    (∃ f n, i = .popBlock .R f n ∧ exec i s = .next (State.popBlock .R f n.toNat s)) ∨
    (∃ n, i = .snapshot .H n ∧ exec i s = .next
      (if s.params.capacity < n.toNat then State.cmdError .badLen .H (Instr.snapshot .H n).header s
        else State.snapshot .H n.toNat s)) ∨
    (∃ f n, i = .analyze .H f n ∧ exec i s = .next
      (if n.toNat = 0 ∨ s.params.capacity < n.toNat then
          State.cmdError .badLen .H (Instr.analyze .H f n).header s
        else State.analyze .H f n.toNat s)) ∨
    (∃ m, i = .reset .H m ∧ exec i s = .next (State.advance .H 1 (State.resetParts m s))) ∨
    (∃ a, i = .csrRead .H a ∧ exec i s = .next (State.csrRead .H a s)) ∨
    (∃ a d, i = .csrWrite .H a d ∧ exec i s = .next (State.csrWrite .H a d s)) := by
  cases hw : i.wellFormed with
  | false => exact .inl ⟨rfl, exec_wrongPort i s hw⟩
  | true =>
    right
    cases i with
    | nop p h => exact .inl ⟨p, h, rfl, exec_nop p h s⟩
    | push p x =>
      obtain rfl := (wellFormed_push p x).mp hw
      exact .inr (.inl ⟨x, rfl, exec_push x s⟩)
    | popBlock p f n =>
      obtain rfl := (wellFormed_popBlock p f n).mp hw
      exact .inr (.inr (.inl ⟨f, n, rfl, exec_popBlock f n s⟩))
    | snapshot p n =>
      obtain rfl := (wellFormed_snapshot p n).mp hw
      exact .inr (.inr (.inr (.inl ⟨n, rfl, exec_snapshot n s⟩)))
    | analyze p f n =>
      obtain rfl := (wellFormed_analyze p f n).mp hw
      exact .inr (.inr (.inr (.inr (.inl ⟨f, n, rfl, exec_analyze f n s⟩))))
    | reset p m =>
      obtain rfl := (wellFormed_reset p m).mp hw
      exact .inr (.inr (.inr (.inr (.inr (.inl ⟨m, rfl, exec_reset m s⟩)))))
    | csrRead p a =>
      obtain rfl := (wellFormed_csrRead p a).mp hw
      exact .inr (.inr (.inr (.inr (.inr (.inr (.inl ⟨a, rfl, exec_csrRead a s⟩))))))
    | csrWrite p a d =>
      obtain rfl := (wellFormed_csrWrite p a d).mp hw
      exact .inr (.inr (.inr (.inr (.inr (.inr (.inr ⟨a, d, rfl, exec_csrWrite a d s⟩))))))

/-- Every meaning answers a next state (R303). -/
theorem exec_next (i : Instr) (s : State) : ∃ t, exec i s = .next t := by
  cases i <;> exact ⟨_, rfl⟩

end Sys2Proof.Machine
end

