-- ==== Sys2Proof/Laws/Csr.lean ====
section
/-! SUPPORT. The CSR space: which address is which register, and what CSR_READ and CSR_WRITE can answer. -/

namespace Sys2Proof.Machine

/-- An address is unmapped exactly outside the four ranges of R65; a register is read-only exactly at the addresses of
R275; and STATUS stands at address 3 only. -/
theorem csrOf_spec (N : Nat) (a : BitVec 8) : (csrOf N a = none ↔ ¬mappedAddr N a.toNat) ∧
    ∀ c, csrOf N a = some c → (c.readOnly = true ↔ readOnlyAddr a.toNat) ∧ (c = .status ↔ a = 3#8) := by
  have h3 : a = 3#8 ↔ a.toNat = 3 := by rw [← BitVec.toNat_inj]; rfl
  rw [h3]
  unfold csrOf mappedAddr readOnlyAddr
  split
  case h_24 =>
    simp only [imp_false] at *
    split
    · constructor
      · simp; omega
      · intro c hc; injection hc with hc; subst hc; simp [Csr.readOnly]; omega
    · split
      · constructor
        · simp; omega
        · intro c hc; injection hc with hc; subst hc; simp [Csr.readOnly]; omega
      · constructor
        · simp; omega
        · intro c hc; cases hc
  all_goals
    rename_i e
    refine ⟨by simp [e], ?_⟩
    intro c hc; injection hc with hc; subst hc; simp [Csr.readOnly, e]

theorem csrOf_lpfB (N : Nat) (hN : N ≤ 4) (k : Nat) (h : k ≤ N) :
    csrOf N (BitVec.ofNat 8 (0x10 + k)) = some (.lpfB k) := by
  interval_cases N <;> interval_cases k <;> rfl

theorem csrOf_lpfA (N : Nat) (hN : N ≤ 4) (k : Nat) (h0 : 1 ≤ k) (h : k ≤ N) :
    csrOf N (BitVec.ofNat 8 (0x20 + k)) = some (.lpfA k) := by
  interval_cases N <;> interval_cases k <;> rfl

/-- CSR_READ emits one word, and raises an error or moves on (R270, R272). -/
theorem csrRead_cases (p : Port) (a : BitVec 8) (s : State) :
    (csrOf s.params.lpfOrder a = none ∧ State.csrRead p a s =
      State.cmdError .badCsrAddr p (Instr.csrRead p a).header (State.emit p [0#32] s)) ∨
    ∃ c, csrOf s.params.lpfOrder a = some c ∧
      State.csrRead p a s = State.advance p 1 (State.emit p [s.csrValue c] s) := by
  unfold State.csrRead
  split
  · rename_i h; exact .inl ⟨h, rfl⟩
  · rename_i c h; exact .inr ⟨c, h, rfl⟩

/-- CSR_WRITE raises BAD_CSR_ADDR or CSR_READ_ONLY, or writes (R275). -/
theorem csrWrite_cases (p : Port) (a : BitVec 8) (d : Word) (s : State) :
    (csrOf s.params.lpfOrder a = none ∧
      State.csrWrite p a d s = State.cmdError .badCsrAddr p (Instr.csrWrite p a d).header s) ∨
    (∃ c, csrOf s.params.lpfOrder a = some c ∧ c.readOnly = true ∧
      State.csrWrite p a d s = State.cmdError .csrReadOnly p (Instr.csrWrite p a d).header s) ∨
    ∃ c, csrOf s.params.lpfOrder a = some c ∧ c.readOnly = false ∧
      State.csrWrite p a d s = State.advance p 2 (State.csrStore c d s) := by
  unfold State.csrWrite
  split
  · rename_i h; exact .inl ⟨h, rfl⟩
  · rename_i c h
    cases hr : c.readOnly with
    | true => exact .inr (.inl ⟨c, h, hr, by simp⟩)
    | false => exact .inr (.inr ⟨c, h, hr, by simp⟩)

/-- A CSR write reaches the configuration and STATUS bits 0 to 2, and nothing else (R275). -/
theorem csrStore_frame (c : Csr) (d : Word) (s : State) : State.csrStore c d s =
    { s with
      dcEn := (State.csrStore c d s).dcEn
      lpfEn := (State.csrStore c d s).lpfEn
      err := (State.csrStore c d s).err
      satP := (State.csrStore c d s).satP
      satA := (State.csrStore c d s).satA
      dcR := (State.csrStore c d s).dcR
      splitThr := (State.csrStore c d s).splitThr
      lpfB := (State.csrStore c d s).lpfB
      lpfA := (State.csrStore c d s).lpfA } := by
  cases c <;> rfl

/-- Only a write of STATUS changes ERR, SAT_P or SAT_A, and it only clears them. -/
theorem csrStore_flags (c : Csr) (d : Word) (s : State) :
    ((State.csrStore c d s).err = s.err ∧ (State.csrStore c d s).satP = s.satP ∧
      (State.csrStore c d s).satA = s.satA) ∨
    (c = .status ∧ (State.csrStore c d s).err = (s.err && !d.getLsbD 0) ∧
      (State.csrStore c d s).satP = (s.satP && !d.getLsbD 1) ∧
      (State.csrStore c d s).satA = (s.satA && !d.getLsbD 2)) := by
  cases c
  case status => exact .inr ⟨rfl, rfl, rfl, rfl⟩
  all_goals exact .inl ⟨rfl, rfl, rfl⟩

end Sys2Proof.Machine
end

