-- ==== Sys2Proof/Laws/Encoding.lean ====
section
/-! SUPPORT. The fields of a header word, and what decoding reads from them (R102, R103, R109). -/

namespace Sys2Proof

/-- Bits 31:28 of a command's header are its opcode. -/
theorem header_opcode (i : Instr) : opcodeOf i.header = i.opcode := by
  cases i <;> simp only [opcodeOf, Instr.header, Instr.opcode] <;>
  · apply BitVec.eq_of_getLsbD_eq
    intro j hj
    simp only [BitVec.getLsbD_extractLsb', BitVec.getLsbD_append, hj, decide_true, Bool.true_and]
    repeat rw [if_neg (by omega)]
    first | rfl | (congr 1; omega)

/-- The reserved bits of a command's header are 0. -/
theorem header_rsv (i : Instr) : i.header &&& rsvMask i.opcode = 0#32 := by
  rw [BitVec.and_comm]
  cases i <;> simp only [Instr.header, Instr.opcode] <;>
  · apply BitVec.eq_of_getLsbD_eq
    intro j hj
    simp only [BitVec.getLsbD_and, BitVec.getLsbD_append]
    interval_cases j <;> rfl

/-- The lowest field of a concatenation. -/
theorem field_low {k n : Nat} (a : BitVec k) (c : BitVec n) : (a ++ c).extractLsb' 0 n = c := by
  apply BitVec.eq_of_getLsbD_eq
  intro j hj
  simp only [BitVec.getLsbD_extractLsb', BitVec.getLsbD_append, hj, decide_true, Bool.true_and, Nat.zero_add, if_true]

/-- The F bit of format B. -/
theorem field_f (op : BitVec 4) (f : Bool) (n : BitVec 16) : (op ++ BitVec.ofBool f ++ 0#11 ++ n).getLsbD 27 = f := by
  simp only [BitVec.getLsbD_append]
  cases f <;> rfl

/-- Operand assembly reads a command back from its own words. -/
theorem header_operands (i : Instr) (w1 : Word) (h1 : ∀ d, i.dataWords = [d] → w1 = d) :
    operandsOf i.port i.header w1 = i := by
  have h := header_opcode i
  unfold operandsOf
  rw [h]
  cases i with
  | csrWrite p a d => obtain rfl := h1 d rfl; simp only [Instr.header, Instr.opcode, Instr.port, field_low]; rfl
  | popBlock p f n => simp only [Instr.header, Instr.opcode, Instr.port, field_low, field_f]; rfl
  | analyze p f n => simp only [Instr.header, Instr.opcode, Instr.port, field_low, field_f]; rfl
  | _ => simp only [Instr.header, Instr.opcode, Instr.port, field_low]; rfl

theorem opcode_lt (i : Instr) : ¬ (0x8#4 ≤ i.opcode) := by cases i <;> (simp only [Instr.opcode]; decide)

/-- A well-formed command decodes from its own words. -/
theorem decode_header (i : Instr) (w1 : Word) (h : i.wellFormed = true) (h1 : ∀ d, i.dataWords = [d] → w1 = d) :
    decode i.port i.header w1 = .ok i := by
  unfold decode
  rw [header_opcode, if_neg (opcode_lt i), if_neg (by simpa [Instr.wellFormed] using h), if_neg (by simp [header_rsv]),
    header_operands i w1 h1]

/-- The length the header gives is the number of words encoded. -/
theorem cmdLen_header (i : Instr) : cmdLen i.header = 1 + i.dataWords.length := by
  unfold cmdLen; rw [header_opcode]; cases i <;> rfl

/-- A header is its opcode and its operand bits. -/
theorem header_split (w : Word) : w = opcodeOf w ++ w.extractLsb' 0 28 := by
  apply BitVec.eq_of_getLsbD_eq
  intro j hj
  simp only [opcodeOf, BitVec.getLsbD_append, BitVec.getLsbD_extractLsb']
  by_cases h : j < 28
  · simp [h]
  · rw [if_neg h, show 28 + (j - 28) = j by omega]
    simp; omega

/-- The opcodes that are not reserved (R104, R105). -/
theorem opcode_cases (op : BitVec 4) (h : ¬0x8#4 ≤ op) :
    op = 0x0#4 ∨ op = 0x1#4 ∨ op = 0x2#4 ∨ op = 0x3#4 ∨ op = 0x4#4 ∨ op = 0x5#4 ∨ op = 0x6#4 ∨ op = 0x7#4 := by
  revert op; decide

/-- A header whose reserved bits are 0 is the header of the command it decodes to. -/
theorem header_operandsOf (p : Port) (w0 w1 : Word) (h1 : ¬ 0x8#4 ≤ opcodeOf w0)
    (h3 : w0 &&& rsvMask (opcodeOf w0) = 0#32) :
    (operandsOf p w0 w1).header = w0 ∧ (operandsOf p w0 w1).opcode = opcodeOf w0 ∧ (operandsOf p w0 w1).port = p ∧
     (operandsOf p w0 w1).dataWords = if opcodeOf w0 = 0x7#4 then [w1] else [] := by
  have hop := opcode_cases _ h1
  have hb : ∀ j, (w0.getLsbD j && (rsvMask (opcodeOf w0)).getLsbD j) = false := by
    intro j
    rw [← BitVec.getLsbD_and, h3]; simp
  have ho : ∀ j, 28 ≤ j → j < 32 → w0.getLsbD j = (opcodeOf w0).getLsbD (j - 28) := by
    intro j hj hj'
    simp only [opcodeOf, BitVec.getLsbD_extractLsb', show 28 + (j - 28) = j by omega, show j - 28 < 4 by omega,
      decide_true, Bool.true_and]
  rcases hop with e | e | e | e | e | e | e | e <;> rw [e] at ho hb <;>
  · unfold operandsOf
    rw [e]
    refine ⟨?_, rfl, rfl, rfl⟩
    simp only [BitVec.toNat_ofNat, Nat.reducePow, Nat.reduceMod, Instr.header]
    apply BitVec.eq_of_getLsbD_eq
    intro j hj
    have hbj := hb j
    have hoj := ho j
    clear hb ho h3 e h1
    generalize hg : w0.getLsbD = g at *
    simp only [BitVec.getLsbD_append, BitVec.getLsbD_extractLsb', hg]
    interval_cases j <;> simp_all [rsvMask]

end Sys2Proof
end

