-- ==== Sys2Proof/Laws/Filters.lean ====
section
/-! SUPPORT. The filter datapath: lengths, what a stage leaves, and the bound that keeps DC_Y from wrapping. -/

namespace Sys2Proof.Machine

@[simp] theorem chainBlock_length (g : FilterCfg) (c : Chain) (xs : List Sample) :
    (chainBlock g c xs).ys.length = xs.length := by
  induction xs generalizing c with
  | nil => rfl
  | cons x xs ih => simp [chainBlock, ih]

/-- Everything a block through a chain can give (R203). -/
theorem chainBlock_stepsThrough (g : FilterCfg) (c : Chain) (xs : List Sample) :
    StepsThrough g c xs (chainBlock g c xs) := by
  induction xs generalizing c with
  | nil => exact ⟨fun _ => c, rfl, rfl, rfl, by simp, by simp [chainBlock]⟩
  | cons x xs ih =>
    obtain ⟨at', h0, hc, hl, hs, hsat⟩ := ih (chainStep g c x).chain
    refine ⟨fun | 0 => c | k + 1 => at' k, rfl, hc, by simp, ?_, ?_⟩
    · rintro (_ | k) y hy
      · obtain rfl : x = y := by simpa using hy
        exact ⟨rfl, h0⟩
      · exact hs k y (by simpa using hy)
    · show ((chainStep g c x).sat || (chainBlock g _ xs).sat) = true ↔ _
      rw [Bool.or_eq_true, hsat]
      constructor
      · rintro (h | ⟨k, y, hy, h⟩)
        · exact ⟨0, x, rfl, h⟩
        · exact ⟨k + 1, y, hy, h⟩
      · rintro ⟨_ | k, y, hy, h⟩
        · obtain rfl : x = y := by simpa using hy
          exact .inl h
        · exact .inr ⟨k, y, by simpa using hy, h⟩

@[simp] theorem chainBlockIf_length (f : Bool) (g : FilterCfg) (c : Chain) (xs : List Sample) :
    (chainBlockIf f g c xs).ys.length = xs.length := by
  cases f <;> simp [chainBlockIf]

@[simp] theorem chainBlockIf_false (g : FilterCfg) (c : Chain) (xs : List Sample) :
    chainBlockIf false g c xs = { ys := xs, sat := false, chain := c } := rfl

@[simp] theorem chainBlockIf_true (g : FilterCfg) (c : Chain) (xs : List Sample) :
    chainBlockIf true g c xs = chainBlock g c xs := rfl

theorem shiftIn_length (N : Nat) (v : Sample) (h : List Sample) (hl : h.length = N) :
    (shiftIn N v h).length = N := by
  simp [shiftIn, hl]

theorem sample_range (x : Sample) : -32768 ≤ sext x ∧ sext x ≤ 32767 := by
  have h1 := BitVec.le_toInt x
  have h2 := BitVec.toInt_lt (x := x)
  unfold sext
  norm_num at h1 h2
  omega

/-- While DC_Y is near 65536 times its input it stays so, whatever the coefficient and the next input (R186). -/
theorem dcExact_near (N : Nat) (c : Chain) (r : BitVec 16) (x : Sample) (h : Chain.Inv N c) :
    |dcExact r c x - 65536 * sext x| < 2 ^ 31 + 2 ^ 16 := by
  obtain ⟨-, -, hz⟩ := h
  have hX := sample_range c.dcX
  have hr : r.toNat < 65536 := r.isLt
  obtain ⟨ht, hsgn⟩ := tdiv_spec ((r.toNat : Int) * sext c.dcY) 65536 (by norm_num)
  unfold dcExact
  set t := tdiv ((r.toNat : Int) * sext c.dcY) 65536
  set Y := sext c.dcY
  set X := sext c.dcX
  set R : Int := (r.toNat : Int) with hR
  have hR0 : 0 ≤ R := by omega
  have hR1 : R ≤ 65535 := by omega
  rw [abs_lt] at *
  obtain ⟨hz1, hz2⟩ := hz
  -- 65536 * (t - 65536 X) = R (Y - 65536 X) - 65536 (65536 - R) X - e, with |e| < 65536
  have key : 65536 * (t - 65536 * X) = R * (Y - 65536 * X) - (65536 - R) * (65536 * X) - (R * Y - 65536 * t) := by ring
  have m1 : R * (Y - 65536 * X) ≤ R * (2 ^ 31 + 2 ^ 16) := mul_le_mul_of_nonneg_left hz2.le hR0
  have m2 : -(R * (2 ^ 31 + 2 ^ 16)) ≤ R * (Y - 65536 * X) := by
    rw [← mul_neg]; exact mul_le_mul_of_nonneg_left hz1.le hR0
  have m3 : (65536 - R) * (65536 * X) ≤ (65536 - R) * 2 ^ 31 :=
    mul_le_mul_of_nonneg_left (by omega) (by omega)
  have m4 : -((65536 - R) * 2 ^ 31) ≤ (65536 - R) * (65536 * X) := by
    rw [← mul_neg]; exact mul_le_mul_of_nonneg_left (by omega) (by omega)
  have e : (sext x - X) * 65536 + t - 65536 * sext x = t - 65536 * X := by ring
  rw [e]
  constructor <;> omega

theorem near_bound (X Y : Int) (hX : -32768 ≤ X ∧ X ≤ 32767) (h : |Y - 65536 * X| < 2 ^ 31 + 2 ^ 16) :
    |Y| < 2 ^ 32 + 2 ^ 16 := by
  rw [abs_lt] at *
  omega

/-- The 40-bit wrap of the DC blocker is not active while its state is near its input (R186). -/
theorem dcStep_dcY (N : Nat) (c : Chain) (r : BitVec 16) (x : Sample) (h : Chain.Inv N c) :
    sext (dcStep r c x).chain.dcY = dcExact r c x := by
  have h1 := near_bound (sext x) (dcExact r c x) (sample_range x) (dcExact_near N c r x h)
  rw [abs_lt] at h1
  have h2 : wrapS 40 (dcExact r c x) = dcExact r c x := wrapS_of_range _ (by omega) (by omega)
  show (BitVec.ofInt 40 (wrapS 40 (dcExact r c x))).toInt = _
  rw [toInt_ofInt_wrapS, h2]

theorem dcStep_inv (N : Nat) (c : Chain) (r : BitVec 16) (x : Sample) (h : Chain.Inv N c) :
    Chain.Inv N (dcStep r c x).chain := by
  refine ⟨h.1, h.2.1, ?_⟩
  rw [dcStep_dcY N c r x h]
  exact dcExact_near N c r x h

theorem lpfStep_inv (N : Nat) (g : FilterCfg) (c : Chain) (x : Sample) (hg : g.order = N) (h : Chain.Inv N c) :
    Chain.Inv N (lpfStep g c x).chain := by
  subst hg
  exact ⟨shiftIn_length _ _ _ h.1, shiftIn_length _ _ _ h.2.1, h.2.2⟩

theorem chainStep_inv (N : Nat) (g : FilterCfg) (c : Chain) (x : Sample) (hg : g.order = N) (h : Chain.Inv N c) :
    Chain.Inv N (chainStep g c x).chain := by
  have h1 : Chain.Inv N (if g.dcEn then dcStep g.rCode c x else passThrough c x).chain := by
    split
    · exact dcStep_inv N c _ x h
    · exact h
  show Chain.Inv N (if g.lpfEn then lpfStep g _ _ else passThrough _ _).chain
  split
  · exact lpfStep_inv N g _ _ hg h1
  · exact h1

theorem chainBlock_inv (N : Nat) (g : FilterCfg) (c : Chain) (xs : List Sample) (hg : g.order = N)
    (h : Chain.Inv N c) : Chain.Inv N (chainBlock g c xs).chain := by
  induction xs generalizing c with
  | nil => exact h
  | cons x xs ih => exact ih _ (chainStep_inv N g c x hg h)

theorem chainBlockIf_inv (N : Nat) (f : Bool) (g : FilterCfg) (c : Chain) (xs : List Sample) (hg : g.order = N)
    (h : Chain.Inv N c) : Chain.Inv N (chainBlockIf f g c xs).chain := by
  cases f
  · exact h
  · exact chainBlock_inv N g c xs hg h

theorem cleared_inv (N : Nat) : Chain.Inv N (Chain.cleared N) := by
  refine ⟨by simp [Chain.cleared], by simp [Chain.cleared], ?_⟩
  show |sext (0#40) - 65536 * sext (0#16)| < _
  norm_num [sext]

/-- A sample sign-extends to its response word (R145). -/
theorem sampleWord_eq (v : Sample) : (BitVec.ofInt 32 (sext v)) = v.signExtend 32 := rfl

end Sys2Proof.Machine
end

