-- ==== Sys2Proof/Laws/PerInstr.lean ====
section
/-! SUPPORT. A statement about every command as syntax, one lemma per constructor. -/

namespace Sys2Proof.Laws.HeaderFields

/-- The words of a command say what it is (R101, R102, R103): its opcode stands in bits 31:28, its reserved bits are
0, its length is the number of its words, and its operands are read back from its fields. -/
def Statement (i : Instr) : Prop :=
  opcodeOf i.header = i.opcode ∧ i.header &&& rsvMask i.opcode = 0#32 ∧ cmdLen i.header = (encode i).length ∧
    operandsOf i.port i.header (i.dataWords.headD 0#32) = i

theorem all (i : Instr) : Statement i := by
  refine ⟨header_opcode i, header_rsv i, ?_, header_operands i _ ?_⟩
  · rw [cmdLen_header, encode, List.length_cons, Nat.add_comm]
  · intro d hd
    rw [hd]; rfl

theorem nop (p : Port) (hint : BitVec 28) : Statement (.nop p hint) := all _

theorem push (p : Port) (x : BitVec 16) : Statement (.push p x) := all _

theorem popBlock (p : Port) (f : Bool) (n : BitVec 16) : Statement (.popBlock p f n) := all _

theorem snapshot (p : Port) (n : BitVec 16) : Statement (.snapshot p n) := all _

theorem analyze (p : Port) (f : Bool) (n : BitVec 16) : Statement (.analyze p f n) := all _

theorem reset (p : Port) (mask : BitVec 5) : Statement (.reset p mask) := all _

theorem csrRead (p : Port) (addr : BitVec 8) : Statement (.csrRead p addr) := all _

theorem csrWrite (p : Port) (addr : BitVec 8) (data : BitVec 32) : Statement (.csrWrite p addr data) := all _

end Sys2Proof.Laws.HeaderFields
end

