-- ==== Sys2Proof/Laws/Ring.lean ====
section
/-! SUPPORT. The ring storage and the ring cursors: reading after writing, the canonical form, and what PUSH,
POP_BLOCK and SNAPSHOT do to the samples held and the unpopped samples. -/

namespace Sys2Proof.Machine

/-! ### Storage -/

/-- A slot reads as what was last written to it. -/
@[simp] theorem Memory.get_set_self (m : Memory) (i : Nat) (x : Sample) : Memory.get (Memory.set m i x) i = some x := by
  induction m with
  | nil => simp [Memory.set, Memory.get]
  | cons e m ih =>
    obtain ⟨k, v⟩ := e
    unfold Memory.set
    split
    · simp [Memory.get]
    · split
      · simp [Memory.get]
      · rename_i h1 h2
        simp [Memory.get, ih, Ne.symm h2]

/-- A write leaves every other slot alone. -/
theorem Memory.get_set_other (m : Memory) (i j : Nat) (x : Sample) (h : j ≠ i) :
    Memory.get (Memory.set m i x) j = Memory.get m j := by
  induction m with
  | nil => simp [Memory.set, Memory.get, Ne.symm h]
  | cons e m ih =>
    obtain ⟨k, v⟩ := e
    unfold Memory.set
    split
    · simp [Memory.get, Ne.symm h]
    · split
      · rename_i h1 h2
        simp [Memory.get, ← h2, Ne.symm h]
      · simp [Memory.get, ih]

/-- The slots a write leaves listed. -/
theorem Memory.mem_set_slots (m : Memory) (i : Nat) (x : Sample) (k : Nat)
    (h : k ∈ (Memory.set m i x).map Prod.fst) : k = i ∨ k ∈ m.map Prod.fst := by
  induction m with
  | nil => simpa [Memory.set] using h
  | cons e m ih =>
    obtain ⟨k', v⟩ := e
    unfold Memory.set at h
    split at h
    · simpa using h
    · split at h
      · rename_i h2
        simp only [List.map_cons, List.mem_cons] at h ⊢
        rcases h with h | h
        · exact .inl h
        · exact .inr (.inr h)
      · simp only [List.map_cons, List.mem_cons] at h ⊢
        rcases h with h | h
        · exact .inr (.inl h)
        · rcases ih h with h | h
          · exact .inl h
          · exact .inr (.inr h)

/-- Every write keeps the canonical form. -/
theorem Memory.wf_set (m : Memory) (i : Nat) (x : Sample) (h : Memory.wf m) : Memory.wf (Memory.set m i x) := by
  induction m with
  | nil => simp [Memory.wf, Memory.set]
  | cons e m ih =>
    obtain ⟨k, v⟩ := e
    have hm : Memory.wf m := (List.pairwise_cons.mp h).2
    have hk : ∀ a ∈ m.map Prod.fst, k < a := (List.pairwise_cons.mp h).1
    unfold Memory.set
    split
    · rename_i hlt
      refine List.pairwise_cons.mpr ⟨?_, h⟩
      intro a ha
      rcases List.mem_cons.mp ha with rfl | ha
      · exact hlt
      · exact lt_trans hlt (hk a ha)
    · split
      · rename_i h1 h2
        subst h2
        exact List.pairwise_cons.mpr ⟨hk, hm⟩
      · rename_i h1 h2
        refine List.pairwise_cons.mpr ⟨?_, ih hm⟩
        intro a ha
        rcases Memory.mem_set_slots m i x a ha with rfl | ha
        · omega
        · exact hk a ha

/-- The canonical form determines a storage: two storages that read alike are equal. -/
theorem Memory.eq_of_get (m m' : Memory) (h : Memory.wf m) (h' : Memory.wf m')
    (e : ∀ i, Memory.get m i = Memory.get m' i) : m = m' := by
  have low : ∀ (m : Memory) (k : Nat), (∀ a ∈ m.map Prod.fst, k < a) → Memory.get m k = none := by
    intro m k
    induction m with
    | nil => simp [Memory.get]
    | cons e m ih =>
      obtain ⟨k', v⟩ := e
      intro hk
      have h1 : k < k' := hk k' (by simp)
      simp only [Memory.get, if_neg (Nat.ne_of_gt h1)]
      exact ih fun a ha => hk a (by simp at ha ⊢; exact .inr ha)
  induction m generalizing m' with
  | nil =>
    cases m' with
    | nil => rfl
    | cons e' m' => have := e e'.1; simp [Memory.get] at this
  | cons c m ih =>
    obtain ⟨k, v⟩ := c
    cases m' with
    | nil => have := e k; simp [Memory.get] at this
    | cons c' m' =>
      obtain ⟨k', v'⟩ := c'
      have hk := (List.pairwise_cons.mp h).1
      have hk' := (List.pairwise_cons.mp h').1
      have hkk : k = k' := by
        rcases Nat.lt_trichotomy k k' with hlt | heq | hgt
        · have := e k
          rw [low ((k', v') :: m') k (by
            intro a ha
            rcases List.mem_cons.mp ha with rfl | ha
            · exact hlt
            · exact lt_trans hlt (hk' a ha))] at this
          simp [Memory.get] at this
        · exact heq
        · have := e k'
          rw [low ((k, v) :: m) k' (by
            intro a ha
            rcases List.mem_cons.mp ha with rfl | ha
            · exact hgt
            · exact lt_trans hgt (hk a ha))] at this
          simp [Memory.get] at this
      subst hkk
      have hv : v = v' := by have := e k; simpa [Memory.get] using this
      subst hv
      congr 1
      refine ih m' (List.pairwise_cons.mp h).2 (List.pairwise_cons.mp h').2 fun i => ?_
      by_cases hi : k = i
      · subst hi; rw [low m k hk, low m' k hk']
      · have := e i; simpa [Memory.get, hi] using this

theorem State.memRead_congr (s t : State) (i : Nat) (h : Memory.get s.ring i = Memory.get t.ring i) :
    s.memRead i = t.memRead i := by unfold State.memRead; rw [h]

/-! ### The samples the ring holds -/

@[simp] theorem State.held_length (s : State) : s.held.length = s.fill := by simp [State.held]

@[simp] theorem State.unpopped_length (s : State) : s.unpopped.length = s.level := by simp [State.unpopped]

@[simp] theorem lastN_length (n : Nat) (l : List Sample) : (lastN n l).length = min n l.length := by
  simp [lastN]; omega

/-- The values POP_BLOCK takes are the oldest unpopped samples, then zeros (R145, R150). -/
theorem State.popValues_eq (n : Nat) (s : State) :
    s.popValues n = s.unpopped.take n ++ List.replicate (n - s.level) 0#16 := by
  apply List.ext_getElem
  · simp [State.popValues]; omega
  · intro i h1 h2
    simp only [State.popValues, List.getElem_map, List.getElem_range]
    by_cases h : i < min n s.level
    · rw [if_pos h, List.getElem_append_left (by simp; omega)]
      simp [State.unpopped]
    · rw [if_neg h, List.getElem_append_right (by simp; omega)]
      simp

/-- The values of SNAPSHOT are zeros for what is not held, then the newest samples held (R155, R157). -/
theorem State.snapshotValues_eq (n : Nat) (s : State) :
    s.snapshotValues n = List.replicate (n - s.fill) 0#16 ++ lastN n s.held := by
  apply List.ext_getElem
  · simp [State.snapshotValues]
  · intro i h1 h2
    simp only [State.snapshotValues, List.getElem_map, List.getElem_range]
    have hn : i < n := by simpa [State.snapshotValues] using h1
    by_cases h : i < n - min n s.fill
    · rw [if_pos h, List.getElem_append_left (by simp; omega)]
      simp
    · rw [if_neg h, List.getElem_append_right (by simp; omega)]
      simp only [lastN, List.getElem_drop, State.held, List.getElem_map, List.getElem_range, List.length_replicate,
        List.length_map, List.length_range]
      congr 2
      push_cast
      omega

@[simp] theorem State.popValues_length (n : Nat) (s : State) : (s.popValues n).length = n := by
  simp [State.popValues]

@[simp] theorem State.snapshotValues_length (n : Nat) (s : State) : (s.snapshotValues n).length = n := by
  simp [State.snapshotValues]

/-- What a state holds depends only on its cursors and on the slots it reads. -/
theorem State.held_congr (s t : State) (hp : t.params = s.params) (hr : t.ring = s.ring) (hw : t.wptr = s.wptr)
    (hf : t.fill = s.fill) : t.held = s.held := by
  simp [State.held, State.memRead, hp, hr, hw, hf]

theorem State.unpopped_congr (s t : State) (hp : t.params = s.params) (hr : t.ring = s.ring) (hw : t.wptr = s.wptr)
    (hl : t.level = s.level) : t.unpopped = s.unpopped := by
  simp [State.unpopped, State.rptr, State.memRead, hp, hr, hw, hl]

/-- PUSH and the samples held (R33, R140): the newest C of the old ones and the new one. -/
theorem State.pushSample_held (s : State) (x : Sample) (h : s.RingInv) :
    (State.pushSample x s).held = lastN s.params.capacity (s.held ++ [x]) := by
  obtain ⟨-, hf, hw, -, -⟩ := h
  have hC : 0 < s.params.capacity := by omega
  apply List.ext_getElem
  · simp; omega
  · intro i h1 h2
    have hi : i < min (s.fill + 1) s.params.capacity := by simpa using h1
    simp only [State.held, List.getElem_map, List.getElem_range, lastN, List.getElem_drop, State.pushSample_params,
      State.pushSample_wptr, State.pushSample_fill, List.length_append, List.length_map, List.length_range,
      List.length_cons, List.length_nil]
    have slot : modC s.params.capacity (((modC s.params.capacity ((s.wptr : Int) + 1) : Nat) : Int) -
        (min (s.fill + 1) s.params.capacity : Nat) + i) =
        modC s.params.capacity ((s.wptr : Int) - s.fill + ((s.fill + 1 - s.params.capacity + i : Nat) : Int)) := by
      rw [sub_add_eq_add_sub, add_sub_assoc, modC_add _ _ _ hC]
      congr 1
      omega
    rw [slot]
    by_cases hlast : s.fill + 1 - s.params.capacity + i < s.fill
    · rw [List.getElem_append_left (by simpa using hlast)]
      simp only [List.getElem_map, List.getElem_range]
      apply State.memRead_congr
      rw [State.pushSample_ring]
      apply Memory.get_set_other
      conv_rhs => rw [← modC_of_lt _ _ hw]
      apply modC_ne
      · omega
      · omega
    · rw [List.getElem_append_right (by simpa using hlast)]
      have e : modC s.params.capacity ((s.wptr : Int) - s.fill + ((s.fill + 1 - s.params.capacity + i : Nat) : Int)) =
          s.wptr := by
        rw [← modC_of_lt _ _ hw]
        congr 1
        rw [modC_of_lt _ _ hw]
        omega
      rw [e]
      simp [State.memRead]

theorem State.rptr_push_full (s : State) (x : Sample) (h : s.RingInv) (hl : s.level = s.params.capacity) :
    (State.pushSample x s).rptr = modC s.params.capacity ((s.rptr : Int) + 1) := by
  have hC : 0 < s.params.capacity := by have := h.2.2.1; omega
  simp only [State.rptr, State.pushSample_params, State.pushSample_wptr, State.pushSample_level, if_pos hl]
  rw [sub_eq_add_neg, modC_add _ _ _ hC, modC_add _ _ _ hC]
  congr 1
  omega

/-- PUSH into a ring that is not full (R140): one more unpopped sample. -/
theorem State.pushSample_unpopped (s : State) (x : Sample) (h : s.RingInv) (hl : s.level < s.params.capacity) :
    (State.pushSample x s).unpopped = s.unpopped ++ [x] := by
  obtain ⟨-, -, hw, -, -⟩ := h
  have hC : 0 < s.params.capacity := by omega
  have hne : s.level ≠ s.params.capacity := by omega
  have hr : (State.pushSample x s).rptr = s.rptr := by
    simp only [State.rptr, State.pushSample_params, State.pushSample_wptr, State.pushSample_level, if_neg hne]
    rw [sub_eq_add_neg, modC_add _ _ _ hC]
    congr 1
    push_cast
    omega
  apply List.ext_getElem
  · simp [hne]
  · intro i h1 h2
    have hi : i < s.level + 1 := by simpa [hne] using h1
    simp only [State.unpopped, List.getElem_map, List.getElem_range, hr, State.pushSample_params]
    have slot : modC s.params.capacity ((s.rptr + i : Nat) : Int) =
        modC s.params.capacity ((s.wptr : Int) - s.level + i) := by
      push_cast
      unfold State.rptr
      exact modC_add _ _ _ hC
    rw [slot]
    by_cases hlast : i < s.level
    · rw [List.getElem_append_left (by simpa using hlast)]
      simp only [List.getElem_map, List.getElem_range]
      rw [slot]
      apply State.memRead_congr
      rw [State.pushSample_ring]
      apply Memory.get_set_other
      conv_rhs => rw [← modC_of_lt _ _ hw]
      apply modC_ne
      · omega
      · omega
    · rw [List.getElem_append_right (by simpa using hlast)]
      have e : modC s.params.capacity ((s.wptr : Int) - s.level + i) = s.wptr := by
        rw [← modC_of_lt _ _ hw]
        congr 1
        rw [modC_of_lt _ _ hw]
        omega
      rw [e]
      simp [State.memRead]

/-- PUSH into a full ring (R142): the oldest unpopped sample is lost. -/
theorem State.pushSample_unpopped_full (s : State) (x : Sample) (h : s.RingInv) (hl : s.level = s.params.capacity) :
    (State.pushSample x s).unpopped = s.unpopped.tail ++ [x] := by
  have hr := State.rptr_push_full s x h hl
  obtain ⟨-, -, hw, -, -⟩ := h
  have hC : 0 < s.params.capacity := by omega
  apply List.ext_getElem
  · simp [hl]; omega
  · intro i h1 h2
    have hi : i < s.level := by simpa [hl] using h1
    simp only [State.unpopped, List.getElem_map, List.getElem_range, hr, State.pushSample_params]
    have slot : modC s.params.capacity ((modC s.params.capacity ((s.rptr : Int) + 1) + i : Nat) : Int) =
        modC s.params.capacity ((s.wptr : Int) - s.level + 1 + i) := by
      push_cast
      rw [modC_add _ _ _ hC]
      unfold State.rptr
      rw [add_assoc, modC_add _ _ _ hC, add_assoc]
    rw [slot]
    by_cases hlast : i < s.level - 1
    · rw [List.getElem_append_left (by simpa using hlast)]
      simp only [List.getElem_tail, List.getElem_map, List.getElem_range]
      have slot2 : modC s.params.capacity ((s.rptr + (i + 1) : Nat) : Int) =
          modC s.params.capacity ((s.wptr : Int) - s.level + 1 + i) := by
        push_cast
        unfold State.rptr
        rw [modC_add _ _ _ hC]
        congr 1
        ring
      rw [slot2]
      apply State.memRead_congr
      rw [State.pushSample_ring]
      apply Memory.get_set_other
      conv_rhs => rw [← modC_of_lt _ _ hw]
      apply modC_ne
      · omega
      · omega
    · rw [List.getElem_append_right (by simpa using hlast)]
      have e : modC s.params.capacity ((s.wptr : Int) - s.level + 1 + i) = s.wptr := by
        rw [← modC_of_lt _ _ hw]
        congr 1
        rw [modC_of_lt _ _ hw]
        omega
      rw [e]
      simp [State.memRead]

/-- POP_BLOCK and the unpopped samples (R146): what it returns is removed. -/
theorem State.popCount_unpopped (n : Nat) (s : State) (hC : 0 < s.params.capacity) :
    (State.popCount n s).unpopped = s.unpopped.drop n := by
  apply List.ext_getElem
  · simp; omega
  · intro i h1 h2
    have hi : n + i < s.level := by
      have : i < s.level - min n s.level := by simpa using h1
      omega
    simp only [State.unpopped, List.getElem_map, List.getElem_range, List.getElem_drop, State.popCount_params]
    have slot : modC s.params.capacity (((State.popCount n s).rptr + i : Nat) : Int) =
        modC s.params.capacity ((s.rptr + (n + i) : Nat) : Int) := by
      push_cast
      simp only [State.rptr, State.popCount_params, State.popCount_wptr, State.popCount_level]
      rw [modC_add _ _ _ hC, modC_add _ _ _ hC]
      congr 1
      have : min n s.level = n := by omega
      rw [this]
      omega
    rw [slot]
    apply State.memRead_congr
    rfl

theorem State.popCount_held (n : Nat) (s : State) : (State.popCount n s).held = s.held :=
  State.held_congr _ _ rfl rfl rfl rfl

/-- PUSH keeps the ring invariant (R35). -/
theorem State.pushSample_ringInv (s : State) (x : Sample) (h : s.RingInv) : (State.pushSample x s).RingInv := by
  obtain ⟨hl, hf, hw, hwf, hs⟩ := h
  have hC : 0 < s.params.capacity := by omega
  have hw' : modC s.params.capacity ((s.wptr : Int) + 1) = (s.wptr + 1) % s.params.capacity := by
    have := modC_natCast s.params.capacity (s.wptr + 1)
    simpa using this
  refine ⟨?_, ?_, ?_, ?_, ?_⟩
  · simp only [State.pushSample_level, State.pushSample_fill]; split <;> omega
  · simp only [State.pushSample_fill, State.pushSample_params]; omega
  · simp only [State.pushSample_wptr, State.pushSample_params]; exact modC_lt _ _ hC
  · simp only [State.pushSample_wptr, State.pushSample_fill, State.pushSample_params]
    intro hlt
    rw [hw', Nat.mod_eq_of_lt (by omega)]
    omega
  · intro i hi
    simp only [State.pushSample_fill] at hi
    rw [State.pushSample_ring]
    by_cases hiw : i = s.wptr
    · subst hiw; simp
    · rw [Memory.get_set_other _ _ _ _ hiw]
      apply hs
      by_cases hlt : s.fill < s.params.capacity
      · have := hwf hlt; omega
      · omega

/-- PUSH keeps the storage's canonical form and stays inside it (R30). -/
theorem State.pushSample_storageInv (s : State) (x : Sample) (h : s.StorageInv) (hw : s.wptr < s.params.capacity) :
    (State.pushSample x s).StorageInv := by
  refine ⟨Memory.wf_set _ _ _ h.1, ?_⟩
  intro e he
  rw [State.pushSample_ring] at he
  rcases Memory.mem_set_slots _ _ _ e.1 (List.mem_map_of_mem he) with h1 | h1
  · simpa [h1] using hw
  · obtain ⟨e', he', h2⟩ := List.mem_map.mp h1
    simpa [← h2] using h.2 e' he'

end Sys2Proof.Machine
end

