-- ==== Sys2Proof/Laws/Statistics.lean ====
section
/-! SUPPORT. The ranges of the statistics (R223, R224, R226, R231, R232), from which every register holds its value
whole. -/

namespace Sys2Proof.Machine

/-! ### The sum of squares -/

theorem sq_le (v : Sample) : (sext v * sext v).toNat ≤ 2 ^ 30 := by
  have h := sample_range v
  have : sext v * sext v ≤ 2 ^ 30 := by nlinarith
  omega

theorem sumSq_le (z : List Sample) : sumSq z ≤ z.length * 2 ^ 30 := by
  induction z with
  | nil => simp [sumSq]
  | cons v z ih =>
    have h := sq_le v
    simp only [sumSq, List.map_cons, List.sum_cons, List.length_cons] at *
    omega

/-- The sum of squares over the integers. -/
theorem sumSq_int (z : List Sample) : ((sumSq z : Nat) : Int) = (z.map fun v => sext v * sext v).sum := by
  induction z with
  | nil => rfl
  | cons v z ih =>
    have h : ((sext v * sext v).toNat : Int) = sext v * sext v := Int.toNat_of_nonneg (mul_self_nonneg _)
    simp only [sumSq, List.map_cons, List.sum_cons] at *
    push_cast at *
    rw [ih]
    omega

/-! ### The root mean square -/

theorem rmsQ8_le (q n : Nat) (h : q ≤ n * 2 ^ 30) : rmsQ8 q n ≤ 2 ^ 23 := by
  have h1 : q * 65536 / n ≤ 2 ^ 46 := by
    apply Nat.div_le_of_le_mul
    calc q * 65536 ≤ n * 2 ^ 30 * 65536 := Nat.mul_le_mul_right _ h
      _ = n * 2 ^ 46 := by ring
  have h2 := (isqrt_spec (q * 65536 / n)).1
  unfold rmsQ8
  by_contra hc
  have h3 : (2 ^ 23 + 1) * (2 ^ 23 + 1) ≤ isqrt (q * 65536 / n) * isqrt (q * 65536 / n) :=
    Nat.mul_le_mul (by omega) (by omega)
  omega

/-! ### The peak -/

theorem natAbs_sext_le (v : Sample) : (sext v).natAbs ≤ 32768 := by
  have h := sample_range v
  omega

theorem foldl_max_spec (l : List Nat) (a : Nat) :
    a ≤ l.foldl max a ∧ (∀ d ∈ l, d ≤ l.foldl max a) ∧ (l.foldl max a = a ∨ l.foldl max a ∈ l) := by
  induction l generalizing a with
  | nil => simp
  | cons b l ih =>
    obtain ⟨h1, h2, h3⟩ := ih (max a b)
    rw [List.foldl_cons]
    refine ⟨by omega, ?_, ?_⟩
    · intro d hd
      rcases List.mem_cons.mp hd with rfl | hd
      · omega
      · exact h2 d hd
    · rcases h3 with h3 | h3
      · rcases le_total a b with h | h
        · right; rw [h3, max_eq_right h]; exact List.mem_cons_self
        · left; rw [h3, max_eq_left h]
      · exact .inr (List.mem_cons_of_mem _ h3)

theorem peakOf_le (z : List Sample) : peakOf z ≤ 32768 := by
  rcases (foldl_max_spec (z.map fun v => (sext v).natAbs) 0).2.2 with h | h
  · unfold peakOf; omega
  · obtain ⟨v, -, hv⟩ := List.mem_map.mp h
    unfold peakOf
    rw [← hv]
    exact natAbs_sext_le v

/-! ### The first differences -/

theorem firstDiffs_le (z : List Sample) : ∀ d ∈ firstDiffs z, d ≤ 65535 := by
  induction z with
  | nil => simp [firstDiffs]
  | cons a z ih =>
    cases z with
    | nil => simp [firstDiffs]
    | cons b z =>
      intro d hd
      have ha := sample_range a
      have hb := sample_range b
      rcases List.mem_cons.mp hd with rfl | hd
      · omega
      · exact ih d hd

theorem firstDiffs_length (z : List Sample) : (firstDiffs z).length = z.length - 1 := by
  induction z with
  | nil => rfl
  | cons a z ih =>
    cases z with
    | nil => rfl
    | cons b z => simpa [firstDiffs] using ih

theorem firstDiffs_sum_le (z : List Sample) : (firstDiffs z).sum ≤ 65535 * (z.length - 1) := by
  have h := List.sum_le_card_nsmul (firstDiffs z) 65535 (firstDiffs_le z)
  rw [firstDiffs_length, smul_eq_mul] at h
  omega

/-- The two sums split the sum of all differences (R231). -/
theorem lowSumOf_add_highSumOf (thr : Nat) (z : List Sample) :
    lowSumOf thr z + highSumOf thr z = (firstDiffs z).sum := by
  unfold lowSumOf highSumOf
  induction firstDiffs z with
  | nil => rfl
  | cons d l ih =>
    simp only [List.filter_cons, List.sum_cons, decide_eq_true_eq] at *
    split <;> split <;> (try rw [List.sum_cons]) <;> omega

/-! ### Every register holds its value whole -/

theorem blockStats_ranges (thr n : Nat) (z : List Sample) (hz : z.length = n) (h1 : 1 ≤ n) (hn : n ≤ 65535) :
    (blockStats thr n z).n.toNat = n ∧ (blockStats thr n z).sumsq.toNat = sumSq z ∧
      (blockStats thr n z).rms.toNat = rmsQ8 (sumSq z) n ∧ (blockStats thr n z).peak.toNat = peakOf z ∧
      (blockStats thr n z).lowSum.toNat = lowSumOf thr z ∧ (blockStats thr n z).highSum.toNat = highSumOf thr z := by
  have hs := sumSq_le z
  rw [hz] at hs
  have hr := rmsQ8_le (sumSq z) n hs
  have hp := peakOf_le z
  have hd := firstDiffs_sum_le z
  have hlh := lowSumOf_add_highSumOf thr z
  simp only [blockStats, BitVec.toNat_ofNat]
  refine ⟨?_, ?_, ?_, ?_, ?_, ?_⟩ <;> apply Nat.mod_eq_of_lt <;> omega

end Sys2Proof.Machine
end

