-- ==== Sys2Proof/Laws/Turn.lean ====
section
/-! SUPPORT. What decoding a header and what one turn of a port can answer. -/

namespace Sys2Proof.Machine

/-- A header decodes to a command exactly when all three checks of R109 pass. -/
theorem decode_ok (p : Port) (w0 w1 : Word) (i : Instr) : decode p w0 w1 = .ok i ↔
    ¬0x8#4 ≤ opcodeOf w0 ∧ acceptedOn (opcodeOf w0) p = true ∧ w0 &&& rsvMask (opcodeOf w0) = 0#32 ∧
      operandsOf p w0 w1 = i := by
  unfold decode
  split
  · simp_all
  · split
    · simp_all
    · split <;> simp_all

/-- The position of one port moves, and nothing else of the ports does. -/
theorem advance_ports (p : Port) (n : Nat) (s : State) : (State.advance p n s).pos p = s.pos p + n ∧
    (∀ q, q ≠ p → (State.advance p n s).pos q = s.pos q) ∧ ∀ q, (State.advance p n s).stream q = s.stream q := by
  refine ⟨by cases p <;> rfl, ?_, ?_⟩
  · intro q hq; cases p <;> cases q <;> simp_all <;> rfl
  · intro q; cases p <;> cases q <;> rfl

/-- Everything a command error does (R302). -/
theorem cmdError_eq (c : Cause) (p : Port) (w0 : Word) (s : State) : State.cmdError c p w0 s =
    { s with
      posW := (State.cmdError c p w0 s).posW
      posR := (State.cmdError c p w0 s).posR
      posH := (State.cmdError c p w0 s).posH
      err := true
      errCause := if s.err then s.errCause else c.code
      errPort := if s.err then s.errPort else p.code
      errWord := if s.err then s.errWord else w0 } := by
  cases p <;> rfl

/-- The turn of a port that holds a complete command. -/
theorem turn_some (s : State) (p : Port) (w0 w1 : Word) (h : s.pending p = some (w0, w1)) :
    State.turn p s = match decode p w0 w1 with
      | .ok i => exec i s
      | .error cause => .next (State.decodeError cause p w0 s) := by
  cases hd : decode p w0 w1 <;> simp [State.turn, h, hd]

/-- The turn of a port that holds none. -/
theorem turn_none (s : State) (p : Port) (h : s.pending p = none) : State.turn p s = .next s := by
  unfold State.turn
  simp only [h]

/-- A complete command has its words. -/
theorem takeCommand_length (ws : List Word) (w0 w1 : Word) (h : takeCommand ws = some (w0, w1)) :
    cmdLen w0 ≤ ws.length := by
  unfold takeCommand at h
  split at h
  · cases h
  · split at h
    · split at h
      · cases h
      · cases h; simp_all
    · cases h
      rename_i hh
      unfold cmdLen at *
      split <;> simp_all

/-- Words that arrive behind a complete command do not change it. -/
theorem takeCommand_append (ws more : List Word) (h : (takeCommand ws).isSome = true) :
    takeCommand (ws ++ more) = takeCommand ws := by
  cases ws with
  | nil => simp [takeCommand] at h
  | cons a ws =>
    cases ws with
    | nil =>
      by_cases hh : cmdLen a = 2
      · simp [takeCommand, hh] at h
      · simp [takeCommand, hh]
    | cons b ws => simp [takeCommand]

end Sys2Proof.Machine
end

