-- ==== Sys2Proof/Machine/Assembler.lean ====
section
/-! DEFINITION. The textual syntax of R110 and the pseudo-instructions of R111. The assembler stands outside the
machine: it turns one line of text into commands, and refuses a line whose operand is out of its range (`none`), so
that it never becomes a command word (R110). -/

namespace Sys2Proof.Machine

/-- A line of text, as its characters. -/
abbrev Text := List Char

/-- White space inside a line (log 15). -/
def isBlank (c : Char) : Bool := c == ' ' || c == '\t'

/-- A text without the white space at both ends. -/
def trim (t : Text) : Text := ((t.dropWhile isBlank).reverse.dropWhile isBlank).reverse

/-- A line without its comment: `;` starts one (R110). -/
def uncomment (t : Text) : Text := t.takeWhile fun c => c != ';'

/-- The pieces of a text between the separators, trimmed. A text without a separator is one piece. -/
def splitOn (sep : Char) (t : Text) : List Text :=
  let step (c : Char) (acc : List Text) : List Text :=
    if c == sep then [] :: acc
    else match acc with
      | [] => [[c]]
      | piece :: more => (c :: piece) :: more
  (t.foldr step [[]]).map trim

/-- The operands of a line: none for an empty text, else its comma-separated pieces (R110). -/
def operandTexts (t : Text) : List Text := if trim t = [] then [] else splitOn ',' t

/-- The value of a digit in base 16. -/
def digitOf (c : Char) : Option Nat :=
  if '0' ≤ c ∧ c ≤ '9' then some (c.toNat - 48)
  else if 'a' ≤ c ∧ c ≤ 'f' then some (c.toNat - 87)
  else if 'A' ≤ c ∧ c ≤ 'F' then some (c.toNat - 55)
  else none

/-- The number a non-empty text of digits of the base stands for. -/
def digitsValue (base : Nat) (t : Text) : Option Nat :=
  if t = [] then none
  else t.foldl (fun acc c =>
    match acc, digitOf c with
    | some v, some d => if d < base then some (v * base + d) else none
    | _, _ => none) (some 0)

/-- A number as it is written: hexadecimal after `0x`, else decimal with an optional minus sign (R110). -/
inductive Numeral where
  | hex (v : Nat)
  | dec (v : Int)
  deriving DecidableEq, Repr

/-- Read a number. -/
def numeralOf : Text → Option Numeral
  | '0' :: 'x' :: ds => (digitsValue 16 ds).map .hex
  | '-' :: ds => (digitsValue 10 ds).map fun v => .dec (-(v : Int))
  | ds => (digitsValue 10 ds).map fun v => .dec v

/-- A number from 0 to `top`, in either base. -/
def natOperand (top : Nat) (t : Text) : Option Nat :=
  match numeralOf t with
  | some (.hex v) => if v ≤ top then some v else none
  | some (.dec v) => if 0 ≤ v ∧ v ≤ top then some v.toNat else none
  | none => none

/-- `s` of `push`: decimal -32768 .. 32767, or hex 0x0000 .. 0xFFFF as the 16-bit pattern (R110). -/
def sampleOperand (t : Text) : Option (BitVec 16) :=
  match numeralOf t with
  | some (.hex v) => if v ≤ 0xFFFF then some (BitVec.ofNat 16 v) else none
  | some (.dec v) => if -32768 ≤ v ∧ v ≤ 32767 then some (BitVec.ofInt 16 v) else none
  | none => none

/-- `imm32` of `csrw`: any 32-bit value, decimal (negative allowed, two's complement) or hex (R110). -/
def wordOperand (t : Text) : Option Word :=
  match numeralOf t with
  | some (.hex v) => if v ≤ 0xFFFFFFFF then some (BitVec.ofNat 32 v) else none
  | some (.dec v) => if -2147483648 ≤ v ∧ v ≤ 4294967295 then some (BitVec.ofInt 32 v) else none
  | none => none

/-- `n` of a block command: 0 .. 65535 (R110). -/
def lenOperand (t : Text) : Option (BitVec 16) := (natOperand 65535 t).map (BitVec.ofNat 16)

/-- `hint`: 0 .. 0x0FFFFFFF (R110). -/
def hintOperand (t : Text) : Option (BitVec 28) := (natOperand 0x0FFFFFFF t).map (BitVec.ofNat 28)

/-- The parts of RESET by name (R110), each with its mask bit (R102). -/
def partBit (t : Text) : Option (BitVec 5) :=
  if t = ['r', 'b'] then some 1#5
  else if t = ['f', 'c', 'p'] then some 2#5
  else if t = ['f', 'c', 'a'] then some 4#5
  else if t = ['c', 'n', 't'] then some 8#5
  else if t = ['s', 't', 'a', 't', 's'] then some 16#5
  else none

/-- `parts` of `reset`: a `+`-joined list of part names, or a number 0 .. 31 (R110). -/
def partsOperand (t : Text) : Option (BitVec 5) :=
  match natOperand 31 t with
  | some v => some (BitVec.ofNat 5 v)
  | none => ((splitOn '+' t).mapM partBit).map fun bits => bits.foldl (· ||| ·) 0#5

/-- The register names of 10_state.md with their word addresses (R41 to R64, R110). -/
def csrNames : List (Text × Nat) :=
  [(['I', 'D'], 0x00),
   (['P', 'A', 'R', 'A', 'M'], 0x01),
   (['C', 'T', 'R', 'L'], 0x02),
   (['S', 'T', 'A', 'T', 'U', 'S'], 0x03),
   (['E', 'R', 'R', '_', 'I', 'N', 'F', 'O'], 0x04),
   (['E', 'R', 'R', '_', 'W', 'O', 'R', 'D'], 0x05),
   (['L', 'E', 'V', 'E', 'L'], 0x06),
   (['W', 'P', 'T', 'R'], 0x07),
   (['R', 'P', 'T', 'R'], 0x08),
   (['F', 'I', 'L', 'L'], 0x09),
   (['U', 'N', 'D', 'E', 'R', 'R', 'U', 'N', '_', 'C', 'N', 'T'], 0x0A),
   (['D', 'R', 'O', 'P', '_', 'C', 'N', 'T'], 0x0B),
   (['D', 'C', '_', 'R'], 0x0C),
   (['S', 'P', 'L', 'I', 'T', '_', 'T', 'H', 'R'], 0x0D),
   (['L', 'P', 'F', '_', 'B', '0'], 0x10),
   (['L', 'P', 'F', '_', 'B', '1'], 0x11),
   (['L', 'P', 'F', '_', 'B', '2'], 0x12),
   (['L', 'P', 'F', '_', 'B', '3'], 0x13),
   (['L', 'P', 'F', '_', 'B', '4'], 0x14),
   (['L', 'P', 'F', '_', 'A', '1'], 0x21),
   (['L', 'P', 'F', '_', 'A', '2'], 0x22),
   (['L', 'P', 'F', '_', 'A', '3'], 0x23),
   (['L', 'P', 'F', '_', 'A', '4'], 0x24),
   (['S', 'T', 'A', 'T', '_', 'N'], 0x30),
   (['S', 'T', 'A', 'T', '_', 'S', 'U', 'M', 'S', 'Q', '_', 'L', 'O'], 0x31),
   (['S', 'T', 'A', 'T', '_', 'S', 'U', 'M', 'S', 'Q', '_', 'H', 'I'], 0x32),
   (['S', 'T', 'A', 'T', '_', 'R', 'M', 'S'], 0x33),
   (['S', 'T', 'A', 'T', '_', 'P', 'E', 'A', 'K'], 0x34),
   (['S', 'T', 'A', 'T', '_', 'L', 'O', 'W', '_', 'S', 'U', 'M'], 0x35),
   (['S', 'T', 'A', 'T', '_', 'H', 'I', 'G', 'H', '_', 'S', 'U', 'M'], 0x36),
   (['S', 'T', 'A', 'T', '_', 'L', 'O', 'W', '_', 'E'], 0x37),
   (['S', 'T', 'A', 'T', '_', 'H', 'I', 'G', 'H', '_', 'E'], 0x38)]

/-- `csr`: a register name or a number 0 .. 255 (R110). -/
def csrOperand (t : Text) : Option (BitVec 8) :=
  match csrNames.lookup t with
  | some a => some (BitVec.ofNat 8 a)
  | none => (natOperand 255 t).map (BitVec.ofNat 8)

/-- The flag `f` of a block command: absent, or the one operand `f` (R110). -/
def flagOperand : List Text → Option Bool
  | [] => some false
  | [['f']] => some true
  | _ => none

/-- CSR_WRITEs of a list of words to the addresses from `addr` on. -/
def csrWrites (p : Port) (addr : Nat) (ws : List Word) : List Instr :=
  ws.zipIdx.map fun e => .csrWrite p (BitVec.ofNat 8 (addr + e.2)) e.1

/-- The commands one mnemonic with its operands stands for on port `p`: the commands of R110, then the
pseudo-instructions of R111. `push_block` and `provide` expand on ports W and R, as R111 says. R111 is silent on
`push_block` without operands: it gives no command (log 15, DESIGN CHOICE). -/
def assembleCommand (ps : Params) (p : Port) (mnemonic : Text) (ops : List Text) : Option (List Instr) :=
  if mnemonic = ['n', 'o', 'p'] then
    match ops with
    | [] => some [.nop p 0#28]
    | [h] => (hintOperand h).map fun h => [.nop p h]
    | _ => none
  else if mnemonic = ['p', 'u', 's', 'h'] then
    match ops with
    | [x] => (sampleOperand x).map fun x => [.push p x]
    | _ => none
  else if mnemonic = ['p', 'o', 'p', '_', 'b', 'l', 'o', 'c', 'k'] then
    match ops with
    | n :: rest =>
      match lenOperand n, flagOperand rest with
      | some n, some f => some [.popBlock p f n]
      | _, _ => none
    | [] => none
  else if mnemonic = ['s', 'n', 'a', 'p', 's', 'h', 'o', 't'] then
    match ops with
    | [n] => (lenOperand n).map fun n => [.snapshot p n]
    | _ => none
  else if mnemonic = ['a', 'n', 'a', 'l', 'y', 'z', 'e'] then
    match ops with
    | n :: rest =>
      match lenOperand n, flagOperand rest with
      | some n, some f => some [.analyze p f n]
      | _, _ => none
    | [] => none
  else if mnemonic = ['r', 'e', 's', 'e', 't'] then
    match ops with
    | [parts] => (partsOperand parts).map fun m => [.reset p m]
    | _ => none
  else if mnemonic = ['c', 's', 'r', 'r'] then
    match ops with
    | [a] => (csrOperand a).map fun a => [.csrRead p a]
    | _ => none
  else if mnemonic = ['c', 's', 'r', 'w'] then
    match ops with
    | [a, v] =>
      match csrOperand a, wordOperand v with
      | some a, some v => some [.csrWrite p a v]
      | _, _ => none
    | _ => none
  else if mnemonic = ['p', 'u', 's', 'h', '_', 'b', 'l', 'o', 'c', 'k'] then
    (ops.mapM sampleOperand).map fun xs => xs.map fun x => .push .W x
  else if mnemonic = ['p', 'r', 'o', 'v', 'i', 'd', 'e'] then
    match ops with
    | [n] => (lenOperand n).map fun n => [.popBlock .R true n]
    | _ => none
  else if mnemonic = ['h', 'i', 'n', 't'] then
    match ops with
    | [h] => (hintOperand h).map fun h => [.nop p h]
    | _ => none
  else if mnemonic = ['c', 'l', 'e', 'a', 'r', '_', 'e', 'r', 'r', 'o', 'r', 's'] then
    if ops = [] then some [.csrWrite p 0x03#8 0x7#32] else none
  else if mnemonic = ['r', 'e', 'i', 'n', 'i', 't'] then
    if ops = [] then some [.reset p 0x1F#5] else none
  else if mnemonic = ['s', 'e', 't', '_', 'r'] then
    match ops with
    | [v] => (wordOperand v).map fun v => [.csrWrite p 0x0C#8 v]
    | _ => none
  else if mnemonic = ['s', 'e', 't', '_', 'l', 'p', 'f'] then
    match ops.mapM wordOperand with
    | some vs =>
      if vs.length = 2 * ps.lpfOrder + 1 then
        some (csrWrites p 0x10 (vs.take (ps.lpfOrder + 1)) ++ csrWrites p 0x21 (vs.drop (ps.lpfOrder + 1)))
      else none
    | none => none
  else none

/-- The port a line names before a colon, and the rest of the line; `p` where it names none (R110). -/
def portPrefix (p : Port) : Text → Port × Text
  | 'W' :: ':' :: rest => (.W, trim rest)
  | 'R' :: ':' :: rest => (.R, trim rest)
  | 'H' :: ':' :: rest => (.H, trim rest)
  | t => (p, t)

/-- Assemble one line for a block with the parameters `ps`; `p` is the port of a line that names none. An empty
line gives no command; `none` is an assembly error (R110). -/
def assembleLine (ps : Params) (p : Port) (line : Text) : Option (List Instr) :=
  let at' := portPrefix p (trim (uncomment line))
  if at'.2 = [] then some []
  else
    assembleCommand ps at'.1 (at'.2.takeWhile fun c => !isBlank c)
      (operandTexts (at'.2.dropWhile fun c => !isBlank c))

/-- The words a line gives, each command's words behind its port (R110, R100). -/
def assembleWords (ps : Params) (p : Port) (line : Text) : Option (List (Port × List Word)) :=
  (assembleLine ps p line).map fun is => is.map fun i => (i.port, encode i)

end Sys2Proof.Machine
end

