-- ==== Sys2Proof/Tests/Slice0.lean ====
section
/-! SUPPORT. Tests. Expected values come from spec/: the encodings of 30_encoding.md and the vectors of
95_test_vectors.md, whose numbers stand in the docstrings. The last part shows, for every obligation with hypotheses,
a state and operands that meet them. -/

namespace Sys2Proof.Tests

open Sys2Proof Sys2Proof.Machine

/-! ### Helpers -/

/-- The reset state of a block with capacity `C` and a filter of order 4. -/
def block (C : Nat) : State := State.resetWith { capacity := C, lpfOrder := 4 } []

/-- A block of capacity 4 with given slots and cursors. -/
def ringOf (ring : List (Nat × Sample)) (wptr level fill : Nat) : State :=
  { block 4 with ring := ring, wptr := wptr, level := level, fill := fill }

/-- The state a list of commands leads to (the state before it, if one of them does not answer a next state). -/
def after (cmds : List Instr) (s : State) : State :=
  match execAll cmds s with
  | .next t => t
  | _ => s

/-- The state one step leads to (the state before it, if the step does not answer a next state). -/
def stepped (s : State) : State :=
  match step s with
  | .next t => t
  | _ => s

/-- Port `p` has the words `ws` waiting, and it is its turn. -/
def offered (p : Port) (ws : List Word) (s : State) : State :=
  { State.setStream p (s.stream p ++ ws) s with inputs := [.execute p] }

/-! ### WellFormed refuses a command on a port that does not accept it (R112) -/

theorem test_wf_refuses_push : (Instr.push .R 0#16).wellFormed = false := by decide
theorem test_wf_refuses_popBlock : (Instr.popBlock .H true 1#16).wellFormed = false := by decide
theorem test_wf_refuses_snapshot : (Instr.snapshot .W 1#16).wellFormed = false := by decide
theorem test_wf_refuses_analyze : (Instr.analyze .R false 1#16).wellFormed = false := by decide
theorem test_wf_refuses_reset : (Instr.reset .W 1#5).wellFormed = false := by decide
theorem test_wf_refuses_csrRead : (Instr.csrRead .R 0#8).wellFormed = false := by decide
theorem test_wf_refuses_csrWrite : (Instr.csrWrite .W 2#8 0#32).wellFormed = false := by decide
/-- NOP has a row for every port (R104); the empty check refuses none of them. -/
theorem test_wf_nop_everywhere : ∀ p ∈ [Port.W, .R, .H], (Instr.nop p 0#28).wellFormed = true := by decide
theorem test_wf_accepts : (Instr.push .W 0#16).wellFormed = true ∧ (Instr.popBlock .R true 0#16).wellFormed = true ∧
    (Instr.csrWrite .H 0#8 0#32).wellFormed = true := by decide

/-! ### Words written out from the formats of R102 decode to their commands -/

/-- Format N: OP 0000, hint 0000 1010 1011 1100 1101 1110 1111. -/
theorem test_decode_nop :
    decode .R 0b0000_0000_1010_1011_1100_1101_1110_1111#32 0#32 = .ok (.nop .R 0x0ABCDEF#28) := by decide
/-- Format S: OP 0001, RSV, s = 1000 0000 0000 0001. -/
theorem test_decode_push :
    decode .W 0b0001_0000_0000_0000_1000_0000_0000_0001#32 0#32 = .ok (.push .W 0x8001#16) := by decide
/-- Format B: OP 0010, F 1, RSV, n = 0000 0001 0000 0010. -/
theorem test_decode_popBlock :
    decode .R 0b0010_1000_0000_0000_0000_0001_0000_0010#32 0#32 = .ok (.popBlock .R true 0x0102#16) := by decide
/-- OP 0011, RSV, n = 0000 0000 0000 0100. -/
theorem test_decode_snapshot :
    decode .H 0b0011_0000_0000_0000_0000_0000_0000_0100#32 0#32 = .ok (.snapshot .H 4#16) := by decide
/-- OP 0100, F 0, RSV, n = 1111 1111 1111 1111. -/
theorem test_decode_analyze :
    decode .H 0b0100_0000_0000_0000_1111_1111_1111_1111#32 0#32 = .ok (.analyze .H false 65535#16) := by decide
/-- Format M: OP 0101, RSV, STATS 1, CNT 0, FCA 1, FCP 0, RB 1. -/
theorem test_decode_reset :
    decode .H 0b0101_0000_0000_0000_0000_0000_0001_0101#32 0#32 = .ok (.reset .H 0b10101#5) := by decide
/-- Format C: OP 0110, RSV, addr 0011 1000. -/
theorem test_decode_csrRead :
    decode .H 0b0110_0000_0000_0000_0000_0000_0011_1000#32 0#32 = .ok (.csrRead .H 0x38#8) := by decide
/-- Format C with its data word: OP 0111, RSV, addr 0001 0000. -/
theorem test_decode_csrWrite :
    decode .H 0b0111_0000_0000_0000_0000_0000_0001_0000#32 0x89ABCDEF#32 =
      .ok (.csrWrite .H 0x10#8 0x89ABCDEF#32) := by decide

/-- Vectors 2.6.1 to 2.6.8 and 2.6.10 to 2.6.12: words that decode to no command, and why. -/
theorem test_decode_errors :
    decode .H 0x80000000#32 0#32 = .error .illegalOp ∧ decode .W 0x8FFFFFFF#32 0#32 = .error .illegalOp ∧
    decode .W 0x60000000#32 0#32 = .error .wrongPort ∧ decode .R 0x10000001#32 0#32 = .error .wrongPort ∧
    decode .W 0x3FFF0000#32 0#32 = .error .wrongPort ∧ decode .W 0x10010000#32 0#32 = .error .reservedBits ∧
    decode .R 0x20010000#32 0#32 = .error .reservedBits ∧ decode .H 0x50000020#32 0#32 = .error .reservedBits ∧
    decode .H 0x61000003#32 0#32 = .error .reservedBits ∧ decode .H 0x70000100#32 0#32 = .error .reservedBits := by
  decide

/-- The words of the encoder are those of vectors 2.1.1, 2.6.9, 2.5.10 and 2.5.3. -/
theorem test_encode : encode (.push .W 6#16) = [0x10000006#32] ∧
    encode (.popBlock .R true 65535#16) = [0x2800FFFF#32] ∧ encode (.reset .H 0b01001#5) = [0x50000009#32] ∧
    encode (.csrWrite .H 0x02#8 0xFFFFFFFF#32) = [0x70000002#32, 0xFFFFFFFF#32] := by decide

/-- A word of the opcode table decodes, and placed for the fetch it runs as the first command after reset. -/
theorem test_table_word : decodeTableWord 32 0x10000007 = some (.push .W 7#16) ∧
    decodeTableWord 64 0x0000000570000002 = some (.csrWrite .H 0x02#8 5#32) := by decide
theorem test_fetch_word : (stepped (State.reset.withFetchWord 32 0x10000007)).ring = [(0, 7#16)] ∧
    (stepped (State.reset.withFetchWord 64 0x0000000570000002)).posH = 2 := by decide

/-! ### One step -/

/-- Vector 2.1.12: a push into a full ring overwrites the oldest unpopped sample and counts it. -/
theorem test_push_full :
    let t := stepped (offered .W [0x10000007#32] (ringOf [(0, 1#16), (1, 2#16), (2, 3#16), (3, 4#16)] 3 4 4))
    t.ring = [(0, 1#16), (1, 2#16), (2, 3#16), (3, 7#16)] ∧ t.wptr = 0 ∧ t.level = 4 ∧ t.fill = 4 ∧
      t.dropCnt = 1#32 ∧ t.posW = 1 := by decide
/-- Vector 2.1.15: overwriting a popped sample is no drop. -/
theorem test_push_over_popped :
    let t := stepped (offered .W [0x10000009#32] (ringOf [(0, 1#16), (1, 2#16), (2, 3#16), (3, 4#16)] 0 0 4))
    t.ring = [(0, 9#16), (1, 2#16), (2, 3#16), (3, 4#16)] ∧ t.level = 1 ∧ t.dropCnt = 0#32 := by decide

/-- Vector 2.1.13: POP_BLOCK wraps around the end of the ring and pads with zeros. -/
theorem test_popBlock_wraps :
    let t := stepped (offered .R [0x20000004#32] (ringOf [(0, 5#16), (1, 6#16), (2, 7#16), (3, 8#16)] 2 3 4))
    t.rspR = [8#32, 5#32, 6#32, 0#32] ∧ t.level = 0 ∧ t.underrunCnt = 1#32 ∧ t.fill = 4 := by decide
/-- Vector 2.2.1, first three steps, through FC_P with the reset configuration. -/
theorem test_popBlock_filtered :
    let t := stepped (offered .R [0x28000003#32] (ringOf [(0, 1000#16), (1, 1000#16), (2, 1000#16)] 3 3 3))
    t.rspR = [1000#32, 995#32, 990#32] ∧ t.chainP.dcY.toInt = 64881641 ∧ t.chainA = Chain.cleared 4 ∧
      t.satP = false := by decide

/-- Vector 2.1.10: three samples held, so one leading zero; samples are sign-extended. -/
theorem test_snapshot_pads :
    let t := stepped (offered .H [0x30000004#32] (ringOf [(0, 0x8000#16), (1, 0x7FFF#16), (2, 0xFFFF#16)] 3 3 3))
    t.rspH = [0x00000000#32, 0xFFFF8000#32, 0x00007FFF#32, 0xFFFFFFFF#32] ∧ t.level = 3 := by decide
/-- Vector 2.1.4: SNAPSHOT longer than the ring. -/
theorem test_snapshot_badLen :
    let t := stepped (offered .H [0x30000005#32] (block 4))
    t.rspH = [] ∧ t.csrValue .errInfo = 0x24#32 ∧ t.errWord = 0x30000005#32 ∧ t.err = true ∧ t.posH = 1 := by decide

/-- Vector 2.4.9: the extreme differences, and a threshold they just reach. -/
theorem test_analyze_extreme :
    let t := stepped (offered .H [0x40000004#32]
      { ringOf [(0, 0x7FFF#16), (1, 0x8000#16), (2, 0x7FFF#16), (3, 0x8000#16)] 0 4 4 with splitThr := 0xFFFF#16 })
    t.csrValue .statSumsqLo = 0xFFFE0002#32 ∧ t.csrValue .statSumsqHi = 0#32 ∧
      t.csrValue .statRms = 8388480#32 ∧ t.csrValue .statPeak = 32768#32 ∧ t.csrValue .statLowSum = 0#32 ∧
      t.csrValue .statHighSum = 196605#32 ∧ t.csrValue .statHighE = 12582720#32 ∧ t.csrValue .statN = 4#32 := by
  decide
/-- Vector 2.4.5: ANALYZE of nothing. -/
theorem test_analyze_badLen :
    let t := stepped (offered .H [0x40000000#32] (block 8))
    t.csrValue .errInfo = 0x24#32 ∧ t.errWord = 0x40000000#32 ∧ t.statsValid = false := by decide

/-- Vector 2.5.10: RESET of the ring and the counters keeps the rest, the slots too. -/
theorem test_reset_parts :
    let t := stepped (offered .H [0x50000009#32]
      { ringOf [(0, 5#16)] 1 1 1 with underrunCnt := 2#32, dropCnt := 2#32, statsValid := true, dcEn := false })
    t.level = 0 ∧ t.fill = 0 ∧ t.wptr = 0 ∧ t.dropCnt = 0#32 ∧ t.underrunCnt = 0#32 ∧ t.statsValid = true ∧
      t.ring = [(0, 5#16)] ∧ t.dcEn = false := by decide
/-- Vector 2.5.11: RESET with an empty mask. -/
theorem test_reset_nothing : stepped (offered .H [0x50000000#32] (ringOf [(0, 5#16)] 1 1 1)) =
    { ringOf [(0, 5#16)] 1 1 1 with cmdH := [0x50000000#32], posH := 1 } := by decide

/-- Vector 2.5.1, two of its reads: PARAM and DC_R. -/
theorem test_csrRead :
    (stepped (offered .H [0x60000001#32] State.reset)).rspH = [0x00040200#32] ∧
      (stepped (offered .H [0x6000000C#32] State.reset)).rspH = [0xFEB8#32] := by decide
/-- Vector 2.5.7: a read of an unmapped address emits 0 and raises BAD_CSR_ADDR. -/
theorem test_csrRead_unmapped :
    let t := stepped (offered .H [0x60000015#32] State.reset)
    t.rspH = [0#32] ∧ t.csrValue .errInfo = 0x25#32 ∧ t.errWord = 0x60000015#32 := by decide

/-- Vectors 2.5.3 and 2.5.9: CTRL ignores reserved bits; STATUS clears what is written 1, but not bit 3. -/
theorem test_csrWrite :
    (stepped (offered .H [0x70000002#32, 0xFFFFFFFF#32] State.reset)).csrValue .ctrl = 3#32 ∧
      (stepped (offered .H [0x70000003#32, 0xF#32]
        { State.reset with err := true, satP := true, satA := true, statsValid := true })).csrValue .status = 8#32 := by
  decide
/-- Vectors 2.5.8 and 2.5.6: a read-only register and an unmapped address, the data word consumed. -/
theorem test_csrWrite_errors :
    let t := stepped (offered .H [0x70000000#32, 5#32] State.reset)
    let u := stepped (offered .H [0x70000020#32, 1#32] State.reset)
    t.csrValue .errInfo = 0x26#32 ∧ t.errWord = 0x70000000#32 ∧ t.posH = 2 ∧ u.csrValue .errInfo = 0x25#32 ∧
      u.posH = 2 := by decide

/-- Vector 2.5.2: NOP moves its port's position and does nothing else. -/
theorem test_nop : stepped (offered .W [0x00ABCDEF#32] (block 4)) =
    { block 4 with cmdW := [0x00ABCDEF#32], posW := 1 } := by decide

/-- Vector 2.6.11: a CSR_READ header with a reserved bit set emits one word 0 on port H; vector 2.6.4: on port W the
same opcode is on the wrong port. -/
theorem test_reserved_csrRead :
    let t := stepped (offered .H [0x61000003#32] State.reset)
    let u := stepped (offered .W [0x60000000#32] State.reset)
    t.rspH = [0#32] ∧ t.csrValue .errInfo = 0x23#32 ∧ u.rspH = [] ∧ u.csrValue .errInfo = 0x02#32 := by decide
/-- Vector 2.6.12: the data word of a CSR_WRITE header that raises an error is consumed. -/
theorem test_reserved_csrWrite :
    let t := stepped (offered .H [0x70000100#32, 0#32] State.reset)
    t.posH = 2 ∧ t.csrValue .errInfo = 0x23#32 := by decide
/-- R22: a header without its data word waits. -/
theorem test_half_command_waits : stepped (offered .H [0x70000002#32] State.reset) =
    { State.reset with cmdH := [0x70000002#32] } := by decide

/-! ### Filter stages -/

/-- Vector 2.2.3: the DC blocker saturates, rounds to nearest, and stays below its bound. -/
theorem test_dcStep :
    let g : FilterCfg := { dcEn := true, lpfEn := false, rCode := 65208#16, order := 4, b := [], a := [] }
    let o := chainBlock g (Chain.cleared 4) [0x8000#16, 0x7FFF#16, 0x8000#16, 0x7FFF#16]
    o.ys = [0x8000#16, 0x7FFF#16, 0x8000#16, 0x7FFF#16] ∧ o.sat = true ∧ o.chain.dcY.toInt = 2158112820 := by decide
/-- Vector 2.2.12: ties of the low-pass filter round toward plus infinity; vector 2.2.10: its feedback. -/
theorem test_lpfStep :
    let g : FilterCfg :=
      { dcEn := false, lpfEn := true, rCode := 0#16, order := 4, b := [0x08000000#32, 0#32, 0#32, 0#32, 0#32],
        a := [0#32, 0#32, 0#32, 0#32] }
    let k : FilterCfg :=
      { dcEn := false, lpfEn := true, rCode := 0#16, order := 1, b := [0x10000000#32, 0#32], a := [0xF0000000#32] }
    (chainBlock g (Chain.cleared 4) [1#16, 0xFFFF#16, 3#16, 0xFFFD#16]).ys = [1#16, 0#16, 2#16, 0xFFFF#16] ∧
      (chainBlock k (Chain.cleared 1) [10000#16, 10000#16, 10000#16, 10000#16, 10000#16]).ys =
        [10000#16, 20000#16, 30000#16, 32767#16, 32767#16] := by decide

/-! ### The assembly syntax (R110) -/

theorem test_assemble_push : assembleWords Params.standard .W "push -32768 ; the lowest".toList =
    some [(.W, [0x10008000#32])] := by decide
theorem test_assemble_reset : assembleWords Params.standard .H "reset rb+cnt".toList =
    some [(.H, [0x50000009#32])] := by decide
theorem test_assemble_csrw : assembleWords Params.standard .W "H: csrw CTRL, 0xFFFFFFFF".toList =
    some [(.H, [0x70000002#32, 0xFFFFFFFF#32])] := by decide

/-! ### Every obligation with hypotheses has a state and operands that meet them -/

/-- Three of four slots unpopped, the ring wrapped. -/
def fullRing : State := ringOf [(0, 5#16), (1, 6#16), (2, 7#16), (3, 8#16)] 2 3 4
/-- Every slot unpopped. -/
def unpoppedRing : State := ringOf [(0, 5#16), (1, 6#16), (2, 7#16), (3, 8#16)] 2 4 4
/-- Two samples held, one of them unpopped. -/
def partRing : State := ringOf [(0, 5#16), (1, 6#16)] 2 1 2
/-- Port `p` is offered the words `ws` in the state `s`, and nothing follows. -/
def turnOf (p : Port) (ws : List Word) : State := offered p ws fullRing

theorem witness_EncodedCommandsDecodeBack :
    (Instr.nop .R 0xFFFFFFF#28).wellFormed = true ∧ (Instr.push .W 0xFFFF#16).wellFormed = true ∧
    (Instr.popBlock .R true 0#16).wellFormed = true ∧ (Instr.snapshot .H 0xFFFF#16).wellFormed = true ∧
    (Instr.analyze .H false 0xFFFF#16).wellFormed = true ∧ (Instr.reset .H 31#5).wellFormed = true ∧
    (Instr.csrRead .H 0xFF#8).wellFormed = true ∧ (Instr.csrWrite .H 0xFF#8 0xFFFFFFFF#32).wellFormed = true := by
  decide

theorem witness_DecodedCommandsEncodeBack :
    (decode .H 0x70000011#32 7#32 = .ok (.csrWrite .H 0x11#8 7#32) ∧ cmdLen 0x70000011#32 = 2) ∧
    (decode .H 0x500000FF#32 7#32 = .error .reservedBits) ∧
    (decode .W 0x1000FFFF#32 7#32 = .ok (.push .W 0xFFFF#16) ∧ cmdLen 0x1000FFFF#32 = 1) := by decide

/-- A header that decodes to no command, then a command and a word behind it. -/
theorem witness_StepRunsTheDecodedCommand :
    ((turnOf .W [0x8FFFFFFF#32]).inputs = .execute .W :: [] ∧
      decodeWords .W ((turnOf .W [0x8FFFFFFF#32]).stream .W) = some (.error .illegalOp)) ∧
    (Instr.csrWrite .H 0x02#8 1#32).wellFormed = true ∧
    (turnOf .H (encode (.csrWrite .H 0x02#8 1#32) ++ [0#32])).inputs = .execute .H :: [] ∧
    ((turnOf .H (encode (.csrWrite .H 0x02#8 1#32) ++ [0#32])).stream .H).drop 0 =
      encode (.csrWrite .H 0x02#8 1#32) ++ [0#32] := by decide

theorem witness_EveryCommandAdvancesItsOwnPosition :
    (turnOf .H [0x70000002#32, 1#32]).pending .H = some (0x70000002#32, 1#32) ∧
    (turnOf .W [0xF0000000#32]).pending .W = some (0xF0000000#32, 0#32) := by decide

/-- One header for each code of R300, and one for none. -/
theorem witness_TurnRaisesTheFirstErrorOfTheTable :
    ((turnOf .W [0x8FFFFFFF#32]).pending .W = some (0x8FFFFFFF#32, 0#32) ∧
      raisedCode 4 4 .W 0x8FFFFFFF#32 = some 1#4) ∧
    ((turnOf .W [0x3FFF0000#32]).pending .W = some (0x3FFF0000#32, 0#32) ∧
      raisedCode 4 4 .W 0x3FFF0000#32 = some 2#4) ∧
    ((turnOf .H [0x6100003F#32]).pending .H = some (0x6100003F#32, 0#32) ∧
      raisedCode 4 4 .H 0x6100003F#32 = some 3#4) ∧
    ((turnOf .H [0x30000005#32]).pending .H = some (0x30000005#32, 0#32) ∧
      raisedCode 4 4 .H 0x30000005#32 = some 4#4) ∧
    ((turnOf .H [0x60000039#32]).pending .H = some (0x60000039#32, 0#32) ∧
      raisedCode 4 4 .H 0x60000039#32 = some 5#4) ∧
    ((turnOf .H [0x70000038#32, 0#32]).pending .H = some (0x70000038#32, 0#32) ∧
      raisedCode 4 4 .H 0x70000038#32 = some 6#4) ∧
    ((turnOf .H [0x70000003#32, 1#32]).pending .H = some (0x70000003#32, 1#32) ∧
      raisedCode 4 4 .H 0x70000003#32 = none) := by decide

theorem witness_CommandsOnTheWrongPortAreDropped : (Instr.csrWrite .W 0x02#8 0#32).wellFormed = false := by decide

theorem witness_PortsQueueWordsAndWaitForCompleteCommands :
    ({ fullRing with inputs := [.accept .R 0#32] } : State).inputs = .accept .R 0#32 :: [] ∧
    ((turnOf .R []).inputs = .execute .R :: [] ∧ ((turnOf .R []).stream .R).drop 0 = []) ∧
    ((turnOf .H [0x70000000#32]).inputs = .execute .H :: [] ∧
      ((turnOf .H [0x70000000#32]).stream .H).drop 0 = [0x70000000#32] ∧
      ((0x70000000#32 : Word).extractLsb' 28 4).toNat = 7) := by decide

theorem witness_HardwareResetSetsEveryElement :
    ({ fullRing with inputs := [.hardReset] } : State).inputs = .hardReset :: [] := by decide

/-- The outside world gives each port its turn in rotation. -/
def rotation : Schedule := fun k => .execute (match k % 3 with | 0 => .W | 1 => .R | _ => .H)

theorem witness_FairPortsExecuteTheirCommands :
    WeaklyFair rotation (turnOf .R [0x20000001#32]) ∧ (∀ k, rotation k ≠ .hardReset) ∧
      ((turnOf .R [0x20000001#32]).pending .R).isSome = true := by
  refine ⟨fun p k _ _ _ => ?_, fun k h => by simp [rotation] at h, by decide⟩
  cases p
  · exact ⟨3 * k, by omega, by simp [rotation]⟩
  · exact ⟨3 * k + 1, by omega, by simp [rotation, show (3 * k + 1) % 3 = 1 by omega]⟩
  · exact ⟨3 * k + 2, by omega, by simp [rotation, show (3 * k + 2) % 3 = 2 by omega]⟩

theorem witness_EveryStepKeepsTheInvariant :
    (turnOf .R [0x28000004#32]).Inv ∧ ∃ t, step (turnOf .R [0x28000004#32]) = .next t := ⟨by decide, _, rfl⟩

theorem witness_ResetMeetsTheInvariant : Params.standard.Legal ∧
    Params.Legal { capacity := 1, lpfOrder := 1 } ∧ Params.Legal { capacity := 65535, lpfOrder := 4 } := by decide

theorem witness_RingInvariantIsPreserved :
    (Params.Legal { capacity := 4, lpfOrder := 1 }) ∧
    (partRing.RingInv ∧ ∃ t, exec (.push .W 7#16) partRing = .next t) ∧ (partRing.fill < 4) := ⟨by decide, ⟨by decide, _, rfl⟩, by decide⟩

/-- Slot 3 has not been written, and differs. -/
theorem witness_UnwrittenSlotsAreNeverObservable :
    partRing.RingInv ∧ ∀ j, j < partRing.fill →
      Memory.get [(0, 5#16), (1, 6#16), (3, 9#16)] j = Memory.get partRing.ring j := by decide

theorem witness_PushWritesOneSlot : unpoppedRing.level = unpoppedRing.params.capacity ∧
    fullRing.level ≠ fullRing.params.capacity := by decide

theorem witness_PushDropsOnlyTheOldest :
    (fullRing.RingInv ∧ fullRing.level < fullRing.params.capacity) ∧
    (unpoppedRing.RingInv ∧ unpoppedRing.level = unpoppedRing.params.capacity) := by decide

/-- Filtered blocks of length 0, C and above. -/
theorem witness_PopBlockEmitsTheOldestSamples :
    (∃ t, exec (.popBlock .R true 0#16) fullRing = .next t) ∧ (∃ t, exec (.popBlock .R true 4#16) fullRing = .next t) ∧
    ∃ t, exec (.popBlock .R true 5#16) fullRing = .next t := ⟨exec_next _ _, exec_next _ _, exec_next _ _⟩

/-- Two pushes, a RESET of the counters alone, and a pop. -/
def someCommands : List Instr := [.push .W 1#16, .reset .H 0b01000#5, .push .W 2#16, .popBlock .R true 1#16]

theorem some_commands_well_formed : ∀ i ∈ someCommands, i.wellFormed = true := by decide

theorem some_commands_keep_the_ring : ∀ p m, Instr.reset p m ∈ someCommands → m.getLsbD 0 = false := by
  intro p m h
  simp only [someCommands, List.mem_cons, reduceCtorEq, false_or, or_false, List.not_mem_nil, Instr.reset.injEq] at h
  rw [h.2]; decide

theorem witness_CursorsCountThePushes : (block 4).RingInv ∧ (block 4).fill = 0 ∧
    (∀ i ∈ someCommands, i.wellFormed = true) ∧ (∀ p m, Instr.reset p m ∈ someCommands → m.getLsbD 0 = false) ∧
    ∃ t, execAll someCommands (block 4) = .next t :=
  ⟨by decide, by decide, some_commands_well_formed, some_commands_keep_the_ring, _, rfl⟩

theorem witness_PopBlockRemovesWhatItReturns :
    fullRing.RingInv ∧ ∃ t, exec (.popBlock .R true 2#16) fullRing = .next t := ⟨by decide, _, rfl⟩

theorem witness_PopBeyondCapacityUnderruns : fullRing.RingInv ∧ fullRing.params.capacity < (5#16 : Sample).toNat := by
  decide

theorem witness_UnderrunCountsOnceAndIsNoError : fullRing.level < (4#16 : Sample).toNat := by decide

theorem witness_PopsAreASubsequenceOfPushes : (block 4).RingInv ∧ (block 4).level = 0 ∧
    ∀ i ∈ someCommands, i.wellFormed = true := ⟨by decide, by decide, some_commands_well_formed⟩

/-- Five pushes into four slots. -/
def fivePushes : List Instr :=
  [.push .W 1#16, .push .W 2#16, .push .W 3#16, .push .W 4#16, .push .W 5#16, .popBlock .R false 2#16]

theorem witness_EverySampleIsPoppedDroppedOrUnpopped : (block 4).RingInv ∧ (block 4).level = 0 ∧
    (∀ i ∈ fivePushes, i.wellFormed = true) ∧ ∀ p m, Instr.reset p m ∉ fivePushes :=
  ⟨by decide, by decide, by decide, fun p m h => by simp [fivePushes] at h⟩

theorem witness_UnpoppedAreTheNewestPushes : (block 4).RingInv ∧ (block 4).fill = 0 ∧
    (∀ i ∈ someCommands, i.wellFormed = true) ∧ (∀ p m, Instr.reset p m ∈ someCommands → m.getLsbD 0 = false) ∧
    ∃ t, execAll someCommands (block 4) = .next t := witness_CursorsCountThePushes

theorem witness_SnapshotEmitsTheNewestSamples : (4#16 : Sample).toNat ≤ fullRing.params.capacity ∧
    (0#16 : Sample).toNat ≤ fullRing.params.capacity := by decide

theorem witness_SnapshotBeyondCapacityIsBadLen : fullRing.params.capacity < (5#16 : Sample).toNat := by decide

theorem witness_SnapshotSeesPoppedSamples :
    exec (.popBlock .R false 2#16) fullRing = .next (after [.popBlock .R false 2#16] fullRing) ∧
    (∃ u, exec (.snapshot .H 4#16) (after [.popBlock .R false 2#16] fullRing) = .next u) ∧
    ∃ v, exec (.snapshot .H 4#16) fullRing = .next v := ⟨rfl, ⟨_, rfl⟩, _, rfl⟩

theorem witness_SnapshotAfterOverflowIsTheLastPushes : (block 4).params.Legal ∧ (block 4).RingInv ∧
    (block 4).fill = 0 ∧ (∀ i ∈ fivePushes, (∃ x, i = .push .W x) ∨ ∃ f n, i = .popBlock .R f n) ∧
    (block 4).params.capacity < (pushedBy fivePushes).length := by
  refine ⟨by decide, by decide, by decide, ?_, by decide⟩
  simp [fivePushes]

/-- The feedback product 65208 * 65208000 is no multiple of 2^16, so its truncation has an error. -/
theorem witness_DcBlockerFollowsItsEquation :
    let c : Chain := { Chain.cleared 4 with dcX := 1000#16, dcY := 65208000#40 }
    Chain.Inv 4 c ∧ ((1000 : Int) - 1000) * 2 ^ 32 + 65208 * 65208000 -
      2 ^ 16 * (dcStep 65208#16 c 1000#16).chain.dcY.toInt ≠ 0 := by decide

theorem witness_ConstantInputConvergesToZero :
    let c : Chain := { Chain.cleared 4 with dcX := 1000#16, dcY := 65208000#40 }
    Chain.Inv 4 c ∧ (dcStep 65208#16 c 1000#16).chain.dcY.toInt ≠ 0 ∧
      (dcStep 0#16 c 1000#16).chain.dcY.toInt = 0 := by decide

/-- The reset configuration at every order, 1 and 4 among them, and at order 4 its nine coefficients. -/
theorem witness_LowPassIsTheDirectFormSum :
    (∀ N ∈ [1, 2, 3, 4], let s := State.resetWith { capacity := 4, lpfOrder := N } []
      1 ≤ s.filterCfg.order ∧ s.filterCfg.order ≤ 4 ∧ s.filterCfg.b = 0x10000000#32 :: List.replicate N 0#32 ∧
      (List.replicate N 0#32 : List Word).length = s.filterCfg.order ∧ s.filterCfg.a.length = s.filterCfg.order ∧
      s.chainP.xh.length = s.filterCfg.order ∧ s.chainP.yh.length = s.filterCfg.order) ∧
    let g := State.reset.filterCfg
    g.order = 4 ∧ g.b = [0x10000000#32, 0#32, 0#32, 0#32, 0#32] ∧ g.a = [0#32, 0#32, 0#32, 0#32] ∧
      State.reset.chainP.xh = [0#16, 0#16, 0#16, 0#16] ∧ State.reset.chainP.yh = [0#16, 0#16, 0#16, 0#16] := by decide

theorem witness_LowPassAccumulatorFits : State.reset.filterCfg.order ≤ 4 := by decide

theorem witness_ResetCoefficientsAreTheIdentity :
    let g := State.reset.filterCfg
    g.b = 0x10000000#32 :: List.replicate g.order 0#32 ∧ g.a = List.replicate g.order 0#32 := by decide

/-- The four settings of CTRL, a ring with unpopped samples, and a SNAPSHOT of one sample. -/
theorem witness_DisabledStagesPassAndFreeze :
    (∀ dc ∈ [true, false], ∀ lpf ∈ [true, false],
      ({ State.reset with dcEn := dc, lpfEn := lpf } : State).filterCfg.dcEn = dc ∧
      ({ State.reset with dcEn := dc, lpfEn := lpf } : State).filterCfg.lpfEn = lpf) ∧
    fullRing.unpopped = 8#16 :: [5#16, 6#16] ∧
    (List.replicate (1 - fullRing.fill) 0#16 ++ lastN 1 fullRing.held = [6#16]) ∧
    1 ≤ fullRing.params.capacity := by decide

theorem witness_FilterStateChangesOnlyWhereSaid :
    (∃ t, exec (.popBlock .R true 2#16) fullRing = .next t) ∧
    ({ fullRing with inputs := [.hardReset] } : State).inputs = .hardReset :: [] := ⟨⟨_, rfl⟩, by decide⟩

/-- A write of 1 clears SAT_P and SAT_A. A jump of more than the range sets SAT_P, and SAT_A. -/
theorem witness_SaturationIsStickyAndNoError :
    ((∃ t, exec (.csrWrite .H 0x03#8 0x6#32) { fullRing with satP := true, satA := true } = .next t) ∧
      (after [.csrWrite .H 0x03#8 0x6#32] { fullRing with satP := true, satA := true }).satP = false ∧
      (after [.csrWrite .H 0x03#8 0x6#32] { fullRing with satP := true, satA := true }).satA = false) ∧
    (after [.popBlock .R true 2#16] (ringOf [(0, 0x8000#16), (1, 0x7FFF#16)] 2 2 2)).satP = true ∧
    (after [.analyze .H true 2#16] (ringOf [(0, 0x8000#16), (1, 0x7FFF#16)] 2 2 2)).satA = true :=
  ⟨⟨⟨_, rfl⟩, by decide, by decide⟩, by decide, by decide⟩

/-- The clause on ANALYZE, at both ends of its lengths. -/
theorem witness_SaturationIsStickyAndNoError_analyze :
    ((1 ≤ (1#16 : Sample).toNat ∧ (1#16 : Sample).toNat ≤ fullRing.params.capacity) ∧
      ∃ t, exec (.analyze .H true 1#16) fullRing = .next t) ∧
    ((1 ≤ (4#16 : Sample).toNat ∧ (4#16 : Sample).toNat ≤ fullRing.params.capacity) ∧
      ∃ t, exec (.analyze .H true 4#16) fullRing = .next t) :=
  ⟨⟨by decide, exec_next _ _⟩, by decide, exec_next _ _⟩

theorem witness_AnalyzeMeasuresTheSnapshotBlock :
    (1 ≤ (1#16 : Sample).toNat ∧ (1#16 : Sample).toNat ≤ partRing.params.capacity) ∧
    (1 ≤ (4#16 : Sample).toNat ∧ (4#16 : Sample).toNat ≤ partRing.params.capacity) := by decide

theorem witness_AnalyzeOfABadLengthIsDropped :
    (0#16 : Sample).toNat = 0 ∧ partRing.params.capacity < (5#16 : Sample).toNat := by decide

theorem witness_SumOfSquaresIsExact : ([0x8000#16, 0x7FFF#16] : List Sample).length = 2 ∧ 2 ≤ 65535 := by decide

theorem witness_RmsIsTheRealRootRoundedDown :
    ([0x8000#16] : List Sample).length = 1 ∧ 1 ≤ 1 ∧ 1 ≤ 65535 := by decide

theorem witness_PeakIsTheLargestMagnitude : ([0x8000#16, 0x7FFF#16] : List Sample) ≠ [] := by decide

theorem witness_EnergySplitIsExact : ([0x8000#16, 0x7FFF#16] : List Sample).length = 2 ∧ 2 ≤ 65535 := by decide

theorem witness_EnergiesAreNormalisedByBlockLength :
    ([0x8000#16, 0x7FFF#16] : List Sample).length = 2 ∧ 1 ≤ 2 ∧ 2 ≤ 65535 := by decide

theorem witness_StatisticsAreRecomputedFresh :
    (1 ≤ (4#16 : Sample).toNat ∧ (4#16 : Sample).toNat ≤ partRing.params.capacity) ∧
    ∃ t, exec (.snapshot .H 4#16) partRing = .next t := ⟨by decide, _, rfl⟩

theorem witness_ResetClearsTheNamedParts :
    (0b00001#5).getLsbD 0 = true ∧ (0b11110#5).getLsbD 0 = false ∧ (0b01000#5).getLsbD 3 = true ∧
      (0b10000#5).getLsbD 4 = true := by decide

theorem witness_ConfigurationChangesOnlyByCsrWrite :
    (∃ t, exec (.reset .H 31#5) fullRing = .next t) ∧ (∃ t, exec (.push .W 1#16) fullRing = .next t) ∧
    ∃ t, exec (.csrWrite .H 0x03#8 0x7#32) fullRing = .next t := ⟨⟨_, rfl⟩, ⟨_, rfl⟩, _, rfl⟩

/-- The bounds of the conditional reads: LEVEL and FILL at C, WPTR at C - 1, the first and the last coefficient. -/
theorem witness_CsrReadEmitsTheRegister :
    fullRing.params.Legal ∧ unpoppedRing.level ≤ unpoppedRing.params.capacity ∧
    (ringOf [(0, 5#16)] 3 0 4).wptr < (ringOf [(0, 5#16)] 3 0 4).params.capacity ∧
    fullRing.fill ≤ fullRing.params.capacity ∧ fullRing.CoefInv ∧ 0 ≤ fullRing.params.lpfOrder ∧
    4 ≤ fullRing.params.lpfOrder ∧ 1 ≤ fullRing.params.lpfOrder := by decide

/-- The last mapped and the first unmapped address of each range, at order 4. -/
theorem witness_UnmappedAddressesRaiseBadCsrAddr :
    (∀ a ∈ [0x00, 0x0D, 0x10, 0x14, 0x21, 0x24, 0x30, 0x38], mappedAddr 4 a) ∧
    ∀ a ∈ [0x0E, 0x0F, 0x15, 0x20, 0x25, 0x2F, 0x39, 0xFF], ¬mappedAddr 4 a := by decide

theorem witness_EveryCsrReadHeaderEmitsOneWord :
    ((0x61000003#32 : Word).extractLsb' 28 4).toNat = 6 ∧
    ((turnOf .H [0x61000003#32]).pending .H = some (0x61000003#32, 0#32) ∧
      raisedCode 4 4 .H 0x61000003#32 ≠ none) ∧
    ((turnOf .H [0x60000003#32]).pending .H = some (0x60000003#32, 0#32) ∧
      raisedCode 4 4 .H 0x60000003#32 = none ∧ csrOf 4 0x03#8 = some .status) ∧
    (Port.R ≠ .H ∧ (turnOf .R [0x60000003#32]).pending .R = some (0x60000003#32, 0#32) ∧
      (turnOf .R [0x60000003#32]).err = false) := by decide

theorem witness_CsrWriteSetsTheRegister : fullRing.params.Legal ∧ fullRing.CoefInv ∧
    4 ≤ fullRing.params.lpfOrder ∧ 1 ≤ fullRing.params.lpfOrder := by decide

theorem witness_CsrWriteOfAReadOnlyRegisterIsDropped :
    ∀ a ∈ [0x00#8, 0x01#8, 0x04#8, 0x0B#8, 0x30#8, 0x38#8], readOnlyAddr a.toNat := by decide

theorem witness_ReservedBitsReadZeroAndIgnoreWrites : fullRing.params.Legal ∧ fullRing.CoefInv := by decide

/-- After the write, a SNAPSHOT of five on port H is pending. -/
theorem witness_ClearingErrRearmsTheCapture :
    (1#32 : Word).getLsbD 0 = true ∧
    (after [.csrWrite .H 0x03#8 1#32]
      (turnOf .H [0x70000003#32, 1#32, 0x30000005#32])).pending .H = some (0x30000005#32, 0#32) ∧
    raisedCode 4 4 .H 0x30000005#32 = some 4#4 ∧
    ∃ u, State.turn .H (after [.csrWrite .H 0x03#8 1#32]
      (turnOf .H [0x70000003#32, 1#32, 0x30000005#32])) = .next u := ⟨by decide, by decide, by decide, _, rfl⟩

theorem witness_CountersCountOnlyTheirEvents :
    (∃ t, exec (.popBlock .R false 4#16) fullRing = .next t) ∧ (∃ t, exec (.push .W 1#16) unpoppedRing = .next t) ∧
    ∃ t, exec (.nop .W 0#28) fullRing = .next t := ⟨⟨_, rfl⟩, ⟨_, rfl⟩, _, rfl⟩

end Sys2Proof.Tests
end

/-! SUPPORT. What one executed command can do, as one inversion lemma (`effect_of_exec`), and what it leaves in each
part of the state. -/

namespace Sys2Proof.Machine

/-! ### Fields a CSR write leaves, read off `csrStore_frame` -/

@[simp] theorem csrStore_params (c : Csr) (d : Word) (s : State) : (State.csrStore c d s).params = s.params := by
  rw [csrStore_frame]
@[simp] theorem csrStore_ring (c : Csr) (d : Word) (s : State) : (State.csrStore c d s).ring = s.ring := by
  rw [csrStore_frame]
@[simp] theorem csrStore_wptr (c : Csr) (d : Word) (s : State) : (State.csrStore c d s).wptr = s.wptr := by
  rw [csrStore_frame]
@[simp] theorem csrStore_level (c : Csr) (d : Word) (s : State) : (State.csrStore c d s).level = s.level := by
  rw [csrStore_frame]
@[simp] theorem csrStore_fill (c : Csr) (d : Word) (s : State) : (State.csrStore c d s).fill = s.fill := by
  rw [csrStore_frame]
@[simp] theorem csrStore_underrunCnt (c : Csr) (d : Word) (s : State) :
    (State.csrStore c d s).underrunCnt = s.underrunCnt := by
  rw [csrStore_frame]
@[simp] theorem csrStore_dropCnt (c : Csr) (d : Word) (s : State) : (State.csrStore c d s).dropCnt = s.dropCnt := by
  rw [csrStore_frame]
@[simp] theorem csrStore_chainP (c : Csr) (d : Word) (s : State) : (State.csrStore c d s).chainP = s.chainP := by
  rw [csrStore_frame]
@[simp] theorem csrStore_chainA (c : Csr) (d : Word) (s : State) : (State.csrStore c d s).chainA = s.chainA := by
  rw [csrStore_frame]
@[simp] theorem csrStore_errCause (c : Csr) (d : Word) (s : State) : (State.csrStore c d s).errCause = s.errCause := by
  rw [csrStore_frame]
@[simp] theorem csrStore_errPort (c : Csr) (d : Word) (s : State) : (State.csrStore c d s).errPort = s.errPort := by
  rw [csrStore_frame]
@[simp] theorem csrStore_errWord (c : Csr) (d : Word) (s : State) : (State.csrStore c d s).errWord = s.errWord := by
  rw [csrStore_frame]
@[simp] theorem csrStore_stats (c : Csr) (d : Word) (s : State) : (State.csrStore c d s).stats = s.stats := by
  rw [csrStore_frame]
@[simp] theorem csrStore_statsValid (c : Csr) (d : Word) (s : State) :
    (State.csrStore c d s).statsValid = s.statsValid := by
  rw [csrStore_frame]

/-- A CSR write keeps the number of coefficient registers. -/
theorem csrStore_coefLengths (c : Csr) (d : Word) (s : State) :
    (State.csrStore c d s).lpfB.length = s.lpfB.length ∧ (State.csrStore c d s).lpfA.length = s.lpfA.length := by
  cases c <;> simp [State.csrStore, State.writeCtrl, State.writeStatus]

/-! ### The effect of a command -/

/-- What a command can do in state `s`: raise one error, after what it may have emitted, or have its own effect on the
port that accepts it. -/
inductive Effect (s : State) : Instr → State → Prop
  | error (i : Instr) (c : Cause) (ws : List Word) :
      Effect s i (State.cmdError c i.port i.header (State.emit i.port ws s))
  | nop (p : Port) (hint : BitVec 28) : Effect s (.nop p hint) (State.advance p 1 s)
  | push (x : BitVec 16) : Effect s (.push .W x) (State.advance .W 1 (State.pushSample x s))
  | popBlock (f : Bool) (n : BitVec 16) : Effect s (.popBlock .R f n) (State.popBlock .R f n.toNat s)
  | snapshot (n : BitVec 16) (hC : n.toNat ≤ s.params.capacity) :
      Effect s (.snapshot .H n) (State.snapshot .H n.toNat s)
  | analyze (f : Bool) (n : BitVec 16) (h1 : 1 ≤ n.toNat) (hC : n.toNat ≤ s.params.capacity) :
      Effect s (.analyze .H f n) (State.analyze .H f n.toNat s)
  | reset (m : BitVec 5) : Effect s (.reset .H m) (State.advance .H 1 (State.resetParts m s))
  | csrRead (a : BitVec 8) (c : Csr) (hc : csrOf s.params.lpfOrder a = some c) :
      Effect s (.csrRead .H a) (State.advance .H 1 (State.emit .H [s.csrValue c] s))
  | csrWrite (a : BitVec 8) (d : Word) (c : Csr) (hc : csrOf s.params.lpfOrder a = some c)
      (hw : c.readOnly = false) : Effect s (.csrWrite .H a d) (State.advance .H 2 (State.csrStore c d s))

@[simp] theorem emit_nil (p : Port) (s : State) : State.emit p [] s = s := by
  cases p <;> simp [State.emit]

/-- A command that emits nothing before its error. -/
theorem Effect.plainError (s : State) (i : Instr) (c : Cause) : Effect s i (State.cmdError c i.port i.header s) := by
  simpa using Effect.error (s := s) i c []

/-- Whatever a command answers is one of its effects. -/
theorem effect_of_exec {i : Instr} {s t : State} (h : exec i s = .next t) : Effect s i t := by
  rcases exec_cases i s with ⟨-, e⟩ | ⟨p, hint, rfl, e⟩ | ⟨x, rfl, e⟩ | ⟨f, n, rfl, e⟩ | ⟨n, rfl, e⟩ | ⟨f, n, rfl, e⟩ |
    ⟨m, rfl, e⟩ | ⟨a, rfl, e⟩ | ⟨a, d, rfl, e⟩ <;> (rw [e] at h; injection h with h; subst h)
  · exact .plainError s i _
  · exact .nop p hint
  · exact .push x
  · exact .popBlock f n
  · split
    · exact .plainError s _ _
    · next hC => exact .snapshot n (by omega)
  · split
    · exact .plainError s _ _
    · next hC => exact .analyze f n (by omega) (by omega)
  · exact .reset m
  · rcases csrRead_cases .H a s with ⟨-, e⟩ | ⟨c, hc, e⟩ <;> rw [e]
    · exact .error (.csrRead .H a) _ _
    · exact .csrRead a c hc
  · rcases csrWrite_cases .H a d s with ⟨-, e⟩ | ⟨c, -, -, e⟩ | ⟨c, hc, hw, e⟩ <;> rw [e]
    · exact .plainError s _ _
    · exact .plainError s _ _
    · exact .csrWrite a d c hc hw

/-- A header that does not decode raises its error, after the word R272 may have emitted. -/
theorem decodeError_eq (c : Cause) (p : Port) (w0 : Word) (s : State) :
    ∃ ws, State.decodeError c p w0 s = State.cmdError c p w0 (State.emit p ws s) := by
  unfold State.decodeError
  split
  · exact ⟨_, rfl⟩
  · exact ⟨[], by simp⟩

/-- What the turn of a port with a complete command can do: the effect of the command whose header stands there, or
the error of a header that decodes to none. -/
theorem turn_effect {s t : State} {p : Port} {w0 w1 : Word} (hp : s.pending p = some (w0, w1))
    (h : State.turn p s = .next t) :
    (∃ i, i.port = p ∧ i.header = w0 ∧ Effect s i t) ∨
      ∃ c ws, t = State.cmdError c p w0 (State.emit p ws s) := by
  rw [turn_some s p w0 w1 hp] at h
  cases hd : decode p w0 w1 with
  | ok i =>
    obtain ⟨hop, -, hrsv, rfl⟩ := (decode_ok p w0 w1 i).mp hd
    obtain ⟨hhead, -, hport, -⟩ := header_operandsOf p w0 w1 hop hrsv
    rw [hd] at h
    exact .inl ⟨_, hport, hhead, effect_of_exec h⟩
  | error c =>
    rw [hd] at h
    injection h with h
    obtain ⟨ws, e⟩ := decodeError_eq c p w0 s
    exact .inr ⟨c, ws, by rw [← h, e]⟩

/-! ### What a command leaves in each part of the state -/

/-- No command changes the parameters. -/
theorem Effect.params {i : Instr} {s t : State} (h : Effect s i t) : t.params = s.params := by
  cases h <;> simp [State.popBlock, State.snapshot, State.analyze]

/-- FC_P changes by a filtered POP_BLOCK and by RESET with bit FCP only (R39). -/
theorem Effect.chainP {i : Instr} {s t : State} (h : Effect s i t) : t.chainP = s.chainP ∨
    (∃ n, i = .popBlock .R true n ∧
      t.chainP = (chainBlock s.filterCfg s.chainP (s.popValues n.toNat)).chain) ∨
    ∃ m, i = .reset .H m ∧ m.getLsbD 1 = true ∧ t.chainP = Chain.cleared s.params.lpfOrder := by
  cases h with
  | popBlock f n =>
    cases f with
    | false => exact .inl rfl
    | true => exact .inr (.inl ⟨n, rfl, rfl⟩)
  | reset m =>
    by_cases hm : m.getLsbD 1 = true
    · exact .inr (.inr ⟨m, rfl, hm, if_pos hm⟩)
    · exact .inl (if_neg hm)
  | _ => exact .inl (by simp [State.snapshot, State.analyze])

/-- FC_A changes by a filtered ANALYZE and by RESET with bit FCA only (R39). -/
theorem Effect.chainA {i : Instr} {s t : State} (h : Effect s i t) : t.chainA = s.chainA ∨
    (∃ n, i = .analyze .H true n ∧
      t.chainA = (chainBlock s.filterCfg s.chainA (s.snapshotValues n.toNat)).chain) ∨
    ∃ m, i = .reset .H m ∧ m.getLsbD 2 = true ∧ t.chainA = Chain.cleared s.params.lpfOrder := by
  cases h with
  | analyze f n =>
    cases f with
    | false => exact .inl rfl
    | true => exact .inr (.inl ⟨n, rfl, rfl⟩)
  | reset m =>
    by_cases hm : m.getLsbD 2 = true
    · exact .inr (.inr ⟨m, rfl, hm, if_pos hm⟩)
    · exact .inl (if_neg hm)
  | _ => exact .inl (by simp [State.snapshot, State.popBlock])

/-- UNDERRUN_CNT changes by POP_BLOCK and by RESET with bit CNT only (R36). -/
theorem Effect.underrunCnt {i : Instr} {s t : State} (h : Effect s i t) : t.underrunCnt = s.underrunCnt ∨
    (∃ f n, i = .popBlock .R f n) ∨ ∃ m, i = .reset .H m ∧ m.getLsbD 3 = true := by
  cases h with
  | popBlock f n => exact .inr (.inl ⟨f, n, rfl⟩)
  | reset m =>
    by_cases hm : m.getLsbD 3 = true
    · exact .inr (.inr ⟨m, rfl, hm⟩)
    · exact .inl (if_neg hm)
  | _ => exact .inl (by simp [State.snapshot, State.analyze])

/-- DROP_CNT changes by PUSH and by RESET with bit CNT only (R37). -/
theorem Effect.dropCnt {i : Instr} {s t : State} (h : Effect s i t) : t.dropCnt = s.dropCnt ∨
    (∃ x, i = .push .W x) ∨ ∃ m, i = .reset .H m ∧ m.getLsbD 3 = true := by
  cases h with
  | push x => exact .inr (.inl ⟨x, rfl⟩)
  | reset m =>
    by_cases hm : m.getLsbD 3 = true
    · exact .inr (.inr ⟨m, rfl, hm⟩)
    · exact .inl (if_neg hm)
  | _ => exact .inl (by simp [State.popBlock, State.snapshot, State.analyze])

/-! ### Positions and streams -/

/-- From `s` to `t` the position of port `p` moves by `len`, and no other position and no command stream changes. -/
def AdvancesBy (p : Port) (len : Nat) (s t : State) : Prop :=
  t.pos p = s.pos p + len ∧ (∀ q, q ≠ p → t.pos q = s.pos q) ∧ ∀ q, t.stream q = s.stream q

/-- An update that touches neither positions nor streams, and then the position of one port moves. -/
theorem advancesBy_advance {p : Port} {len : Nat} {s u : State} (hpos : ∀ q, u.pos q = s.pos q)
    (hstr : ∀ q, u.stream q = s.stream q) : AdvancesBy p len s (State.advance p len u) := by
  obtain ⟨hself, hother, hstream⟩ := advance_ports p len u
  exact ⟨by rw [hself, hpos], fun q hq => by rw [hother q hq, hpos], fun q => by rw [hstream, hstr]⟩

/-- An error moves past its command. -/
theorem advancesBy_cmdError (c : Cause) (p : Port) (w0 : Word) (ws : List Word) (s : State) :
    AdvancesBy p (cmdLen w0) s (State.cmdError c p w0 (State.emit p ws s)) := by
  apply advancesBy_advance <;> intro q <;> cases p <;> cases q <;> rfl

theorem cmdLen_header_one {i : Instr} (h : i.dataWords = []) : cmdLen i.header = 1 := by
  rw [cmdLen_header, h]; rfl

/-- Every command moves its own position by its length (R28). -/
theorem Effect.advancesBy {i : Instr} {s t : State} (h : Effect s i t) :
    AdvancesBy i.port (cmdLen i.header) s t := by
  cases h with
  | error i c ws => exact advancesBy_cmdError c i.port i.header ws s
  | csrWrite a d c hc hw =>
    rw [cmdLen_header]
    apply advancesBy_advance <;> intro q <;> cases c <;> cases q <;> rfl
  | _ =>
    rw [cmdLen_header_one rfl]
    apply advancesBy_advance <;> intro q <;> cases q <;> rfl

/-- The turn of a port moves past the command it holds, whatever that is. -/
theorem turn_advancesBy {s t : State} {p : Port} {w0 w1 : Word} (hp : s.pending p = some (w0, w1))
    (h : State.turn p s = .next t) : AdvancesBy p (cmdLen w0) s t := by
  rcases turn_effect hp h with ⟨i, rfl, rfl, he⟩ | ⟨c, ws, rfl⟩
  · exact he.advancesBy
  · exact advancesBy_cmdError c p w0 ws s

/-- Every turn answers a next state (R303). -/
theorem turn_next (p : Port) (s : State) : ∃ t, State.turn p s = .next t := by
  unfold State.turn
  split
  · exact ⟨_, rfl⟩
  · split
    · exact exec_next _ s
    · exact ⟨_, rfl⟩

end Sys2Proof.Machine

/-! SUPPORT. Every command keeps each part of the invariant of the block, and with the positions so does every step. -/

namespace Sys2Proof.Machine

/-! ### The ring state (R30, R35) -/

/-- The ring invariant reads the parameters, the storage and the three cursors only. -/
theorem ringInv_congr {s t : State} (hp : t.params = s.params) (hr : t.ring = s.ring) (hw : t.wptr = s.wptr)
    (hl : t.level = s.level) (hf : t.fill = s.fill) (h : s.RingInv) : t.RingInv := by
  unfold State.RingInv at *
  rwa [hp, hr, hw, hl, hf]

/-- The storage invariant reads the parameters and the storage only. -/
theorem storageInv_congr {s t : State} (hp : t.params = s.params) (hr : t.ring = s.ring) (h : s.StorageInv) :
    t.StorageInv := by
  unfold State.StorageInv at *
  rwa [hp, hr]

/-- RESET keeps the cursors or sets all three to 0. -/
theorem resetParts_ringInv (m : BitVec 5) {s : State} (h : s.RingInv) : (State.resetParts m s).RingInv := by
  by_cases hm : maskRB m = true
  · have hC : 0 < s.params.capacity := Nat.zero_lt_of_lt h.2.2.1
    simp [State.RingInv, State.resetParts, hm, hC]
  · exact ringInv_congr (s := s) rfl rfl (if_neg hm) (if_neg hm) (if_neg hm) h

/-- Every command keeps the ring invariant (R35). -/
theorem Effect.ringInv {i : Instr} {s t : State} (he : Effect s i t) (h : s.RingInv) : t.RingInv := by
  cases he with
  | push x => exact ringInv_congr rfl rfl rfl rfl rfl (State.pushSample_ringInv s x h)
  | popBlock f n =>
    obtain ⟨hl, hrest⟩ := h
    exact ⟨(Nat.sub_le _ _).trans hl, hrest⟩
  | reset m => exact ringInv_congr rfl rfl rfl rfl rfl (resetParts_ringInv m h)
  | _ => refine ringInv_congr (s := s) ?_ ?_ ?_ ?_ ?_ h <;> simp [State.snapshot, State.analyze]

/-- Every command keeps the storage in its canonical form inside `0 .. C-1` (R30). -/
theorem Effect.storageInv {i : Instr} {s t : State} (he : Effect s i t) (hw : s.wptr < s.params.capacity)
    (h : s.StorageInv) : t.StorageInv := by
  cases he with
  | push x => exact storageInv_congr rfl rfl (State.pushSample_storageInv s x h hw)
  | _ => refine storageInv_congr (s := s) ?_ ?_ h <;> simp [State.popBlock, State.snapshot, State.analyze]

/-! ### The filter chains and the coefficients (R38, R55) -/

theorem Effect.chainP_inv {i : Instr} {s t : State} (he : Effect s i t) (h : Chain.Inv s.params.lpfOrder s.chainP) :
    Chain.Inv t.params.lpfOrder t.chainP := by
  rw [he.params]
  rcases he.chainP with e | ⟨n, -, e⟩ | ⟨m, -, -, e⟩ <;> rw [e]
  · exact h
  · exact chainBlock_inv _ _ _ _ rfl h
  · exact cleared_inv _

theorem Effect.chainA_inv {i : Instr} {s t : State} (he : Effect s i t) (h : Chain.Inv s.params.lpfOrder s.chainA) :
    Chain.Inv t.params.lpfOrder t.chainA := by
  rw [he.params]
  rcases he.chainA with e | ⟨n, -, e⟩ | ⟨m, -, -, e⟩ <;> rw [e]
  · exact h
  · exact chainBlock_inv _ _ _ _ rfl h
  · exact cleared_inv _

/-- No command changes the number of coefficient registers. -/
theorem Effect.coefLengths {i : Instr} {s t : State} (he : Effect s i t) :
    t.lpfB.length = s.lpfB.length ∧ t.lpfA.length = s.lpfA.length := by
  cases he with
  | csrWrite a d c hc hw => exact csrStore_coefLengths c d s
  | _ => simp [State.popBlock, State.snapshot, State.analyze]

theorem Effect.coefInv {i : Instr} {s t : State} (he : Effect s i t) (h : s.CoefInv) : t.CoefInv := by
  unfold State.CoefInv
  rw [he.params, he.coefLengths.1, he.coefLengths.2]
  exact h

/-! ### The error record (R45, R300) -/

/-- A raised cause is none of the reserved codes. -/
theorem causeCode_range (c : Cause) : c.code.toNat ≤ 6 ∧ c.code ≠ 0#4 := by cases c <;> decide

/-- A recorded port is none of the reserved codes. -/
theorem portCode_range (p : Port) : p.code.toNat ≤ 2 := by cases p <;> decide

/-- An error keeps the pending record, or records its own cause and port. -/
theorem cmdError_errInv (c : Cause) (p : Port) (w0 : Word) {s : State} (h : s.ErrInv) :
    (State.cmdError c p w0 s).ErrInv := by
  obtain ⟨hcause, hport, hset, hnone⟩ := h
  obtain ⟨hc6, hc0⟩ := causeCode_range c
  unfold State.ErrInv
  rw [State.cmdError_errCause, State.cmdError_errPort, State.cmdError_errWord]
  cases he : s.err with
  | true => exact ⟨hcause, hport, fun _ => hset he, hnone⟩
  | false => exact ⟨hc6, portCode_range p, fun _ => hc0, fun h0 => absurd h0 hc0⟩

/-- The record may be cleared of ERR, and is otherwise as it was. -/
theorem errInv_of_clear {s t : State} (hc : t.errCause = s.errCause) (hp : t.errPort = s.errPort)
    (hw : t.errWord = s.errWord) (he : t.err = true → s.err = true) (h : s.ErrInv) : t.ErrInv := by
  obtain ⟨hcause, hport, hset, hnone⟩ := h
  unfold State.ErrInv
  rw [hc, hp, hw]
  exact ⟨hcause, hport, fun ht => hset (he ht), hnone⟩

/-- A CSR write never sets ERR. -/
theorem csrStore_err_imp (c : Csr) (d : Word) (s : State) (h : (State.csrStore c d s).err = true) : s.err = true := by
  rcases csrStore_flags c d s with ⟨e, -, -⟩ | ⟨-, e, -, -⟩ <;> rw [e] at h
  · exact h
  · exact (Bool.and_eq_true_iff.mp h).1

/-- An error after what its command emitted keeps the invariant of the record. -/
theorem cmdError_emit_errInv (c : Cause) (p : Port) (w0 : Word) (ws : List Word) {s : State} (h : s.ErrInv) :
    (State.cmdError c p w0 (State.emit p ws s)).ErrInv :=
  cmdError_errInv c p w0 (errInv_of_clear (by simp) (by simp) (by simp) (by simp) h)

theorem Effect.errInv {i : Instr} {s t : State} (he : Effect s i t) (h : s.ErrInv) : t.ErrInv := by
  cases he with
  | error i c ws => exact cmdError_emit_errInv c i.port i.header ws h
  | csrWrite a d c hc hw =>
    exact errInv_of_clear (by simp) (by simp) (by simp) (by simpa using csrStore_err_imp c d s) h
  | _ =>
    refine errInv_of_clear ?_ ?_ ?_ ?_ h <;> simp [State.popBlock, State.snapshot, State.analyze]

/-! ### The statistics (R56 to R64) -/

/-- The statistics invariant reads the parameters, the statistics and STATS_VALID only. -/
theorem statsInv_congr {s t : State} (hp : t.params = s.params) (hs : t.stats = s.stats)
    (hv : t.statsValid = s.statsValid) (h : s.StatsInv) : t.StatsInv := by
  unfold State.StatsInv at *
  rwa [hp, hs, hv]

theorem statsInv_of_cleared {s : State} (hs : s.stats = Stats.cleared) (hv : s.statsValid = false) : s.StatsInv := by
  unfold State.StatsInv
  rw [hs, hv]
  exact ⟨fun _ => rfl, fun h => Bool.noConfusion h, by decide⟩

/-- A completed ANALYZE leaves every statistics register in its range (R223, R224, R226, R231). -/
theorem statsInv_of_blockStats {s : State} {thr n : Nat} {z : List Sample} (hz : z.length = n) (h1 : 1 ≤ n)
    (hC : n ≤ s.params.capacity) (hn : n ≤ 65535) (hs : s.stats = blockStats thr n z) (hv : s.statsValid = true) :
    s.StatsInv := by
  obtain ⟨en, esumsq, erms, epeak, elow, ehigh⟩ := blockStats_ranges thr n z hz h1 hn
  have hsumsq : sumSq z ≤ n * 2 ^ 30 := hz ▸ sumSq_le z
  have hdiffs : (firstDiffs z).sum ≤ 65535 * (n - 1) := hz ▸ firstDiffs_sum_le z
  unfold State.StatsInv
  rw [hs, hv, en, esumsq, erms, epeak, elow, ehigh, lowSumOf_add_highSumOf]
  exact ⟨fun h => Bool.noConfusion h, fun _ => ⟨h1, hC⟩, hsumsq, rmsQ8_le _ _ hsumsq, peakOf_le z, hdiffs⟩

theorem Effect.statsInv {i : Instr} {s t : State} (he : Effect s i t) (h : s.StatsInv) : t.StatsInv := by
  cases he with
  | analyze f n h1 hC =>
    exact statsInv_of_blockStats (by simp) h1 hC (Nat.le_of_lt_succ n.isLt) rfl rfl
  | reset m =>
    by_cases hm : maskSTATS m = true
    · exact statsInv_of_cleared (if_pos hm) (if_pos hm)
    · exact statsInv_congr (s := s) rfl (if_neg hm) (if_neg hm) h
  | _ => refine statsInv_congr ?_ ?_ ?_ h <;> simp [State.popBlock, State.snapshot]

/-! ### The positions (R27) -/

theorem posInv_iff (s : State) : s.PosInv ↔ ∀ p, s.pos p ≤ (s.stream p).length := by
  refine ⟨fun ⟨hW, hR, hH⟩ p => ?_, fun h => ⟨h .W, h .R, h .H⟩⟩
  cases p
  · exact hW
  · exact hR
  · exact hH

/-- A position that moves past a command which its port holds stays within the stream. -/
theorem AdvancesBy.posInv {s t : State} {p : Port} {w0 w1 : Word} (ha : AdvancesBy p (cmdLen w0) s t)
    (hp : s.pending p = some (w0, w1)) (h : s.PosInv) : t.PosInv := by
  rw [posInv_iff] at *
  obtain ⟨hself, hother, hstream⟩ := ha
  intro q
  rw [hstream]
  by_cases hq : q = p
  · subst hq
    have hlen := takeCommand_length _ w0 w1 hp
    rw [List.length_drop] at hlen
    have := h q
    omega
  · rw [hother q hq]; exact h q

/-- A word that arrives only lengthens the stream of its port. -/
theorem accept_posInv (p : Port) (w : Word) {s : State} (h : s.PosInv) :
    (State.setStream p (s.stream p ++ [w]) s).PosInv := by
  rw [posInv_iff] at *
  intro q
  rw [State.setStream_pos]
  by_cases hq : q = p
  · subst hq
    rw [State.setStream_self, List.length_append]
    exact (h q).trans (Nat.le_add_right _ _)
  · rw [State.setStream_other _ _ _ _ hq]; exact h q

/-! ### The whole invariant -/

/-- A command keeps every part of the invariant but the one about its position, which is given. -/
theorem Effect.inv {i : Instr} {s t : State} (he : Effect s i t) (hs : s.Inv) (ht : t.PosInv) : t.Inv := by
  obtain ⟨hlegal, hring, hstorage, hP, hA, hcoef, herr, hstats, -⟩ := hs
  exact ⟨he.params ▸ hlegal, he.ringInv hring, he.storageInv hring.2.2.1 hstorage, he.chainP_inv hP,
    he.chainA_inv hA, he.coefInv hcoef, he.errInv herr, he.statsInv hstats, ht⟩

/-- The invariant reads nothing but these fields, the error record and the positions. -/
theorem inv_congr {s t : State} (hparams : t.params = s.params) (hring : t.ring = s.ring) (hwptr : t.wptr = s.wptr)
    (hlevel : t.level = s.level) (hfill : t.fill = s.fill) (hchainP : t.chainP = s.chainP)
    (hchainA : t.chainA = s.chainA) (hlpfB : t.lpfB = s.lpfB) (hlpfA : t.lpfA = s.lpfA) (hstats : t.stats = s.stats)
    (hvalid : t.statsValid = s.statsValid) (herr : t.ErrInv) (hpos : t.PosInv) (h : s.Inv) : t.Inv := by
  obtain ⟨hlegal, hringInv, hstorage, hP, hA, hcoef, -, hstatsInv, -⟩ := h
  refine ⟨hparams ▸ hlegal, ringInv_congr hparams hring hwptr hlevel hfill hringInv,
    storageInv_congr hparams hring hstorage, ?_, ?_, ?_, herr, statsInv_congr hparams hstats hvalid hstatsInv, hpos⟩
  · rwa [hparams, hchainP]
  · rwa [hparams, hchainA]
  · rwa [State.CoefInv, hparams, hlpfB, hlpfA]

theorem errInv_of_inv {s : State} (h : s.Inv) : s.ErrInv := by
  obtain ⟨-, -, -, -, -, -, herr, -, -⟩ := h
  exact herr

theorem posInv_of_inv {s : State} (h : s.Inv) : s.PosInv := by
  obtain ⟨-, -, -, -, -, -, -, -, hpos⟩ := h
  exact hpos

/-- A header that decodes to no command keeps the invariant too. -/
theorem cmdError_emit_inv (c : Cause) (p : Port) (w0 : Word) (ws : List Word) {s : State} (hs : s.Inv)
    (ht : (State.cmdError c p w0 (State.emit p ws s)).PosInv) :
    (State.cmdError c p w0 (State.emit p ws s)).Inv := by
  refine inv_congr ?_ ?_ ?_ ?_ ?_ ?_ ?_ ?_ ?_ ?_ ?_ (cmdError_emit_errInv c p w0 ws (errInv_of_inv hs)) ht hs <;> simp

/-- The turn of any port keeps the invariant. -/
theorem turn_inv (p : Port) {s t : State} (hs : s.Inv) (h : State.turn p s = .next t) : t.Inv := by
  cases hp : s.pending p with
  | none =>
    rw [turn_none s p hp] at h
    injection h with h
    exact h ▸ hs
  | some c =>
    obtain ⟨w0, w1⟩ := c
    have hpos : t.PosInv := (turn_advancesBy hp h).posInv hp (posInv_of_inv hs)
    rcases turn_effect hp h with ⟨i, -, -, he⟩ | ⟨c, ws, rfl⟩
    · exact he.inv hs hpos
    · exact cmdError_emit_inv c p w0 ws hs hpos

/-- An accepted word keeps the invariant. -/
theorem accept_inv (p : Port) (w : Word) {s : State} (hs : s.Inv) :
    (State.setStream p (s.stream p ++ [w]) s).Inv := by
  have herr : (State.setStream p (s.stream p ++ [w]) s).ErrInv :=
    errInv_of_clear (by simp) (by simp) (by simp) (by simp) (errInv_of_inv hs)
  refine inv_congr ?_ ?_ ?_ ?_ ?_ ?_ ?_ ?_ ?_ ?_ ?_ herr (accept_posInv p w (posInv_of_inv hs)) hs <;> simp

theorem resetWith_ringInv {ps : Params} (inputs : List Input) (h : ps.Legal) : (State.resetWith ps inputs).RingInv :=
  ⟨Nat.le_refl 0, Nat.zero_le _, h.1.1, fun _ => rfl, fun _ hi => absurd hi (Nat.not_lt_zero _)⟩

/-- The reset state meets the invariant at every legal value of the parameters (R69). -/
theorem resetWith_inv {ps : Params} (inputs : List Input) (h : ps.Legal) : (State.resetWith ps inputs).Inv := by
  refine ⟨h, resetWith_ringInv inputs h, ⟨List.Pairwise.nil, fun _ he => absurd he List.not_mem_nil⟩, cleared_inv _,
    cleared_inv _, ?_, ?_, statsInv_of_cleared rfl rfl, ?_⟩
  · simp [State.CoefInv, State.resetWith]
  · simp [State.ErrInv, State.resetWith]
  · simp [State.PosInv, State.resetWith]

/-- Whatever input happens, the invariant stays. -/
theorem perform_inv (inp : Input) {s t : State} (hs : s.Inv) (h : State.perform inp s = .next t) : t.Inv := by
  cases inp with
  | accept p w => injection h with h; exact h ▸ accept_inv p w hs
  | execute p => exact turn_inv p hs h
  | hardReset => injection h with h; exact h ▸ resetWith_inv s.inputs hs.1

/-- Settles O13: each input keeps each part of the invariant. -/
theorem everyStepKeepsTheInvariant : Obligations.EveryStepKeepsTheInvariant := by
  intro s t hs h
  unfold step at h
  split at h
  · injection h with h; exact h ▸ hs
  · next inp rest _ => exact perform_inv inp (s := { s with inputs := rest }) hs h

/-- Settles O14; the host starts at the default parameters, which are legal. -/
theorem resetMeetsTheInvariant : Obligations.ResetMeetsTheInvariant :=
  ⟨fun _ inputs h => resetWith_inv inputs h, resetWith_inv [] (by decide)⟩

/-- While nothing has wrapped the held samples stand in slots `0 .. FILL-1`, oldest first (R35). -/
theorem held_of_not_full {s : State} (h : s.RingInv) (hf : s.fill < s.params.capacity) :
    s.held = (List.range s.fill).map s.memRead := by
  obtain ⟨-, -, -, hw, -⟩ := h
  apply List.map_congr_left
  intro i hi
  have hi : i < s.params.capacity := (List.mem_range.mp hi).trans hf
  rw [hw hf, sub_self, zero_add, modC_of_lt _ i hi]

/-- Settles O15, by the effect of each command on the cursors and the storage. -/
theorem ringInvariantIsPreserved : Obligations.RingInvariantIsPreserved := by
  refine ⟨fun ps inputs h => resetWith_ringInv inputs h, fun i s t h he => (effect_of_exec he).ringInv h, ?_⟩
  intro s h
  obtain ⟨hl, hf, hw, hwf, -⟩ := id h
  exact ⟨hl, hf, hw, fun hlt => ⟨hwf hlt, held_of_not_full h hlt⟩⟩

end Sys2Proof.Machine

/-! SUPPORT. Steps, positions and hardware reset: the obligations about what one input does to the ports and to the
parts that only a few commands write. -/

namespace Sys2Proof.Machine

/-! ### Steps -/

/-- A step performs the next input. -/
theorem step_cons {s : State} {inp : Input} {rest : List Input} (h : s.inputs = inp :: rest) :
    step s = State.perform inp { s with inputs := rest } := by
  unfold step
  rw [h]

/-- The length of a command is decided by its OP field alone (R101). -/
theorem cmdLen_eq (w0 : Word) : cmdLen w0 = if (w0.extractLsb' 28 4).toNat = 7 then 2 else 1 := by
  have hop : opcodeOf w0 = 0x7#4 ↔ (w0.extractLsb' 28 4).toNat = 7 := by rw [← BitVec.toNat_inj]; rfl
  simp only [cmdLen, hop]

/-- Settles O6: every effect of a turn, an error too, ends in one `State.advance`. -/
theorem everyCommandAdvancesItsOwnPosition : Obligations.EveryCommandAdvancesItsOwnPosition := by
  intro s p w0 w1 hp
  obtain ⟨t, ht⟩ := turn_next p s
  have ha := turn_advancesBy hp ht
  rw [cmdLen_eq] at ha
  exact ⟨t, ht, ha⟩

/-- The words of a command, whatever follows them, are that command: its header, and its data word where it has one. -/
theorem takeCommand_encode (i : Instr) (more : List Word) :
    ∃ w1, takeCommand (encode i ++ more) = some (i.header, w1) ∧ ∀ d, i.dataWords = [d] → w1 = d := by
  have hlen := cmdLen_header i
  cases i with
  | csrWrite p a d =>
    refine ⟨d, ?_, fun d' h => (List.singleton_inj.mp h)⟩
    simp_all [encode, takeCommand, Instr.dataWords]
  | _ =>
    refine ⟨0#32, ?_, fun d h => absurd h (by simp [Instr.dataWords])⟩
    simp_all [encode, takeCommand, Instr.dataWords]

/-- A port at whose position a well-formed command stands executes it in its turn. -/
theorem turn_encode {i : Instr} {s : State} {more : List Word} (hw : i.wellFormed = true)
    (h : (s.stream i.port).drop (s.pos i.port) = encode i ++ more) : State.turn i.port s = exec i s := by
  obtain ⟨w1, htake, hdata⟩ := takeCommand_encode i more
  have hp : s.pending i.port = some (i.header, w1) := by rw [State.pending, h, htake]
  rw [turn_some s i.port i.header w1 hp, decode_header i w1 hw hdata]

/-- Settles O5: the words of a command decode back to it. -/
theorem stepRunsTheDecodedCommand : Obligations.StepRunsTheDecodedCommand := by
  refine ⟨fun s p rest h => step_cons h, fun s i rest more hw h hwords => ?_⟩
  rw [step_cons h]
  exact turn_encode (s := { s with inputs := rest }) hw hwords

/-- Nothing, or a CSR_WRITE header alone, is no complete command (R22). -/
theorem takeCommand_incomplete {ws : List Word}
    (h : ws = [] ∨ ∃ w0, ws = [w0] ∧ (w0.extractLsb' 28 4).toNat = 7) : takeCommand ws = none := by
  rcases h with rfl | ⟨w0, rfl, h7⟩
  · rfl
  · simp [takeCommand, cmdLen_eq, h7]

/-- Settles O9: a word that is missing leaves nothing to decode. -/
theorem portsQueueWordsAndWaitForCompleteCommands : Obligations.PortsQueueWordsAndWaitForCompleteCommands := by
  constructor
  · intro s p w rest h
    refine ⟨_, step_cons h, State.setStream_self _ _ _, fun q hq => State.setStream_other _ _ _ _ hq, ?_⟩
    cases p <;> rfl
  · intro s p rest h hwords
    rw [step_cons h]
    exact turn_none { s with inputs := rest } p (takeCommand_incomplete hwords)

/-! ### Filter state and counters -/

/-- Hardware reset leads to the reset state at the same parameters (R340). -/
theorem step_hardReset {s : State} {rest : List Input} (h : s.inputs = .hardReset :: rest) :
    step s = .next (State.resetWith s.params rest) := step_cons h

/-- Settles O40, from what each effect leaves in the two chains. -/
theorem filterStateChangesOnlyWhereSaid : Obligations.FilterStateChangesOnlyWhereSaid := by
  refine ⟨fun i s t h => ⟨?_, ?_⟩, fun s c cp ca => by cases c <;> rfl,
    fun s rest h => ⟨_, step_hardReset h, rfl, rfl⟩⟩
  · rcases (effect_of_exec h).chainP with e | ⟨n, hi, -⟩ | ⟨m, hi, hm, -⟩
    · exact .inl e
    · exact .inr (.inl ⟨n, hi⟩)
    · exact .inr (.inr ⟨m, hi, hm⟩)
  · rcases (effect_of_exec h).chainA with e | ⟨n, hi, -⟩ | ⟨m, hi, hm, -⟩
    · exact .inl e
    · exact .inr (.inl ⟨n, hi⟩)
    · exact .inr (.inr ⟨m, hi, hm⟩)

/-- A counter that counts an event counts it modulo 2^32. -/
theorem toNat_count (c : BitVec 32) (P : Prop) [Decidable P] :
    (if P then c + 1#32 else c).toNat = (c.toNat + if P then 1 else 0) % 2 ^ 32 := by
  split
  · exact BitVec.toNat_add c 1#32
  · exact (Nat.mod_eq_of_lt c.isLt).symm

/-- Settles O60, from what each effect leaves in the two counters. -/
theorem countersCountOnlyTheirEvents : Obligations.CountersCountOnlyTheirEvents := by
  refine ⟨fun ps inputs => ⟨rfl, rfl⟩, fun s t f n h => ?_, fun s t x h => ?_,
    fun i s t h => ⟨(effect_of_exec h).underrunCnt, (effect_of_exec h).dropCnt⟩⟩
  · have hcnt : t.underrunCnt = if s.level < n.toNat then s.underrunCnt + 1#32 else s.underrunCnt := by
      rw [exec_popBlock] at h
      injection h with h
      simp [← h, State.popBlock]
    rw [hcnt, toNat_count]
  · have hcnt : t.dropCnt = if s.level = s.params.capacity then s.dropCnt + 1#32 else s.dropCnt := by
      rw [exec_push] at h
      injection h with h
      simp [← h]
    rw [hcnt, toNat_count]

/-! ### Hardware reset -/

/-- After hardware reset the coefficients but LPF_B[0] read 0 (R69). -/
theorem resetWith_coefs (ps : Params) (inputs : List Input) (k : Nat) (h1 : 1 ≤ k) (hk : k ≤ ps.lpfOrder) :
    (State.resetWith ps inputs).csrValue (.lpfB k) = 0#32 ∧ (State.resetWith ps inputs).csrValue (.lpfA k) = 0#32 := by
  obtain ⟨j, rfl⟩ : ∃ j, k = j + 1 := ⟨k - 1, by omega⟩
  have hget : (List.replicate ps.lpfOrder 0#32).getD j 0#32 = 0#32 := List.getD_replicate _ hk
  exact ⟨hget, hget⟩

/-- After hardware reset RPTR is 0 (R34, R69). -/
theorem resetWith_rptr (ps : Params) (inputs : List Input) : (State.resetWith ps inputs).rptr = 0 := by
  show modC ps.capacity ((0 : Nat) : Int) = 0
  rw [modC_natCast, Nat.zero_mod]

theorem resetWith_ctrl (ps : Params) (inputs : List Input) :
    (State.resetWith ps inputs).csrValue .ctrl = 3#32 := by
  simp [State.csrValue, State.ctrlWord, State.resetWith]

theorem resetWith_status (ps : Params) (inputs : List Input) :
    (State.resetWith ps inputs).csrValue .status = 0#32 := by
  simp [State.csrValue, State.statusWord, State.resetWith]

theorem resetWith_errInfo (ps : Params) (inputs : List Input) :
    (State.resetWith ps inputs).csrValue .errInfo = 0#32 := by
  simp [State.csrValue, State.errInfoWord, State.resetWith]

/-- Settles O10: the step is `State.resetWith`, read field by field. -/
theorem hardwareResetSetsEveryElement : Obligations.HardwareResetSetsEveryElement := by
  intro s rest h
  refine ⟨_, step_hardReset h, rfl, rfl, rfl, rfl, rfl, resetWith_rptr _ _, rfl, rfl, ?chains, resetWith_ctrl _ _,
    resetWith_status _ _, resetWith_errInfo _ _, rfl, rfl, rfl, rfl, resetWith_coefs s.params rest, ?stats, ?ports, rfl, rfl, rfl, rfl⟩
  case chains => rintro c (rfl | rfl) <;> exact ⟨rfl, rfl, rfl, rfl⟩
  case stats =>
    intro c hc
    fin_cases hc <;> simp [State.csrValue, State.resetWith, Stats.cleared]
  case ports => intro p; cases p <;> exact ⟨rfl, rfl⟩

end Sys2Proof.Machine

/-! SUPPORT. The CSR space: what every register reads as, which bits of it are reserved, and the obligations about
CSR_READ and CSR_WRITE. -/

namespace Sys2Proof.Machine

/-! ### Words as numbers -/

/-- The number of a concatenation. -/
theorem toNat_append_eq {m n : Nat} (x : BitVec m) (y : BitVec n) : (x ++ y).toNat = x.toNat * 2 ^ n + y.toNat := by
  rw [BitVec.toNat_append, ← Nat.shiftLeft_add_eq_or_of_lt y.isLt, Nat.shiftLeft_eq]

/-- A number that fits a field of `w` bits reads back from it as a word. -/
theorem setWidth_ofNat_of_lt {w n : Nat} (h : n < 2 ^ w) : (BitVec.ofNat w n).setWidth 32 = BitVec.ofNat 32 n := by
  rw [← BitVec.ofNat_toNat, BitVec.toNat_ofNat, Nat.mod_eq_of_lt h]

/-- A word below `2^k` has no bit at `k` or above. -/
theorem and_high_eq_zero {v : Word} {k : Nat} (h : v.toNat < 2 ^ k) : v &&& (BitVec.allOnes 32 <<< k) = 0#32 := by
  apply BitVec.eq_of_getLsbD_eq
  intro j hj
  rw [BitVec.getLsbD_and, BitVec.getLsbD_shiftLeft]
  by_cases hjk : j < k
  · simp [hjk]
  · have hbit : v.getLsbD j = false :=
      Nat.testBit_lt_two_pow (h.trans_le (Nat.pow_le_pow_right two_pos (by omega)))
    simp [hbit]

/-! ### What each register reads as (R41 to R64) -/

theorem csrValue_param {s : State} (h : s.params.Legal) :
    s.csrValue .param = BitVec.ofNat 32 (s.params.capacity + 65536 * s.params.lpfOrder) := by
  obtain ⟨⟨-, hC⟩, -, hN⟩ := h
  apply BitVec.eq_of_toNat_eq
  simp only [State.csrValue, toNat_append_eq, BitVec.toNat_ofNat]
  omega

theorem csrValue_ctrl (s : State) : s.csrValue .ctrl = BitVec.ofNat 32 (s.dcEn.toNat + 2 * s.lpfEn.toNat) := by
  apply BitVec.eq_of_toNat_eq
  simp only [State.csrValue, State.ctrlWord, toNat_append_eq, BitVec.toNat_ofNat, BitVec.toNat_ofBool]
  have := s.dcEn.toNat_le; have := s.lpfEn.toNat_le
  omega

theorem csrValue_status (s : State) : s.csrValue .status =
    BitVec.ofNat 32 (s.err.toNat + 2 * s.satP.toNat + 4 * s.satA.toNat + 8 * s.statsValid.toNat) := by
  apply BitVec.eq_of_toNat_eq
  simp only [State.csrValue, State.statusWord, toNat_append_eq, BitVec.toNat_ofNat, BitVec.toNat_ofBool]
  have := s.err.toNat_le; have := s.satP.toNat_le; have := s.satA.toNat_le; have := s.statsValid.toNat_le
  omega

theorem csrValue_errInfo (s : State) :
    s.csrValue .errInfo = BitVec.ofNat 32 (s.errCause.toNat + 16 * s.errPort.toNat) := by
  have hc := s.errCause.isLt
  have hp := s.errPort.isLt
  apply BitVec.eq_of_toNat_eq
  simp only [State.csrValue, State.errInfoWord, toNat_append_eq, BitVec.toNat_ofNat]
  omega

theorem csrValue_level {s : State} (h : s.params.Legal) (hl : s.level ≤ s.params.capacity) :
    s.csrValue .level = BitVec.ofNat 32 s.level := setWidth_ofNat_of_lt (by obtain ⟨⟨-, hC⟩, -⟩ := h; omega)

theorem csrValue_wptr {s : State} (h : s.params.Legal) (hw : s.wptr < s.params.capacity) :
    s.csrValue .wptr = BitVec.ofNat 32 s.wptr := setWidth_ofNat_of_lt (by obtain ⟨⟨-, hC⟩, -⟩ := h; omega)

theorem csrValue_fill {s : State} (h : s.params.Legal) (hf : s.fill ≤ s.params.capacity) :
    s.csrValue .fill = BitVec.ofNat 32 s.fill := setWidth_ofNat_of_lt (by obtain ⟨⟨-, hC⟩, -⟩ := h; omega)

theorem csrValue_rptr {s : State} (h : s.params.Legal) :
    s.csrValue .rptr = BitVec.ofNat 32 (((s.wptr : Int) - s.level) % s.params.capacity).toNat := by
  obtain ⟨⟨hC1, hC⟩, -⟩ := h
  have hlt : s.rptr < s.params.capacity := modC_lt _ _ hC1
  exact setWidth_ofNat_of_lt (n := s.rptr) (by omega)

theorem csrValue_statSumsqLo (s : State) :
    s.csrValue .statSumsqLo = BitVec.ofNat 32 (s.stats.sumsq.toNat % 2 ^ 32) := by
  apply BitVec.eq_of_toNat_eq
  simp [State.csrValue]

theorem csrValue_statSumsqHi (s : State) :
    s.csrValue .statSumsqHi = BitVec.ofNat 32 (s.stats.sumsq.toNat / 2 ^ 32) := by
  have hlt := s.stats.sumsq.isLt
  have hhi : s.stats.sumsq.extractLsb' 32 16 = BitVec.ofNat 16 (s.stats.sumsq.toNat / 2 ^ 32) := by
    rw [← Nat.shiftRight_eq_div_pow]; rfl
  show (s.stats.sumsq.extractLsb' 32 16).setWidth 32 = _
  rw [hhi, setWidth_ofNat_of_lt (by omega)]

/-- The register of a coefficient is an element of its list. -/
theorem getD_of_lt {l : List Word} {k : Nat} (h : k < l.length) : l[k]? = some (l.getD k 0#32) := by
  rw [List.getD_eq_getElem l _ h, List.getElem?_eq_getElem h]

/-! ### CSR_READ -/

/-- CSR_READ of a mapped address emits its register's value and moves on (R270). -/
theorem exec_csrRead_mapped {s : State} {a : BitVec 8} {c : Csr} (h : csrOf s.params.lpfOrder a = some c) :
    exec (.csrRead .H a) s = .next { s with rspH := s.rspH ++ [s.csrValue c], posH := s.posH + 1 } := by
  rw [exec_csrRead]
  rcases csrRead_cases .H a s with ⟨hn, -⟩ | ⟨c', hc', e⟩
  · rw [h] at hn; cases hn
  · obtain rfl : c = c' := Option.some_inj.mp (h.symm.trans hc')
    rw [e]
    rfl

/-- The same with the value written out. -/
theorem exec_csrRead_value {s : State} {a : BitVec 8} {c : Csr} {v : Word} (h : csrOf s.params.lpfOrder a = some c)
    (hv : s.csrValue c = v) :
    exec (.csrRead .H a) s = .next { s with rspH := s.rspH ++ [v], posH := s.posH + 1 } :=
  hv ▸ exec_csrRead_mapped h

/-- Settles O53: CSR_READ emits the value of the register at the address, and that value is the number named. -/
theorem csrReadEmitsTheRegister : Obligations.CsrReadEmitsTheRegister := by
  intro s h
  have hN : s.params.lpfOrder ≤ 4 := h.2.2
  refine ⟨exec_csrRead_value (c := .id) rfl rfl, exec_csrRead_value (c := .param) rfl (csrValue_param h),
    exec_csrRead_value (c := .ctrl) rfl (csrValue_ctrl s), exec_csrRead_value (c := .status) rfl (csrValue_status s),
    exec_csrRead_value (c := .errInfo) rfl (csrValue_errInfo s), exec_csrRead_value (c := .errWord) rfl rfl,
    fun hl => exec_csrRead_value (c := .level) rfl (csrValue_level h hl),
    fun hw => exec_csrRead_value (c := .wptr) rfl (csrValue_wptr h hw),
    exec_csrRead_value (c := .rptr) rfl (csrValue_rptr h),
    fun hf => exec_csrRead_value (c := .fill) rfl (csrValue_fill h hf),
    exec_csrRead_value (c := .underrunCnt) rfl rfl, exec_csrRead_value (c := .dropCnt) rfl rfl,
    exec_csrRead_value (c := .dcR) rfl (BitVec.ofNat_toNat _ _).symm,
    exec_csrRead_value (c := .splitThr) rfl (BitVec.ofNat_toNat _ _).symm, ?lpfB, ?lpfA,
    exec_csrRead_value (c := .statN) rfl (BitVec.ofNat_toNat _ _).symm,
    exec_csrRead_value (c := .statSumsqLo) rfl (csrValue_statSumsqLo s),
    exec_csrRead_value (c := .statSumsqHi) rfl (csrValue_statSumsqHi s),
    exec_csrRead_value (c := .statRms) rfl (BitVec.ofNat_toNat _ _).symm,
    exec_csrRead_value (c := .statPeak) rfl (BitVec.ofNat_toNat _ _).symm,
    exec_csrRead_value (c := .statLowSum) rfl rfl, exec_csrRead_value (c := .statHighSum) rfl rfl,
    exec_csrRead_value (c := .statLowE) rfl (BitVec.ofNat_toNat _ _).symm,
    exec_csrRead_value (c := .statHighE) rfl (BitVec.ofNat_toNat _ _).symm⟩
  case lpfB =>
    rintro ⟨hB, -⟩ k hk
    exact ⟨_, getD_of_lt (by omega), exec_csrRead_mapped (csrOf_lpfB _ hN k hk)⟩
  case lpfA =>
    rintro ⟨-, hA⟩ k h1 hk
    exact ⟨_, getD_of_lt (by omega), exec_csrRead_mapped (csrOf_lpfA _ hN k h1 hk)⟩

/-! ### Unmapped addresses -/

/-- CSR_READ of an unmapped address emits 0 and raises BAD_CSR_ADDR (R65, R272). -/
theorem exec_csrRead_unmapped {s : State} {a : BitVec 8} (h : csrOf s.params.lpfOrder a = none) :
    exec (.csrRead .H a) s = .next { s with
      rspH := s.rspH ++ [0#32]
      err := true
      errCause := if s.err then s.errCause else 5#4
      errPort := if s.err then s.errPort else 2#2
      errWord := if s.err then s.errWord else (Instr.csrRead .H a).header
      posH := s.posH + 1 } := by
  rw [exec_csrRead]
  rcases csrRead_cases .H a s with ⟨-, e⟩ | ⟨c, hc, -⟩
  · rw [e, State.cmdError, cmdLen_header_one rfl]
    rfl
  · rw [h] at hc; cases hc

/-- CSR_WRITE of an unmapped address raises BAD_CSR_ADDR (R65). -/
theorem exec_csrWrite_unmapped {s : State} {a : BitVec 8} (d : Word) (h : csrOf s.params.lpfOrder a = none) :
    exec (.csrWrite .H a d) s = .next { s with
      err := true
      errCause := if s.err then s.errCause else 5#4
      errPort := if s.err then s.errPort else 2#2
      errWord := if s.err then s.errWord else (Instr.csrWrite .H a d).header
      posH := s.posH + 2 } := by
  rw [exec_csrWrite]
  rcases csrWrite_cases .H a d s with ⟨-, e⟩ | ⟨c, hc, -⟩ | ⟨c, hc, -⟩
  · rw [e, State.cmdError, cmdLen_header]
    rfl
  · rw [h] at hc; cases hc
  · rw [h] at hc; cases hc

/-- Settles O54: an address holds a register exactly when it is mapped (`csrOf_spec`). -/
theorem unmappedAddressesRaiseBadCsrAddr : Obligations.UnmappedAddressesRaiseBadCsrAddr := by
  intro s a d
  obtain ⟨hnone, -⟩ := csrOf_spec s.params.lpfOrder a
  constructor
  · intro hmapped
    obtain ⟨c, hc⟩ := Option.ne_none_iff_exists'.mp fun h => hnone.mp h hmapped
    exact ⟨_, _, exec_csrRead_mapped hc, rfl⟩
  · intro hunmapped
    exact ⟨exec_csrRead_unmapped (hnone.mpr hunmapped), exec_csrWrite_unmapped d (hnone.mpr hunmapped)⟩

/-! ### Reserved bits (R66) -/

/-- The bits of a register that are not reserved are its low ones; this is how many. -/
def Csr.width : Csr → Nat
  | .ctrl => 2
  | .status => 4
  | .errInfo => 6
  | .param => 19
  | .wptr | .rptr | .dcR | .splitThr | .statN | .statSumsqHi => 16
  | .level | .fill | .statPeak => 17
  | .statRms | .statLowE | .statHighE => 24
  | _ => 32

/-- CTRL bit by bit (R43). -/
theorem ctrlWord_getLsbD (s : State) (j : Nat) : s.ctrlWord.getLsbD j =
    match j with
    | 0 => s.dcEn
    | 1 => s.lpfEn
    | _ => false := by
  unfold State.ctrlWord
  simp only [BitVec.getLsbD_append]
  rcases j with _ | _ | j <;> simp

/-- STATUS bit by bit (R44). -/
theorem statusWord_getLsbD (s : State) (j : Nat) : s.statusWord.getLsbD j =
    match j with
    | 0 => s.err
    | 1 => s.satP
    | 2 => s.satA
    | 3 => s.statsValid
    | _ => false := by
  unfold State.statusWord
  simp only [BitVec.getLsbD_append]
  rcases j with _ | _ | _ | _ | j <;> simp

/-- A field read as a word is below its own width. -/
theorem toNat_setWidth_lt {w : Nat} (x : BitVec w) : (x.setWidth 32).toNat < 2 ^ w := by
  rw [BitVec.toNat_setWidth]
  exact (Nat.mod_le _ _).trans_lt x.isLt

/-- Every register reads below its width, whatever the state. -/
theorem csrValue_lt (s : State) (c : Csr) : (s.csrValue c).toNat < 2 ^ c.width := by
  cases c with
  | param =>
    simp only [State.csrValue, Csr.width, toNat_append_eq, BitVec.toNat_ofNat]
    omega
  | ctrl =>
    rw [csrValue_ctrl, BitVec.toNat_ofNat]
    have := s.dcEn.toNat_le; have := s.lpfEn.toNat_le
    exact (Nat.mod_le _ _).trans_lt (by simp only [Csr.width]; omega)
  | status =>
    rw [csrValue_status, BitVec.toNat_ofNat]
    have := s.err.toNat_le; have := s.satP.toNat_le; have := s.satA.toNat_le; have := s.statsValid.toNat_le
    exact (Nat.mod_le _ _).trans_lt (by simp only [Csr.width]; omega)
  | errInfo =>
    rw [csrValue_errInfo, BitVec.toNat_ofNat]
    have := s.errCause.isLt; have := s.errPort.isLt
    exact (Nat.mod_le _ _).trans_lt (by simp only [Csr.width]; omega)
  | level | wptr | rptr | fill | dcR | splitThr | statN | statSumsqHi | statRms | statPeak | statLowE | statHighE =>
    exact toNat_setWidth_lt _
  | _ => exact BitVec.isLt _

/-! ### CSR_WRITE -/

/-- CSR_WRITE of a writable register writes it and moves on (R275). -/
theorem exec_csrWrite_writable {s : State} {a : BitVec 8} {c : Csr} (d : Word)
    (h : csrOf s.params.lpfOrder a = some c) (hw : c.readOnly = false) :
    exec (.csrWrite .H a d) s = .next (State.advance .H 2 (State.csrStore c d s)) := by
  rw [exec_csrWrite]
  rcases csrWrite_cases .H a d s with ⟨hn, -⟩ | ⟨c', hc', hro, -⟩ | ⟨c', hc', -, e⟩
  · rw [h] at hn; cases hn
  · obtain rfl : c = c' := Option.some_inj.mp (h.symm.trans hc')
    rw [hw] at hro; cases hro
  · obtain rfl : c = c' := Option.some_inj.mp (h.symm.trans hc')
    rw [e]

/-- No register is read from a position. -/
theorem csrValue_advance (p : Port) (n : Nat) (s : State) (c : Csr) :
    (State.advance p n s).csrValue c = s.csrValue c := by
  cases p <;> cases c <;> rfl

/-- Only a write of STATUS can change ERR. -/
theorem csrStore_err_of_ne {c : Csr} (hc : c ≠ .status) (d : Word) (s : State) :
    (State.csrStore c d s).err = s.err := by
  rcases csrStore_flags c d s with ⟨e, -⟩ | ⟨e, -⟩
  · exact e
  · exact absurd e hc

/-- A CSR_WRITE of a writable register raises nothing, and the register then reads what the write stored. -/
theorem exec_csrWrite_reads {s : State} {a : Nat} {c : Csr} {d v : Word}
    (h : csrOf s.params.lpfOrder (BitVec.ofNat 8 a) = some c) (hw : c.readOnly = false) (ha : c = .status → a = 0x03)
    (hv : (State.csrStore c d s).csrValue c = v) :
    ∃ t, exec (.csrWrite .H (BitVec.ofNat 8 a) d) s = .next t ∧ t.csrValue c = v ∧ t.errCause = s.errCause ∧
      t.errPort = s.errPort ∧ t.errWord = s.errWord ∧ (a ≠ 0x03 → t.err = s.err) := by
  refine ⟨_, exec_csrWrite_writable d h hw, by rw [csrValue_advance, hv], by simp, by simp, by simp, fun hne => ?_⟩
  rw [State.advance_err, csrStore_err_of_ne fun hs => hne (ha hs)]

theorem csrStore_ctrl_value (d : Word) (s : State) : (State.csrStore .ctrl d s).csrValue .ctrl = d &&& 0x3#32 := by
  apply BitVec.eq_of_getLsbD_eq
  intro j hj
  show (State.writeCtrl d s).ctrlWord.getLsbD j = _
  rw [ctrlWord_getLsbD, BitVec.getLsbD_and]
  rcases j with _ | _ | j
  · simp
  · simp
  · have hmask : (0x3#32).getLsbD (j + 2) = false :=
      Nat.testBit_lt_two_pow ((by decide : 3 < 2 ^ 2).trans_le (Nat.pow_le_pow_right two_pos (by omega)))
    simp [hmask]

theorem csrStore_status_value (d : Word) (s : State) :
    (State.csrStore .status d s).csrValue .status = s.csrValue .status &&& ~~~(d &&& 0x7#32) := by
  apply BitVec.eq_of_getLsbD_eq
  intro j hj
  show (State.writeStatus d s).statusWord.getLsbD j = (s.statusWord &&& _).getLsbD j
  rw [BitVec.getLsbD_and, statusWord_getLsbD, statusWord_getLsbD, BitVec.getLsbD_not, BitVec.getLsbD_and]
  rcases j with _ | _ | _ | _ | j <;> simp

/-- The low half of a word. -/
theorem setWidth_low_half (d : Word) : (d.extractLsb' 0 16).setWidth 32 = d &&& 0xFFFF#32 := by
  apply BitVec.eq_of_toNat_eq
  rw [BitVec.toNat_and, show (0xFFFF#32).toNat = 2 ^ 16 - 1 from rfl, Nat.and_two_pow_sub_one_eq_mod]
  rw [BitVec.toNat_setWidth, BitVec.extractLsb'_toNat, Nat.shiftRight_zero]
  omega

/-- What is stored in an element of a list reads back. -/
theorem getD_set_self {l : List Word} {k : Nat} (h : k < l.length) (d : Word) : (l.set k d).getD k 0#32 = d := by
  rw [List.getD_eq_getElem _ _ (by simpa using h), List.getElem_set_self]

/-- Settles O58: each reserved mask covers the bits from the register's width on. -/
theorem reservedBitsReadZeroAndIgnoreWrites : Obligations.ReservedBitsReadZeroAndIgnoreWrites := by
  constructor
  · intro s e he
    have hmask : e.2 = BitVec.allOnes 32 <<< e.1.width := by fin_cases he <;> rfl
    rw [hmask]
    exact and_high_eq_zero (csrValue_lt s e.1)
  · intro s d h ⟨hB, hA⟩
    have hN : s.params.lpfOrder ≤ 4 := h.2.2
    exact ⟨exec_csrWrite_reads rfl rfl nofun (csrStore_ctrl_value d s),
      exec_csrWrite_reads rfl rfl (fun _ => rfl) (csrStore_status_value d s),
      exec_csrWrite_reads rfl rfl nofun (setWidth_low_half d), exec_csrWrite_reads rfl rfl nofun (setWidth_low_half d),
      fun k hk => exec_csrWrite_reads (csrOf_lpfB _ hN k hk) rfl nofun (getD_set_self (by omega) d),
      fun k h1 hk => exec_csrWrite_reads (csrOf_lpfA _ hN k h1 hk) rfl nofun (getD_set_self (by omega) d)⟩

end Sys2Proof.Machine

/-! SUPPORT. Progress of the ports under weak fairness (R88), and the ring as a queue: what its unwritten slots hold
is never read (R83), and every sample leaves it once, in push order (R90). -/

namespace Sys2Proof.Machine

/-! ### Progress under weak fairness (R88) -/

theorem pending_congr {s t : State} {p : Port} (hpos : t.pos p = s.pos p) (hstr : t.stream p = s.stream p) :
    t.pending p = s.pending p := by
  unfold State.pending
  rw [hpos, hstr]

/-- A word that arrives on any port leaves a complete command where it stands (R22). -/
theorem accept_pending (q : Port) (w : Word) {s : State} {p : Port} (hp : (s.pending p).isSome = true) :
    (State.setStream q (s.stream q ++ [w]) s).pending p = s.pending p := by
  by_cases hq : p = q
  · subst hq
    have hle : s.pos p ≤ (s.stream p).length := by
      by_contra hlt
      rw [State.pending, List.drop_of_length_le (by omega)] at hp
      exact absurd hp (by simp [takeCommand])
    unfold State.pending at *
    rw [State.setStream_self, State.setStream_pos, List.drop_append_of_le_length hle, takeCommand_append _ _ hp]
  · exact pending_congr (State.setStream_pos ..) (State.setStream_other _ _ _ _ hq)

/-- The turn of another port leaves a port's position and command alone. -/
theorem turn_other_port {s t : State} {p q : Port} (hq : p ≠ q) (h : State.turn q s = .next t) :
    t.pos p = s.pos p ∧ t.pending p = s.pending p := by
  cases hc : s.pending q with
  | none =>
    rw [turn_none s q hc] at h
    injection h with h
    exact h ▸ ⟨rfl, rfl⟩
  | some c =>
    obtain ⟨-, hpos, hstr⟩ := turn_advancesBy (w0 := c.1) (w1 := c.2) hc h
    exact ⟨hpos p hq, pending_congr (hpos p hq) (hstr p)⟩

theorem cmdLen_pos (w0 : Word) : 0 < cmdLen w0 := by
  unfold cmdLen
  split <;> decide

/-- A port that holds a complete command moves past it in its turn. -/
theorem turn_moves {s t : State} {p : Port} (hp : (s.pending p).isSome = true) (h : State.turn p s = .next t) :
    s.pos p < t.pos p := by
  obtain ⟨c, hc⟩ := Option.isSome_iff_exists.mp hp
  obtain ⟨hpos, -, -⟩ := turn_advancesBy (w0 := c.1) (w1 := c.2) hc h
  rw [hpos]
  exact Nat.lt_add_of_pos_right (cmdLen_pos c.1)

/-- Short of a hardware reset, an input lets a port that holds a complete command execute it, which is its turn, or
leaves the command standing where it stood. -/
theorem perform_executes_or_keeps {inp : Input} {s : State} {p : Port} (hinp : inp ≠ .hardReset)
    (hp : (s.pending p).isSome = true) : ∃ t, State.perform inp s = .next t ∧
      (s.pos p < t.pos p ∨ (inp ≠ .execute p ∧ t.pos p = s.pos p ∧ (t.pending p).isSome = true)) := by
  cases inp with
  | hardReset => exact absurd rfl hinp
  | accept q w =>
    exact ⟨_, rfl, .inr ⟨Input.noConfusion, State.setStream_pos .., by rwa [accept_pending q w hp]⟩⟩
  | execute q =>
    obtain ⟨t, ht⟩ := turn_next q s
    refine ⟨t, ht, ?_⟩
    by_cases hq : p = q
    · subst hq
      exact .inl (turn_moves hp ht)
    · obtain ⟨hpos, hpend⟩ := turn_other_port hq ht
      exact .inr ⟨fun h => hq (Input.execute.inj h).symm, hpos, by rwa [hpend]⟩

/-- At some point of the schedule, port `p` has moved on from where it stands in `s`. -/
def MovesOn (w : Schedule) (s : State) (p : Port) : Prop :=
  ∃ k t, follow w k s = .next t ∧ s.pos p < t.pos p

theorem follow_succ {w : Schedule} {s t : State} {k : Nat} (h : follow w k s = .next t) :
    follow w (k + 1) s = State.perform (w k) t := by
  rw [follow, h]

/-- Until a port has executed its complete command, it still holds it. -/
theorem movesOn_or_still_holds {w : Schedule} {s : State} {p : Port} (hw : ∀ k, w k ≠ .hardReset)
    (hp : (s.pending p).isSome = true) (k : Nat) : MovesOn w s p ∨
      ∃ t, follow w k s = .next t ∧ t.pos p = s.pos p ∧ (t.pending p).isSome = true := by
  induction k with
  | zero => exact .inr ⟨s, rfl, rfl, hp⟩
  | succ k ih =>
    rcases ih with hmoved | ⟨t, ht, hpos, hpend⟩
    · exact .inl hmoved
    · obtain ⟨u, hu, hmoves | ⟨-, hkeeps, hpend'⟩⟩ := perform_executes_or_keeps (hw k) hpend
      · exact .inl ⟨k + 1, u, by rw [follow_succ ht, hu], hpos ▸ hmoves⟩
      · exact .inr ⟨u, by rw [follow_succ ht, hu], hkeeps.trans hpos, hpend'⟩

/-- Settles O12: fairness gives the port a turn, and if it has not moved before, it moves then. -/
theorem fairPortsExecuteTheirCommands : Obligations.FairPortsExecuteTheirCommands := by
  intro w s p hfair hw hp
  obtain ⟨m, -, hm⟩ := hfair p 0 s rfl hp
  rcases movesOn_or_still_holds hw hp m with hmoved | ⟨t, ht, hpos, hpend⟩
  · exact hmoved
  · obtain ⟨u, hu, hmoves | ⟨hne, -⟩⟩ := perform_executes_or_keeps (hw m) hpend
    · exact ⟨m + 1, u, by rw [follow_succ ht, hu], hpos ▸ hmoves⟩
    · exact absurd hm hne

/-! ### Slots not written since the last clear (R83) -/

/-- The state with the ring storage `r`, and everything else as it is. -/
def State.withRing (r : Memory) (s : State) : State := { s with ring := r }

theorem withRing_advance (r : Memory) (p : Port) (n : Nat) (s : State) :
    State.advance p n (s.withRing r) = (State.advance p n s).withRing r := by cases p <;> rfl

theorem withRing_emit (r : Memory) (p : Port) (ws : List Word) (s : State) :
    State.emit p ws (s.withRing r) = (State.emit p ws s).withRing r := by cases p <;> rfl

theorem withRing_cmdError (r : Memory) (c : Cause) (p : Port) (w0 : Word) (s : State) :
    State.cmdError c p w0 (s.withRing r) = (State.cmdError c p w0 s).withRing r := by cases p <;> rfl

theorem withRing_csrStore (r : Memory) (c : Csr) (d : Word) (s : State) :
    State.csrStore c d (s.withRing r) = (State.csrStore c d s).withRing r := by cases c <;> rfl

/-- No register shows a slot. -/
theorem withRing_csrValue (r : Memory) (c : Csr) (s : State) : (s.withRing r).csrValue c = s.csrValue c := by
  cases c <;> rfl

theorem withRing_csrRead (r : Memory) (p : Port) (a : BitVec 8) (s : State) :
    State.csrRead p a (s.withRing r) = (State.csrRead p a s).withRing r := by
  have hparams : (s.withRing r).params = s.params := rfl
  cases hc : csrOf s.params.lpfOrder a <;>
    simp only [State.csrRead, hparams, hc, withRing_emit, withRing_cmdError, withRing_advance, withRing_csrValue]

theorem withRing_csrWrite (r : Memory) (p : Port) (a : BitVec 8) (d : Word) (s : State) :
    State.csrWrite p a d (s.withRing r) = (State.csrWrite p a d s).withRing r := by
  have hparams : (s.withRing r).params = s.params := rfl
  cases hc : csrOf s.params.lpfOrder a with
  | none => simp only [State.csrWrite, hparams, hc, withRing_cmdError]
  | some c =>
    cases hr : c.readOnly <;>
      simp [State.csrWrite, hparams, hc, hr, withRing_cmdError, withRing_advance, withRing_csrStore]

/-- `r` holds what the ring of `s` holds in every slot written since the last clear. -/
def AgreesOnWritten (r : Memory) (s : State) : Prop := ∀ j, j < s.fill → Memory.get r j = Memory.get s.ring j

/-- The FILL places behind WPTR are slots written since the last clear (R35). -/
theorem slot_behind_wptr_written {s : State} (h : s.RingInv) {k : Int} (h1 : (s.wptr : Int) - s.fill ≤ k)
    (h2 : k < s.wptr) : modC s.params.capacity k < s.fill := by
  obtain ⟨-, hf, hw, hwf, -⟩ := h
  rcases hf.lt_or_eq with hlt | hfull
  · have hwptr := hwf hlt
    obtain ⟨j, rfl⟩ : ∃ j : Nat, k = j := ⟨k.toNat, by omega⟩
    rw [modC_of_lt _ _ (by omega)]
    omega
  · rw [hfull]
    exact modC_lt _ _ (by omega)

theorem memRead_withRing {r : Memory} {s : State} {i : Nat} (ha : AgreesOnWritten r s) (hi : i < s.fill) :
    (s.withRing r).memRead i = s.memRead i :=
  State.memRead_congr _ _ _ (ha i hi)

theorem held_withRing {r : Memory} {s : State} (h : s.RingInv) (ha : AgreesOnWritten r s) :
    (s.withRing r).held = s.held := by
  apply List.map_congr_left
  intro i hi
  have hi : i < s.fill := List.mem_range.mp hi
  exact memRead_withRing ha (slot_behind_wptr_written h (k := (s.wptr : Int) - s.fill + i) (by omega) (by omega))

theorem unpopped_withRing {r : Memory} {s : State} (h : s.RingInv) (ha : AgreesOnWritten r s) :
    (s.withRing r).unpopped = s.unpopped := by
  apply List.map_congr_left
  intro i hi
  have hi : i < s.level := List.mem_range.mp hi
  have hl : s.level ≤ s.fill := h.1
  have hC : 0 < s.params.capacity := Nat.zero_lt_of_lt h.2.2.1
  refine memRead_withRing ha ?_
  have hslot : modC s.params.capacity ((s.rptr + i : Nat) : Int) =
      modC s.params.capacity ((s.wptr : Int) - s.level + i) := by
    push_cast
    exact modC_add _ _ _ hC
  show modC s.params.capacity ((s.rptr + i : Nat) : Int) < s.fill
  rw [hslot]
  exact slot_behind_wptr_written h (by omega) (by omega)

theorem popValues_withRing {r : Memory} {s : State} (h : s.RingInv) (ha : AgreesOnWritten r s) (n : Nat) :
    (s.withRing r).popValues n = s.popValues n := by
  rw [State.popValues_eq, State.popValues_eq, unpopped_withRing h ha]
  rfl

theorem snapshotValues_withRing {r : Memory} {s : State} (h : s.RingInv) (ha : AgreesOnWritten r s) (n : Nat) :
    (s.withRing r).snapshotValues n = s.snapshotValues n := by
  rw [State.snapshotValues_eq, State.snapshotValues_eq, held_withRing h ha]
  rfl

theorem popBlock_withRing {r : Memory} {s : State} (h : s.RingInv) (ha : AgreesOnWritten r s) (p : Port) (f : Bool)
    (n : Nat) : State.popBlock p f n (s.withRing r) = (State.popBlock p f n s).withRing r := by
  unfold State.popBlock
  rw [popValues_withRing h ha, ← withRing_advance, ← withRing_emit]
  rfl

theorem snapshot_withRing {r : Memory} {s : State} (h : s.RingInv) (ha : AgreesOnWritten r s) (p : Port) (n : Nat) :
    State.snapshot p n (s.withRing r) = (State.snapshot p n s).withRing r := by
  unfold State.snapshot
  rw [snapshotValues_withRing h ha, ← withRing_advance, ← withRing_emit]

theorem analyze_withRing {r : Memory} {s : State} (h : s.RingInv) (ha : AgreesOnWritten r s) (p : Port) (f : Bool)
    (n : Nat) : State.analyze p f n (s.withRing r) = (State.analyze p f n s).withRing r := by
  unfold State.analyze
  rw [snapshotValues_withRing h ha, ← withRing_advance]
  rfl

/-- PUSH stores the same sample into the same slot of either storage, and that slot is the only new one to count as
written. -/
theorem pushSample_agrees {r : Memory} {s : State} (h : s.RingInv) (ha : AgreesOnWritten r s) (x : Sample) :
    AgreesOnWritten (Memory.set r s.wptr x) (State.pushSample x s) := by
  obtain ⟨-, hf, -, hwf, -⟩ := h
  intro j hj
  rw [State.pushSample_fill] at hj
  rw [State.pushSample_ring]
  by_cases hjw : j = s.wptr
  · rw [hjw, Memory.get_set_self, Memory.get_set_self]
  · rw [Memory.get_set_other _ _ _ _ hjw, Memory.get_set_other _ _ _ _ hjw]
    refine ha j ?_
    rcases hf.lt_or_eq with hlt | hfull
    · have := hwf hlt
      omega
    · omega

/-- Every command but PUSH does the same whatever the slots not written since the last clear hold, and leaves the
storage alone. -/
theorem exec_withRing {r : Memory} {s : State} (h : s.RingInv) (ha : AgreesOnWritten r s) {i : Instr}
    (hi : ∀ x, i ≠ .push .W x) : ∃ t, exec i s = .next t ∧ exec i (s.withRing r) = .next (t.withRing r) := by
  have hparams : (s.withRing r).params = s.params := rfl
  cases hw : i.wellFormed with
  | false => exact ⟨_, exec_wrongPort i s hw, by rw [exec_wrongPort i _ hw, withRing_cmdError]⟩
  | true =>
    cases i with
    | nop p hint => exact ⟨_, exec_nop p hint s, by rw [exec_nop, withRing_advance]⟩
    | push p x =>
      obtain rfl := (wellFormed_push p x).mp hw
      exact absurd rfl (hi x)
    | popBlock p f n =>
      obtain rfl := (wellFormed_popBlock p f n).mp hw
      exact ⟨_, exec_popBlock f n s, by rw [exec_popBlock, popBlock_withRing h ha]⟩
    | snapshot p n =>
      obtain rfl := (wellFormed_snapshot p n).mp hw
      refine ⟨_, exec_snapshot n s, ?_⟩
      rw [exec_snapshot, hparams, snapshot_withRing h ha, withRing_cmdError]
      split <;> rfl
    | analyze p f n =>
      obtain rfl := (wellFormed_analyze p f n).mp hw
      refine ⟨_, exec_analyze f n s, ?_⟩
      rw [exec_analyze, hparams, analyze_withRing h ha, withRing_cmdError]
      split <;> rfl
    | reset p m =>
      obtain rfl := (wellFormed_reset p m).mp hw
      exact ⟨_, exec_reset m s, rfl⟩
    | csrRead p a =>
      obtain rfl := (wellFormed_csrRead p a).mp hw
      exact ⟨_, exec_csrRead a s, by rw [exec_csrRead, withRing_csrRead]⟩
    | csrWrite p a d =>
      obtain rfl := (wellFormed_csrWrite p a d).mp hw
      exact ⟨_, exec_csrWrite a d s, by rw [exec_csrWrite, withRing_csrWrite]⟩

/-- Only PUSH writes a slot, and only PUSH makes a slot count as written since the last clear. -/
theorem Effect.ring_fill {i : Instr} {s t : State} (he : Effect s i t) :
    (t.ring = s.ring ∧ t.fill ≤ s.fill) ∨ ∃ x, i = .push .W x := by
  cases he with
  | push x => exact .inr ⟨x, rfl⟩
  | reset m =>
    refine .inl ⟨rfl, ?_⟩
    show (if maskRB m then 0 else s.fill) ≤ s.fill
    split <;> omega
  | _ => exact .inl (by simp [State.popBlock, State.snapshot, State.analyze])

/-- Two runs of one command from states that differ only in slots not written since the last clear end in states that
differ only in such slots. -/
theorem exec_agrees {r : Memory} {s : State} (h : s.RingInv) (ha : AgreesOnWritten r s) (i : Instr) :
    ∃ t r', exec i s = .next t ∧ exec i (s.withRing r) = .next (t.withRing r') ∧ AgreesOnWritten r' t := by
  by_cases hi : ∃ x, i = .push .W x
  · obtain ⟨x, rfl⟩ := hi
    exact ⟨_, Memory.set r s.wptr x, exec_push x s, rfl, pushSample_agrees h ha x⟩
  · obtain ⟨t, ht, ht'⟩ := exec_withRing h ha (i := i) fun x hx => hi ⟨x, hx⟩
    obtain ⟨hring, hfill⟩ := (effect_of_exec ht).ring_fill.resolve_right hi
    exact ⟨t, r, ht, ht', fun j hj => by rw [hring]; exact ha j (hj.trans_le hfill)⟩

/-- Settles O16: the slots a command reads are written ones, and what it writes it writes in both runs. -/
theorem unwrittenSlotsAreNeverObservable : Obligations.UnwrittenSlotsAreNeverObservable := by
  intro i s r h ha
  obtain ⟨t, r', ht, ht', ha'⟩ := exec_agrees h ha i
  exact ⟨t, _, ht, ht', rfl, ha'⟩

/-! ### Every sample leaves the ring once, in push order (R90) -/

/-- The samples a command takes out of the ring, without zero-fill. -/
def takenBy (i : Instr) (s : State) : List Sample :=
  match i with
  | .popBlock _ _ n => s.unpopped.take n.toNat
  | _ => []

@[simp] theorem takenBy_push (p : Port) (x : BitVec 16) (s : State) : takenBy (.push p x) s = [] := rfl

/-- The samples a run takes out of the ring are those its first command takes, then those of the rest. -/
theorem poppedBy_cons {i : Instr} {s t : State} (is : List Instr) (h : exec i s = .next t) :
    poppedBy (i :: is) s = takenBy i s ++ poppedBy is t := by
  cases i <;> simp [poppedBy, takenBy, blockLen, h]

theorem pushedBy_cons (i : Instr) (is : List Instr) : pushedBy (i :: is) = pushedBy [i] ++ pushedBy is := by
  cases i <;> rfl

theorem execAll_cons {i : Instr} {s t : State} (is : List Instr) (h : exec i s = .next t) :
    execAll (i :: is) s = execAll is t := by
  rw [execAll, h]

/-- Only PUSH, POP_BLOCK and the ring clear change the unpopped samples (R32). -/
theorem Effect.unpopped {i : Instr} {s t : State} (he : Effect s i t) : t.unpopped = s.unpopped ∨
    (∃ x, i = .push .W x) ∨ (∃ f n, i = .popBlock .R f n) ∨ ∃ m, i = .reset .H m ∧ t.unpopped = [] := by
  cases he with
  | push x => exact .inr (.inl ⟨x, rfl⟩)
  | popBlock f n => exact .inr (.inr (.inl ⟨f, n, rfl⟩))
  | reset m =>
    by_cases hm : maskRB m = true
    · exact .inr (.inr (.inr ⟨m, rfl, List.eq_nil_of_length_eq_zero ((State.unpopped_length _).trans (if_pos hm))⟩))
    · exact .inl (State.unpopped_congr _ _ rfl rfl (if_neg hm) (if_neg hm))
  | _ =>
    refine .inl (State.unpopped_congr _ _ ?_ ?_ ?_ ?_) <;>
      simp [State.snapshot, State.analyze]

/-- A command that neither pushes, pops nor clears keeps the unpopped samples and the drop count. -/
theorem exec_keeps_unpopped {i : Instr} {s t : State} (he : exec i s = .next t) (hpush : ∀ x, i ≠ .push .W x)
    (hpop : ∀ f n, i ≠ .popBlock .R f n) (hreset : ∀ m, i ≠ .reset .H m) :
    t.unpopped = s.unpopped ∧ t.dropCnt = s.dropCnt := by
  constructor
  · rcases (effect_of_exec he).unpopped with e | ⟨x, e⟩ | ⟨f, n, e⟩ | ⟨m, e, -⟩
    · exact e
    · exact absurd e (hpush x)
    · exact absurd e (hpop f n)
    · exact absurd e (hreset m)
  · rcases (effect_of_exec he).dropCnt with e | ⟨x, e⟩ | ⟨m, e, -⟩
    · exact e
    · exact absurd e (hpush x)
    · exact absurd e (hreset m)

/-- `lost` is what leaves the ring unpopped in one command, and short of RESET it is counted (R142, R37): what was
unpopped before and what is pushed is, in this order, what is taken, what is lost, and what is unpopped after. -/
def Conserves (i : Instr) (s t : State) (lost : List Sample) : Prop :=
  s.unpopped ++ pushedBy [i] = takenBy i s ++ lost ++ t.unpopped ∧
    ((∀ p m, i ≠ .reset p m) → t.dropCnt = s.dropCnt + BitVec.ofNat 32 lost.length)

theorem push_conserves {s : State} (h : s.RingInv) (x : Sample) :
    ∃ lost, Conserves (.push .W x) s (State.advance .W 1 (State.pushSample x s)) lost := by
  have hadvance : (State.advance .W 1 (State.pushSample x s)).unpopped = (State.pushSample x s).unpopped :=
    State.unpopped_congr _ _ rfl rfl rfl rfl
  by_cases hfull : s.level = s.params.capacity
  · have hC : 0 < s.params.capacity := Nat.zero_lt_of_lt h.2.2.1
    refine ⟨s.unpopped.take 1, ?_, fun _ => ?_⟩
    · rw [hadvance, State.pushSample_unpopped_full s x h hfull, ← List.drop_one, takenBy_push, List.nil_append,
        ← List.append_assoc, List.take_append_drop]
      rfl
    · have hlost : (s.unpopped.take 1).length = 1 := by
        rw [List.length_take, State.unpopped_length]
        omega
      rw [hlost]
      exact if_pos hfull
  · have hlt : s.level < s.params.capacity := by
      obtain ⟨hl, hf, -⟩ := h
      omega
    refine ⟨[], ?_, fun _ => ?_⟩
    · rw [hadvance, State.pushSample_unpopped s x h hlt]
      rfl
    · simp [hfull]

theorem popBlock_conserves {s : State} (h : s.RingInv) (f : Bool) (n : BitVec 16) :
    Conserves (.popBlock .R f n) s (State.popBlock .R f n.toNat s) [] := by
  have hC : 0 < s.params.capacity := Nat.zero_lt_of_lt h.2.2.1
  have hafter : (State.popBlock .R f n.toNat s).unpopped = s.unpopped.drop n.toNat :=
    (State.unpopped_congr _ _ rfl rfl rfl rfl).trans (State.popCount_unpopped n.toNat s hC)
  refine ⟨?_, fun _ => ?_⟩
  · rw [hafter]
    simp [takenBy, pushedBy]
  · simp [State.popBlock]

/-- The unpopped samples are a queue: whatever a well-formed command does, every sample stays in it, is taken from its
front, or is lost from its front. -/
theorem exec_conserves {i : Instr} {s t : State} (h : s.RingInv) (hw : i.wellFormed = true)
    (he : exec i s = .next t) : ∃ lost, Conserves i s t lost := by
  cases i with
  | push p x =>
    obtain rfl := (wellFormed_push p x).mp hw
    obtain rfl : State.advance .W 1 (State.pushSample x s) = t := by rw [exec_push] at he; injection he
    exact push_conserves h x
  | popBlock p f n =>
    obtain rfl := (wellFormed_popBlock p f n).mp hw
    obtain rfl : State.popBlock .R f n.toNat s = t := by rw [exec_popBlock] at he; injection he
    exact ⟨[], popBlock_conserves h f n⟩
  | reset p m =>
    have hcount : ∀ {l : List Sample}, (∀ q k, Instr.reset p m ≠ .reset q k) →
        t.dropCnt = s.dropCnt + BitVec.ofNat 32 l.length := fun hne => absurd rfl (hne p m)
    rcases (effect_of_exec he).unpopped with e | ⟨x, e⟩ | ⟨f, n, e⟩ | ⟨k, -, e⟩
    · exact ⟨[], by rw [e]; exact List.append_nil _, hcount⟩
    · cases e
    · cases e
    · exact ⟨s.unpopped, by rw [e]; simp [takenBy, pushedBy], hcount⟩
  | _ =>
    obtain ⟨hunpopped, hdrop⟩ := exec_keeps_unpopped he (by simp) (by simp) (by simp)
    exact ⟨[], by rw [hunpopped]; simp [takenBy, pushedBy], fun _ => by simp [hdrop]⟩

/-- Over a run: what the POP_BLOCKs take is a subsequence of what was unpopped, then what is pushed. -/
theorem poppedBy_sublist (cmds : List Instr) {s : State} (h : s.RingInv) (hw : ∀ i ∈ cmds, i.wellFormed = true) :
    (poppedBy cmds s).Sublist (s.unpopped ++ pushedBy cmds) := by
  induction cmds generalizing s with
  | nil => exact List.nil_sublist _
  | cons i is ih =>
    obtain ⟨hi, his⟩ := List.forall_mem_cons.mp hw
    obtain ⟨t, ht⟩ := exec_next i s
    obtain ⟨lost, hqueue, -⟩ := exec_conserves h hi ht
    have hrest := ih ((effect_of_exec ht).ringInv h) his
    rw [poppedBy_cons is ht, pushedBy_cons, ← List.append_assoc, hqueue, List.append_assoc, List.append_assoc]
    exact (hrest.trans (List.sublist_append_right lost _)).append_left _

/-- Settles O25: nothing is unpopped at the start. -/
theorem popsAreASubsequenceOfPushes : Obligations.PopsAreASubsequenceOfPushes := by
  intro cmds s h hl hw
  have hnone : s.unpopped = [] := List.eq_nil_of_length_eq_zero (s.unpopped_length.trans hl)
  simpa [hnone] using poppedBy_sublist cmds h hw

/-- Over a run without RESET: what was unpopped and what is pushed is taken, dropped and counted, or still unpopped. -/
theorem execAll_counts (cmds : List Instr) {s : State} (h : s.RingInv) (hw : ∀ i ∈ cmds, i.wellFormed = true)
    (hreset : ∀ p m, Instr.reset p m ∉ cmds) : ∃ t dropped, execAll cmds s = .next t ∧
      s.level + (pushedBy cmds).length = (poppedBy cmds s).length + dropped + t.level ∧
      t.dropCnt = s.dropCnt + BitVec.ofNat 32 dropped := by
  induction cmds generalizing s with
  | nil => exact ⟨s, 0, rfl, by simp [pushedBy, poppedBy], by simp⟩
  | cons i is ih =>
    obtain ⟨hi, his⟩ := List.forall_mem_cons.mp hw
    obtain ⟨t, ht⟩ := exec_next i s
    obtain ⟨lost, hqueue, hcount⟩ := exec_conserves h hi ht
    obtain ⟨u, dropped, hu, hbalance, hdrop⟩ :=
      ih ((effect_of_exec ht).ringInv h) his fun p m hm => hreset p m (List.mem_cons_of_mem i hm)
    have hlost : t.dropCnt = s.dropCnt + BitVec.ofNat 32 lost.length :=
      hcount fun p m e => hreset p m (e ▸ List.mem_cons_self)
    have hlen := congrArg List.length hqueue
    simp only [List.length_append, State.unpopped_length] at hlen
    refine ⟨u, lost.length + dropped, (execAll_cons is ht).trans hu, ?_, ?_⟩
    · rw [poppedBy_cons is ht, pushedBy_cons, List.length_append, List.length_append]
      omega
    · rw [hdrop, hlost, BitVec.ofNat_add, BitVec.add_assoc]

/-- Settles O26: LEVEL is 0 at the start. -/
theorem everySampleIsPoppedDroppedOrUnpopped : Obligations.EverySampleIsPoppedDroppedOrUnpopped := by
  intro cmds s h hl hw hreset
  simpa [hl] using execAll_counts cmds h hw hreset

end Sys2Proof.Machine

/-! SUPPORT. The encoding: commands and their words are each other's inverse, the rows of the opcode map as one match
under one mask each (R104), and what the meanings of NOP and of a command on the wrong port leave. -/

namespace Sys2Proof.Machine

/-! ### Commands and their words (R102, R103, R109) -/

/-- Settles O1: the words split off again as header and data word, and these decode. -/
theorem encodedCommandsDecodeBack : Obligations.EncodedCommandsDecodeBack := by
  intro i more hw
  obtain ⟨w1, htake, hdata⟩ := takeCommand_encode i more
  rw [decodeWords, htake, Option.map_some, decode_header i w1 hw hdata]

/-- Settles O2: a decoded command is its header's operands, and all other bits of the header are its opcode or 0. -/
theorem decodedCommandsEncodeBack : Obligations.DecodedCommandsEncodeBack := by
  intro p w0 w1 i h
  obtain ⟨hop, haccept, hrsv, rfl⟩ := (decode_ok p w0 w1 i).mp h
  obtain ⟨hheader, hopcode, hport, hdata⟩ := header_operandsOf p w0 w1 hop hrsv
  have hwf : (operandsOf p w0 w1).wellFormed = true := by rw [Instr.wellFormed, hopcode, hport, haccept]
  refine ⟨hport, hwf, hheader, fun hlen => ?_, fun hlen => ?_⟩ <;> rw [hdata]
  · exact if_pos (by_contra fun h7 => by simp [cmdLen, h7] at hlen)
  · exact if_neg fun h7 => by simp [cmdLen, h7] at hlen

/-! ### The opcode map (R104) -/

/-- The mask of the row of `op`: the opcode field and the row's reserved bits. -/
def rowMask (op : BitVec 4) : Word := 0xF0000000#32 ||| rsvMask op

/-- The match of the row of `op`: the opcode, and 0 in every other bit. -/
def rowMatch (op : BitVec 4) : Word := op ++ 0#28

/-- No row reserves a bit of the opcode field. -/
theorem rsvMask_split (op : BitVec 4) : rsvMask op = 0#4 ++ (rsvMask op).extractLsb' 0 28 := by
  revert op; decide

theorem append_eq_append_iff {k n : Nat} (a a' : BitVec k) (b b' : BitVec n) :
    a ++ b = a' ++ b' ↔ a = a' ∧ b = b' := by
  constructor
  · intro h
    obtain rfl : b = b' := by rw [← field_low a b, h, field_low]
    exact ⟨(BitVec.append_left_inj b).mp h, rfl⟩
  · rintro ⟨rfl, rfl⟩; rfl

/-- One comparison under the row's mask makes two checks of R109: the opcode is the row's, and the reserved bits
are 0. -/
theorem and_rowMask_eq_rowMatch (op : BitVec 4) (w0 : Word) :
    w0 &&& rowMask op = rowMatch op ↔ opcodeOf w0 = op ∧ w0 &&& rsvMask op = 0#32 := by
  obtain ⟨opField, operands, rfl⟩ : ∃ (a : BitVec 4) (b : BitVec 28), w0 = a ++ b := ⟨_, _, header_split w0⟩
  have hop : opcodeOf (opField ++ operands) = opField := BitVec.extractLsb'_append_eq_left
  have hfield : 0xF0000000#32 = BitVec.allOnes 4 ++ 0#28 := rfl
  have hzero : 0#32 = 0#4 ++ 0#28 := rfl
  rw [hop, rowMask, rowMatch, hfield, hzero, rsvMask_split op, BitVec.or_append, BitVec.and_append, BitVec.and_append,
    BitVec.or_zero, BitVec.zero_or, BitVec.and_allOnes, append_eq_append_iff, append_eq_append_iff]
  simp

/-- A decoded header has the match of its command's row, and the row lists the port. -/
theorem row_of_decode {p : Port} {w0 w1 : Word} {i : Instr} (h : decode p w0 w1 = .ok i) :
    w0 &&& rowMask i.opcode = rowMatch i.opcode ∧ acceptedOn i.opcode p = true := by
  obtain ⟨hop, haccept, hrsv, rfl⟩ := (decode_ok p w0 w1 i).mp h
  obtain ⟨-, hopcode, -, -⟩ := header_operandsOf p w0 w1 hop hrsv
  rw [hopcode]
  exact ⟨(and_rowMask_eq_rowMatch _ w0).mpr ⟨rfl, hrsv⟩, haccept⟩

/-- A header with the match of a row that lists the port decodes to its operands. -/
theorem decode_of_row {p : Port} {w0 w1 : Word} {op : BitVec 4} (hop : ¬0x8#4 ≤ op)
    (hrow : w0 &&& rowMask op = rowMatch op) (haccept : acceptedOn op p = true) :
    opcodeOf w0 = op ∧ decode p w0 w1 = .ok (operandsOf p w0 w1) := by
  obtain ⟨rfl, hrsv⟩ := (and_rowMask_eq_rowMatch op w0).mp hrow
  exact ⟨rfl, (decode_ok p w0 w1 _).mpr ⟨hop, haccept, hrsv, rfl⟩⟩

/-- The row of `op` is selected exactly by its match on its ports; `cmd` is the row's command as a function of its
operands, and `operands` those the header holds. -/
theorem decode_iff_row {α : Type} {p : Port} {w0 w1 : Word} (op : BitVec 4) (cmd : α → Instr) (operands : α)
    (hop : ¬0x8#4 ≤ op) (hcmd : ∀ a, (cmd a).opcode = op)
    (hoperands : opcodeOf w0 = op → operandsOf p w0 w1 = cmd operands) :
    (∃ a, decode p w0 w1 = .ok (cmd a)) ↔ w0 &&& rowMask op = rowMatch op ∧ acceptedOn op p = true := by
  constructor
  · rintro ⟨a, h⟩
    rw [← hcmd a]
    exact row_of_decode h
  · rintro ⟨hrow, haccept⟩
    obtain ⟨hopcode, hdecode⟩ := decode_of_row hop hrow haccept
    exact ⟨operands, by rw [hdecode, hoperands hopcode]⟩

/-! ### Operand assembly, one equation per row (R103) -/

section
variable {p : Port} {w0 w1 : Word}

theorem operandsOf_nop (h : opcodeOf w0 = 0x0#4) : operandsOf p w0 w1 = .nop p (w0.extractLsb' 0 28) := by
  rw [operandsOf, h]; rfl

theorem operandsOf_push (h : opcodeOf w0 = 0x1#4) : operandsOf p w0 w1 = .push p (w0.extractLsb' 0 16) := by
  rw [operandsOf, h]; rfl

theorem operandsOf_popBlock (h : opcodeOf w0 = 0x2#4) :
    operandsOf p w0 w1 = .popBlock p (w0.getLsbD 27) (w0.extractLsb' 0 16) := by
  rw [operandsOf, h]; rfl

theorem operandsOf_snapshot (h : opcodeOf w0 = 0x3#4) : operandsOf p w0 w1 = .snapshot p (w0.extractLsb' 0 16) := by
  rw [operandsOf, h]; rfl

theorem operandsOf_analyze (h : opcodeOf w0 = 0x4#4) :
    operandsOf p w0 w1 = .analyze p (w0.getLsbD 27) (w0.extractLsb' 0 16) := by
  rw [operandsOf, h]; rfl

theorem operandsOf_reset (h : opcodeOf w0 = 0x5#4) : operandsOf p w0 w1 = .reset p (w0.extractLsb' 0 5) := by
  rw [operandsOf, h]; rfl

theorem operandsOf_csrRead (h : opcodeOf w0 = 0x6#4) : operandsOf p w0 w1 = .csrRead p (w0.extractLsb' 0 8) := by
  rw [operandsOf, h]; rfl

theorem operandsOf_csrWrite (h : opcodeOf w0 = 0x7#4) :
    operandsOf p w0 w1 = .csrWrite p (w0.extractLsb' 0 8) w1 := by
  rw [operandsOf, h]; rfl

end

/-! ### The rows with their ports (R104, R112) -/

section
variable (p : Port) (w0 w1 : Word)

theorem decode_nop_iff : (∃ h, decode p w0 w1 = .ok (.nop p h)) ↔ w0 &&& 0xF0000000#32 = 0x00000000#32 :=
  (decode_iff_row 0x0#4 (.nop p) _ (by decide) (fun _ => rfl) operandsOf_nop).trans
    (and_iff_left (wellFormed_nop p 0#28))

theorem decode_push_iff :
    (∃ x, decode p w0 w1 = .ok (.push p x)) ↔ w0 &&& 0xFFFF0000#32 = 0x10000000#32 ∧ p = .W :=
  (decode_iff_row 0x1#4 (.push p) _ (by decide) (fun _ => rfl) operandsOf_push).trans
    (and_congr_right' (wellFormed_push p 0#16))

theorem decode_popBlock_iff :
    (∃ f n, decode p w0 w1 = .ok (.popBlock p f n)) ↔ w0 &&& 0xF7FF0000#32 = 0x20000000#32 ∧ p = .R :=
  Prod.exists'.symm.trans <|
    (decode_iff_row 0x2#4 (fun a => .popBlock p a.1 a.2) (_, _) (by decide) (fun _ => rfl) operandsOf_popBlock).trans
      (and_congr_right' (wellFormed_popBlock p false 0#16))

theorem decode_snapshot_iff :
    (∃ n, decode p w0 w1 = .ok (.snapshot p n)) ↔ w0 &&& 0xFFFF0000#32 = 0x30000000#32 ∧ p = .H :=
  (decode_iff_row 0x3#4 (.snapshot p) _ (by decide) (fun _ => rfl) operandsOf_snapshot).trans
    (and_congr_right' (wellFormed_snapshot p 0#16))

theorem decode_analyze_iff :
    (∃ f n, decode p w0 w1 = .ok (.analyze p f n)) ↔ w0 &&& 0xF7FF0000#32 = 0x40000000#32 ∧ p = .H :=
  Prod.exists'.symm.trans <|
    (decode_iff_row 0x4#4 (fun a => .analyze p a.1 a.2) (_, _) (by decide) (fun _ => rfl) operandsOf_analyze).trans
      (and_congr_right' (wellFormed_analyze p false 0#16))

theorem decode_reset_iff :
    (∃ m, decode p w0 w1 = .ok (.reset p m)) ↔ w0 &&& 0xFFFFFFE0#32 = 0x50000000#32 ∧ p = .H :=
  (decode_iff_row 0x5#4 (.reset p) _ (by decide) (fun _ => rfl) operandsOf_reset).trans
    (and_congr_right' (wellFormed_reset p 0#5))

theorem decode_csrRead_iff :
    (∃ a, decode p w0 w1 = .ok (.csrRead p a)) ↔ w0 &&& 0xFFFFFF00#32 = 0x60000000#32 ∧ p = .H :=
  (decode_iff_row 0x6#4 (.csrRead p) _ (by decide) (fun _ => rfl) operandsOf_csrRead).trans
    (and_congr_right' (wellFormed_csrRead p 0#8))

theorem decode_csrWrite_iff :
    (∃ a, decode p w0 w1 = .ok (.csrWrite p a w1)) ↔ w0 &&& 0xFFFFFF00#32 = 0x70000000#32 ∧ p = .H :=
  (decode_iff_row 0x7#4 (fun a => .csrWrite p a w1) _ (by decide) (fun _ => rfl) operandsOf_csrWrite).trans
    (and_congr_right' (wellFormed_csrWrite p 0#8 w1))

/-- ILLEGAL_OP is raised for the reserved opcodes and for no other (R105). -/
theorem decode_illegalOp_iff : decode p w0 w1 = .error .illegalOp ↔ 8 ≤ (w0.extractLsb' 28 4).toNat := by
  have hop : 0x8#4 ≤ opcodeOf w0 ↔ 8 ≤ (w0.extractLsb' 28 4).toNat := BitVec.le_def
  rw [← hop, decode]
  by_cases h : 0x8#4 ≤ opcodeOf w0
  · simp [h]
  · rw [if_neg h]
    split_ifs <;> simp [h]

end

/-- Settles O3, row by row. -/
theorem decodeFollowsTheOpcodeMap : Obligations.DecodeFollowsTheOpcodeMap := by
  intro p w0 w1
  have hlen := cmdLen_eq w0
  refine ⟨decode_nop_iff p w0 w1, decode_push_iff p w0 w1, decode_popBlock_iff p w0 w1, decode_snapshot_iff p w0 w1,
    decode_analyze_iff p w0 w1, decode_reset_iff p w0 w1, decode_csrRead_iff p w0 w1, decode_csrWrite_iff p w0 w1,
    decode_illegalOp_iff p w0 w1, ?_, ?_⟩ <;> split at hlen <;> omega

/-- Settles O4: the words are closed, so decoding them is evaluation. -/
theorem wordsOfTheSpecDecode : Obligations.WordsOfTheSpecDecode := by
  unfold Obligations.WordsOfTheSpecDecode
  decide

/-! ### Commands that change no more than their port (R107, R108) -/

/-- A move of one port's position changes positions only. -/
theorem advance_eq (p : Port) (len : Nat) (s : State) : State.advance p len s =
    { s with
      posW := (State.advance p len s).posW
      posR := (State.advance p len s).posR
      posH := (State.advance p len s).posH } := by
  cases p <;> rfl

theorem portNumber_eq_code (p : Port) : portNumber p = p.code := by cases p <;> rfl

/-- Settles O8: `exec` answers the state of the error, whose position lemmas are those of every command. -/
theorem commandsOnTheWrongPortAreDropped : Obligations.CommandsOnTheWrongPortAreDropped := by
  intro i s hw
  have he := exec_wrongPort i s hw
  obtain ⟨hself, hother, -⟩ := (effect_of_exec he).advancesBy
  refine ⟨_, he, hself, hother, ?_⟩
  rw [portNumber_eq_code]
  exact cmdError_eq .wrongPort i.port i.header s

/-- Settles O50: NOP is a move of its port's position. -/
theorem nopOnlyAdvances : Obligations.NopOnlyAdvances := by
  intro s p hint
  obtain ⟨hself, hother, -⟩ := advance_ports p 1 s
  exact ⟨_, exec_nop p hint s, hself, hother, advance_eq p 1 s⟩

end Sys2Proof.Machine

/-! SUPPORT. The ring buffer commands: what PUSH, POP_BLOCK and SNAPSHOT answer, each as one equation, and what a run
of commands without a ring clear leaves in the ring. -/

namespace Sys2Proof.Machine

/-! ### PUSH (R140, R142) -/

/-- The cursor after PUSH, at every capacity. -/
theorem modC_succ (C i : Nat) : modC C ((i : Int) + 1) = (i + 1) % C := modC_natCast C (i + 1)

/-- Settles O17: PUSH is one write into the storage and an update of the cursors. -/
theorem pushWritesOneSlot : Obligations.PushWritesOneSlot := by
  intro s x
  refine ⟨_, exec_push x s, Memory.get_set_self _ _ _, fun j hj => Memory.get_set_other _ _ _ _ hj,
    modC_succ _ _, fun hfull => ?_, fun hne => ?_, rfl, rfl, rfl⟩
  · simp [hfull]
  · simp [hne]

theorem push_held {s : State} (h : s.RingInv) (x : Sample) :
    (State.advance .W 1 (State.pushSample x s)).held = lastN s.params.capacity (s.held ++ [x]) :=
  (State.held_congr _ _ rfl rfl rfl rfl).trans (State.pushSample_held s x h)

theorem push_unpopped (x : Sample) (s : State) :
    (State.advance .W 1 (State.pushSample x s)).unpopped = (State.pushSample x s).unpopped :=
  State.unpopped_congr _ _ rfl rfl rfl rfl

/-- Settles O18, from what storing a sample does to the samples held and to the unpopped ones. -/
theorem pushDropsOnlyTheOldest : Obligations.PushDropsOnlyTheOldest := by
  intro s x h
  refine ⟨_, exec_push x s, push_held h x, fun hlt => ?_, fun hfull => ⟨?_, ?_⟩⟩
  · rw [push_unpopped, State.pushSample_unpopped s x h hlt]
  · rw [push_unpopped, State.pushSample_unpopped_full s x h hfull]
  · simp [hfull]

/-! ### POP_BLOCK (R145 to R150) -/

/-- POP_BLOCK as one equation: the block leaves the ring, passes through FC_P under F, and is emitted. -/
theorem exec_popBlock_eq (f : Bool) (n : BitVec 16) (s : State) :
    let out := chainBlockIf f s.filterCfg s.chainP (s.popValues n.toNat)
    exec (.popBlock .R f n) s = .next { s with
      rspR := s.rspR ++ out.ys.map (fun v => v.signExtend 32)
      chainP := out.chain
      satP := s.satP || out.sat
      level := s.level - min n.toNat s.level
      underrunCnt := if s.level < n.toNat then s.underrunCnt + 1#32 else s.underrunCnt
      posR := s.posR + 1 } := by
  have hunderrun : min n.toNat s.level < n.toNat ↔ s.level < n.toNat := by omega
  intro out
  rw [exec_popBlock]
  simp only [State.popBlock, State.popCount, hunderrun]
  rfl

/-- Settles O20: the values POP_BLOCK takes are the block named, and `chainBlockIf` is the choice of F. -/
theorem popBlockEmitsTheOldestSamples : Obligations.PopBlockEmitsTheOldestSamples := by
  intro s f n
  refine ⟨_, exec_popBlock_eq f n s, ?_⟩
  intro block out
  have hblock : s.popValues n.toNat = block := State.popValues_eq n.toNat s
  have hout : chainBlockIf f s.filterCfg s.chainP block = out := rfl
  rw [hblock, hout]
  refine ⟨?_, ?_, rfl, rfl, rfl, rfl, rfl, rfl, rfl⟩
  · rintro rfl
    exact chainBlock_stepsThrough _ _ _
  · rw [← hout, chainBlockIf_length, ← hblock, State.popValues_length]

/-- Settles O21, by the accounting of the unpopped samples (`popBlock_conserves`). -/
theorem popBlockRemovesWhatItReturns : Obligations.PopBlockRemovesWhatItReturns := by
  intro s t f n h he
  obtain rfl : State.popBlock .R f n.toNat s = t := by rw [exec_popBlock] at he; injection he
  obtain ⟨hqueue, -⟩ := popBlock_conserves h f n
  have hunpopped : (State.popBlock .R f n.toNat s).unpopped = s.unpopped.drop n.toNat := by
    apply List.append_cancel_left (as := s.unpopped.take n.toNat)
    rw [List.take_append_drop]
    simpa [takenBy, pushedBy] using hqueue.symm
  refine ⟨?_, hunpopped, ?_, rfl, rfl, rfl, State.held_congr _ _ rfl rfl rfl rfl⟩
  · rintro rfl
    rw [← State.popValues_eq]
    rfl
  · rw [List.length_take, State.unpopped_length]
    rfl

/-- Settles O22: a block of no values goes through the chain without a step. -/
theorem popOfNothingChangesNothing : Obligations.PopOfNothingChangesNothing := by
  intro s f
  have hnone : s.popValues (0#16).toNat = [] := rfl
  have hout : chainBlockIf f s.filterCfg s.chainP [] = { ys := [], sat := false, chain := s.chainP } := by
    cases f <;> rfl
  rw [exec_popBlock_eq, hnone, hout]
  simp

/-- POP_BLOCK of more than is unpopped (R150): all unpopped samples, then zeros, and one underrun. -/
theorem exec_popBlock_underrun (f : Bool) {n : BitVec 16} {s : State} (h : s.level < n.toNat) :
    let out := chainBlockIf f s.filterCfg s.chainP (s.unpopped ++ List.replicate (n.toNat - s.level) 0#16)
    exec (.popBlock .R f n) s = .next { s with
      rspR := s.rspR ++ out.ys.map (fun v => v.signExtend 32)
      chainP := out.chain
      satP := s.satP || out.sat
      level := 0
      underrunCnt := s.underrunCnt + 1#32
      posR := s.posR + 1 } := by
  have hall : s.unpopped.take n.toNat = s.unpopped := List.take_of_length_le (by simpa using h.le)
  have hlevel : s.level - min n.toNat s.level = 0 := by omega
  intro out
  rw [exec_popBlock_eq, State.popValues_eq, hall, hlevel, if_pos h]

/-- Settles O23: more than C values are more than LEVEL. -/
theorem popBeyondCapacityUnderruns : Obligations.PopBeyondCapacityUnderruns := by
  intro s n h hn
  obtain ⟨hl, hf, -⟩ := h
  exact ⟨_, exec_popBlock_underrun false (by omega), rfl, rfl, rfl⟩

/-- Settles O24: without F nothing saturates, so STATUS stays as it was. -/
theorem underrunCountsOnceAndIsNoError : Obligations.UnderrunCountsOnceAndIsNoError := by
  intro s n h
  refine ⟨⟨_, exec_popBlock_underrun false h, rfl, rfl, ?_, rfl, rfl, rfl⟩,
    _, exec_popBlock_underrun true h, rfl, rfl, rfl⟩
  simp [State.csrValue, State.statusWord]

/-! ### SNAPSHOT (R155 to R159) -/

/-- SNAPSHOT of a length the ring can hold emits its values and moves on (R155). -/
theorem exec_snapshot_fits {n : BitVec 16} {s : State} (h : n.toNat ≤ s.params.capacity) :
    exec (.snapshot .H n) s = .next { s with
      rspH := s.rspH ++ (s.snapshotValues n.toNat).map (fun v => v.signExtend 32)
      posH := s.posH + 1 } := by
  rw [exec_snapshot, if_neg (by omega)]
  rfl

/-- SNAPSHOT of any other length is an error (R158). -/
theorem exec_snapshot_badLen {n : BitVec 16} {s : State} (h : s.params.capacity < n.toNat) :
    exec (.snapshot .H n) s = .next { s with
      err := true
      errCause := if s.err then s.errCause else 4#4
      errPort := if s.err then s.errPort else 2#2
      errWord := if s.err then s.errWord else (Instr.snapshot .H n).header
      posH := s.posH + 1 } := by
  rw [exec_snapshot, if_pos h, State.cmdError, cmdLen_header_one rfl]
  rfl

/-- Settles O28: the values of SNAPSHOT are the block named (`State.snapshotValues_eq`). -/
theorem snapshotEmitsTheNewestSamples : Obligations.SnapshotEmitsTheNewestSamples := by
  intro s n h
  rw [exec_snapshot_fits h, State.snapshotValues_eq]

/-- Settles O29, with the header written out. -/
theorem snapshotBeyondCapacityIsBadLen : Obligations.SnapshotBeyondCapacityIsBadLen :=
  fun _ _ h => exec_snapshot_badLen h

/-- The values of SNAPSHOT depend on the samples held only, not on which of them are unpopped (R159). -/
theorem snapshotValues_congr {s t : State} (hheld : t.held = s.held) (n : Nat) :
    t.snapshotValues n = s.snapshotValues n := by
  have hfill : t.fill = s.fill := by rw [← State.held_length, hheld, State.held_length]
  rw [State.snapshotValues_eq, State.snapshotValues_eq, hheld, hfill]

/-- Settles O30: a POP_BLOCK leaves the samples held and the words of port H as they are. -/
theorem snapshotSeesPoppedSamples : Obligations.SnapshotSeesPoppedSamples := by
  intro s t u v f k n ht hu hv
  obtain rfl : State.popBlock .R f k.toNat s = t := by rw [exec_popBlock] at ht; injection ht
  have hheld : (State.popBlock .R f k.toNat s).held = s.held := State.held_congr _ _ rfl rfl rfl rfl
  by_cases hn : n.toNat ≤ s.params.capacity
  · rw [exec_snapshot_fits hn] at hv
    rw [exec_snapshot_fits (s := State.popBlock .R f k.toNat s) hn, snapshotValues_congr hheld] at hu
    injection hu with hu
    injection hv with hv
    rw [← hu, ← hv]
    rfl
  · rw [exec_snapshot_badLen (by omega)] at hv
    rw [exec_snapshot_badLen (s := State.popBlock .R f k.toNat s) (Nat.lt_of_not_le hn)] at hu
    injection hu with hu
    injection hv with hv
    rw [← hu, ← hv]
    rfl

/-! ### The newest samples of a list -/

theorem lastN_of_length_le {n : Nat} {l : List Sample} (h : l.length ≤ n) : lastN n l = l := by
  simp [lastN, h]

/-- Counted from the end, the newest samples are the first ones. -/
theorem lastN_eq_reverse (n : Nat) (l : List Sample) : lastN n l = (l.reverse.take n).reverse :=
  List.rtake_eq_reverse_take_reverse l n

/-- What is not among the newest `n` now will not be when more has come. -/
theorem lastN_lastN_append (n : Nat) (l m : List Sample) : lastN n (lastN n l ++ m) = lastN n (l ++ m) := by
  simp [lastN_eq_reverse, List.take_append, List.take_take]

/-- A suffix is the newest samples there are, as many as it has. -/
theorem eq_lastN_of_suffix {l m : List Sample} (h : l <:+ m) : l = lastN l.length m := List.suffix_iff_eq_drop.mp h

/-! ### Runs without a ring clear (R144, R160, R161) -/

/-- WPTR and the samples held change by PUSH and by the ring clear only (R144, R146). -/
theorem Effect.window {i : Instr} {s t : State} (he : Effect s i t) : (t.wptr = s.wptr ∧ t.held = s.held) ∨
    (∃ x, i = .push .W x ∧ t.wptr = (s.wptr + 1) % s.params.capacity) ∨
    ∃ m, i = .reset .H m ∧ m.getLsbD 0 = true ∧ t.wptr = 0 := by
  cases he with
  | push x => exact .inr (.inl ⟨x, rfl, modC_succ _ _⟩)
  | reset m =>
    by_cases hm : m.getLsbD 0 = true
    · exact .inr (.inr ⟨m, rfl, hm, if_pos hm⟩)
    · exact .inl ⟨if_neg hm, State.held_congr _ _ rfl rfl (if_neg hm) (if_neg hm)⟩
  | _ =>
    refine .inl ⟨?_, State.held_congr _ _ ?_ ?_ ?_ ?_⟩ <;> simp [State.popBlock, State.snapshot, State.analyze]

/-- From `s` to `t` the ring has taken the samples `pushed`, in this order, and has not been cleared: what it held
moves out of the window of C samples, and what was unpopped may have been popped or dropped, oldest first. -/
structure RingTook (s t : State) (pushed : List Sample) : Prop where
  ringInv : t.RingInv
  params : t.params = s.params
  wptr : t.wptr = (s.wptr + pushed.length) % s.params.capacity
  held : t.held = lastN s.params.capacity (s.held ++ pushed)
  unpopped : t.unpopped <:+ s.unpopped ++ pushed

theorem RingTook.refl {s : State} (h : s.RingInv) : RingTook s s [] := by
  obtain ⟨-, hf, hw, -⟩ := id h
  refine ⟨h, rfl, (Nat.mod_eq_of_lt hw).symm, ?_, ?_⟩ <;> rw [List.append_nil]
  exact (lastN_of_length_le (s.held_length.trans_le hf)).symm

theorem RingTook.trans {s t u : State} {xs ys : List Sample} (h : RingTook s t xs) (h' : RingTook t u ys) :
    RingTook s u (xs ++ ys) where
  ringInv := h'.ringInv
  params := h'.params.trans h.params
  wptr := by rw [h'.wptr, h.wptr, h.params, Nat.mod_add_mod, List.length_append, Nat.add_assoc]
  held := by rw [h'.held, h.held, h.params, lastN_lastN_append, List.append_assoc]
  unpopped := by
    obtain ⟨gone, hgone⟩ := h.unpopped
    rw [← List.append_assoc, ← hgone, List.append_assoc]
    exact h'.unpopped.trans (List.suffix_append gone _)

/-- A well-formed command other than PUSH pushes nothing. -/
theorem pushedBy_of_not_push {i : Instr} (hw : i.wellFormed = true) (hi : ∀ x, i ≠ .push .W x) :
    pushedBy [i] = [] := by
  cases i with
  | push p x =>
    obtain rfl := (wellFormed_push p x).mp hw
    exact absurd rfl (hi x)
  | _ => rfl

/-- One command other than a ring clear: a PUSH brings its sample, any other command none. -/
theorem exec_ringTook {i : Instr} {s t : State} (h : s.RingInv) (hw : i.wellFormed = true)
    (hclear : ∀ m, i = .reset .H m → m.getLsbD 0 = false) (he : exec i s = .next t) :
    RingTook s t (pushedBy [i]) := by
  have heff := effect_of_exec he
  have hunpopped : t.unpopped <:+ s.unpopped ++ pushedBy [i] := by
    obtain ⟨lost, hqueue, -⟩ := exec_conserves h hw he
    exact ⟨_, hqueue.symm⟩
  by_cases hi : ∃ x, i = .push .W x
  · obtain ⟨x, rfl⟩ := hi
    obtain rfl : State.advance .W 1 (State.pushSample x s) = t := by rw [exec_push] at he; injection he
    exact ⟨heff.ringInv h, heff.params, modC_succ _ _, push_held h x, hunpopped⟩
  · rw [pushedBy_of_not_push hw fun x hx => hi ⟨x, hx⟩] at *
    obtain ⟨-, -, hwptr, hheld, -⟩ := RingTook.refl h
    rcases heff.window with ⟨ewptr, eheld⟩ | ⟨x, hx, -⟩ | ⟨m, hm, hbit, -⟩
    · exact ⟨heff.ringInv h, heff.params, ewptr.trans hwptr, eheld.trans hheld, hunpopped⟩
    · exact absurd ⟨x, hx⟩ hi
    · exact Bool.noConfusion (hbit.symm.trans (hclear m hm))

/-- A run without a ring clear brings the samples it pushes. -/
theorem execAll_ringTook (cmds : List Instr) {s t : State} (h : s.RingInv) (hw : ∀ i ∈ cmds, i.wellFormed = true)
    (hclear : ∀ p m, Instr.reset p m ∈ cmds → m.getLsbD 0 = false) (he : execAll cmds s = .next t) :
    RingTook s t (pushedBy cmds) := by
  induction cmds generalizing s with
  | nil =>
    obtain rfl : s = t := by injection he
    exact .refl h
  | cons i is ih =>
    obtain ⟨hi, his⟩ := List.forall_mem_cons.mp hw
    obtain ⟨u, hu⟩ := exec_next i s
    have hfirst : RingTook s u (pushedBy [i]) :=
      exec_ringTook h hi (fun m hm => hclear .H m (hm ▸ List.mem_cons_self)) hu
    rw [pushedBy_cons]
    exact hfirst.trans (ih hfirst.ringInv his (fun p m hm => hclear p m (List.mem_cons_of_mem i hm))
      ((execAll_cons is hu).symm.trans he))

/-- A ring that holds nothing has its write cursor at slot 0 and nothing unpopped (R35). -/
theorem cleared_of_fill_zero {s : State} (h : s.RingInv) (hf : s.fill = 0) :
    s.wptr = 0 ∧ s.held = [] ∧ s.unpopped = [] := by
  obtain ⟨hl, -, hw, hwf, -⟩ := h
  refine ⟨?_, List.eq_nil_of_length_eq_zero ?_, List.eq_nil_of_length_eq_zero ?_⟩
  · rw [hwf (by omega), hf]
  · rw [State.held_length, hf]
  · rw [State.unpopped_length]
    omega

/-- What the ring is after it has taken samples since a clear: they alone determine it, but for how many of them are
still unpopped. -/
theorem RingTook.of_cleared {s t : State} {pushed : List Sample} (ht : RingTook s t pushed) (h : s.RingInv)
    (hf : s.fill = 0) : t.wptr = pushed.length % s.params.capacity ∧ t.held = lastN s.params.capacity pushed ∧
      t.unpopped <:+ pushed := by
  obtain ⟨hwptr, hheld, hunpopped⟩ := cleared_of_fill_zero h hf
  obtain ⟨-, -, ewptr, eheld, eunpopped⟩ := ht
  rw [hwptr, Nat.zero_add] at ewptr
  rw [hheld, List.nil_append] at eheld
  rw [hunpopped, List.nil_append] at eunpopped
  exact ⟨ewptr, eheld, eunpopped⟩

/-- FILL is the number of samples taken since a clear, up to C (R33). -/
theorem RingTook.fill {s t : State} {pushed : List Sample} (ht : RingTook s t pushed) (h : s.RingInv)
    (hf : s.fill = 0) : t.fill = min pushed.length s.params.capacity := by
  obtain ⟨-, hheld, -⟩ := ht.of_cleared h hf
  rw [← State.held_length, hheld, lastN_length, Nat.min_comm]

/-- Settles O19, from what one command and what a run leaves of the window. -/
theorem cursorsCountThePushes : Obligations.CursorsCountThePushes := by
  refine ⟨fun i s t he => ?_, fun _ _ => rfl, fun cmds s t h hf hw hclear he => ?_⟩
  · rcases (effect_of_exec he).window with ⟨ewptr, -⟩ | hpush | hreset
    · exact .inl ewptr
    · exact .inr (.inl hpush)
    · exact .inr (.inr hreset)
  · have ht := execAll_ringTook cmds h hw hclear he
    obtain ⟨hwptr, -, -⟩ := ht.of_cleared h hf
    exact ⟨hwptr, ht.fill h hf⟩

/-- Settles O27: the unpopped samples are a suffix of the pushes, LEVEL long. -/
theorem unpoppedAreTheNewestPushes : Obligations.UnpoppedAreTheNewestPushes := by
  intro cmds s t h hf hw hclear he
  have ht := execAll_ringTook cmds h hw hclear he
  obtain ⟨-, -, hsuffix⟩ := ht.of_cleared h hf
  have hlen := hsuffix.length_le
  have heq := eq_lastN_of_suffix hsuffix
  rw [State.unpopped_length] at hlen heq
  exact ⟨hlen, heq, ht.ringInv.1⟩

/-- Every run of commands completes (R303). -/
theorem execAll_next (cmds : List Instr) (s : State) : ∃ t, execAll cmds s = .next t := by
  induction cmds generalizing s with
  | nil => exact ⟨s, rfl⟩
  | cons i is ih =>
    obtain ⟨u, hu⟩ := exec_next i s
    rw [execAll_cons is hu]
    exact ih u

/-- SNAPSHOT of all that a full ring holds emits the samples held, without a leading zero. -/
theorem snapshotValues_full {s : State} (h : s.fill = s.params.capacity) :
    s.snapshotValues s.params.capacity = s.held := by
  rw [State.snapshotValues_eq, lastN_of_length_le (s.held_length.trans h).le, h, Nat.sub_self]
  rfl

/-- Settles O31: after more than C pushes the ring is full, and holds the last C of them. -/
theorem snapshotAfterOverflowIsTheLastPushes : Obligations.SnapshotAfterOverflowIsTheLastPushes := by
  intro cmds s hlegal h hf hcmds hmany
  have hw : ∀ i ∈ cmds, i.wellFormed = true := by
    intro i hi
    rcases hcmds i hi with ⟨x, rfl⟩ | ⟨f, n, rfl⟩ <;> rfl
  have hclear : ∀ p m, Instr.reset p m ∈ cmds → m.getLsbD 0 = false := by
    intro p m hm
    rcases hcmds _ hm with ⟨x, e⟩ | ⟨f, n, e⟩ <;> cases e
  obtain ⟨t, he⟩ := execAll_next cmds s
  have ht := execAll_ringTook cmds h hw hclear he
  obtain ⟨-, hheld, -⟩ := ht.of_cleared h hf
  have hfull : t.fill = t.params.capacity := by
    rw [ht.fill h hf, ht.params]
    omega
  have hn : (BitVec.ofNat 16 s.params.capacity).toNat = t.params.capacity := by
    obtain ⟨⟨-, hC⟩, -⟩ := hlegal
    rw [ht.params, BitVec.toNat_ofNat]
    omega
  refine ⟨t, _, he, exec_snapshot_fits hn.le, ?_⟩
  show t.rspH ++ _ = _
  rw [hn, snapshotValues_full hfull, hheld]

end Sys2Proof.Machine

/-! SUPPORT. The filter datapath: one rounding rule for both stages, the feedback product of the DC blocker, the sum of
products of the low-pass filter, and the obligations about a single stage. -/

namespace Sys2Proof.Machine

/-! ### Rounding and saturation -/

/-- Both stages round a sum by `fdiv` and saturate the result: the sample they give and the indicator (R183, R191). -/
theorem roundSat_spec (a : Int) {b : Int} (hb : 0 < b) :
    ∃ yr : Int, b * yr ≤ a ∧ a < b * (yr + 1) ∧
      (BitVec.ofInt 16 (sat16 (fdiv a b))).toInt = min (max yr (-32768)) 32767 ∧
      (decide (sat16 (fdiv a b) ≠ fdiv a b) = true ↔ yr < -32768 ∨ 32767 < yr) := by
  obtain ⟨hlow, hhigh⟩ := fdiv_spec a b hb
  exact ⟨fdiv a b, hlow, hhigh, toInt_ofInt_sat16 _, by rw [decide_eq_true_iff, sat16_ne]⟩

/-- A sample is not saturated. -/
theorem sat16_sext (x : Sample) : sat16 (sext x) = sext x := by
  have hrange := sample_range x
  by_contra hne
  have := (sat16_ne (sext x)).mp hne
  omega

/-! ### The DC blocker (R182 to R186) -/

/-- Settles O32: `tdiv_spec` is the error of the feedback product, `roundSat_spec` the emitted sample. -/
theorem dcBlockerFollowsItsEquation : Obligations.DcBlockerFollowsItsEquation := by
  intro N c r x h o e
  have hY : o.chain.dcY.toInt = dcExact r c x := dcStep_dcY N c r x h
  have he : e = (r.toNat : Int) * sext c.dcY - 65536 * tdiv ((r.toNat : Int) * sext c.dcY) 65536 := by
    show (sext x - sext c.dcX) * 2 ^ 32 + (r.toNat : Int) * sext c.dcY - 2 ^ 16 * o.chain.dcY.toInt = _
    rw [hY, dcExact]
    ring
  obtain ⟨hsmall, hsign⟩ := tdiv_spec ((r.toNat : Int) * sext c.dcY) 65536 (by norm_num)
  rw [← he] at hsmall hsign
  refine ⟨hsmall, hsign, ?_, rfl⟩
  have hstored : wrapS 40 (dcExact r c x) = o.chain.dcY.toInt := (toInt_ofInt_wrapS _).symm
  rw [← hstored]
  exact roundSat_spec (wrapS 40 (dcExact r c x) + 32768) (by norm_num)

/-- From cleared state the chain invariant holds after any inputs and any values of R (R186). -/
theorem dcRun_inv (N : Nat) (run : List (BitVec 16 × Sample)) {c : Chain} (h : Chain.Inv N c) :
    Chain.Inv N (run.foldl (fun c e => (dcStep e.1 c e.2).chain) c) := by
  induction run generalizing c with
  | nil => exact h
  | cons e run ih => exact ih (dcStep_inv N c e.1 e.2 h)

/-- Settles O33: while DC_Y is near its input nothing wraps (`dcExact_near`), and it always is (`dcRun_inv`). -/
theorem dcOutputNeverWraps : Obligations.DcOutputNeverWraps := by
  intro N run r x c
  have h : Chain.Inv N c := dcRun_inv N run (cleared_inv N)
  obtain ⟨-, -, hnear⟩ := id h
  exact ⟨near_bound _ _ (sample_range c.dcX) hnear, near_bound _ _ (sample_range x) (dcExact_near N c r x h),
    dcStep_dcY N c r x h⟩

/-! #### A constant input (R185) -/

/-- The feedback product shrinks what it is not zero on, because R is below 1. -/
theorem natAbs_feedback_lt (r : BitVec 16) {Y : Int} (hY : Y ≠ 0) :
    (tdiv ((r.toNat : Int) * Y) 65536).natAbs < Y.natAbs := by
  have hr : r.toNat < 65536 := r.isLt
  have hpos : 0 < Y.natAbs := Int.natAbs_pos.mpr hY
  have habs : (tdiv ((r.toNat : Int) * Y) 65536).natAbs = r.toNat * Y.natAbs / 65536 := by
    rw [tdiv, Int.natAbs_tdiv, Int.natAbs_mul, Int.natAbs_natCast]
    rfl
  rw [habs]
  exact Nat.div_lt_of_lt_mul (Nat.mul_lt_mul_of_pos_right hr hpos)

/-- An input equal to the one before leaves the feedback product alone. -/
theorem dcY_of_same_input {N : Nat} {c : Chain} (r : BitVec 16) (h : Chain.Inv N c) :
    (dcStep r c c.dcX).chain.dcY.toInt = tdiv ((r.toNat : Int) * c.dcY.toInt) 65536 := by
  refine (dcStep_dcY N c r c.dcX h).trans ?_
  rw [dcExact, sub_self, zero_mul, zero_add]
  rfl

/-- The sample emitted is 0 as soon as the stored output rounds to 0. -/
theorem dcStep_y_eq_zero {r : BitVec 16} {c : Chain} {x : Sample} (h1 : -32768 ≤ (dcStep r c x).chain.dcY.toInt)
    (h2 : (dcStep r c x).chain.dcY.toInt < 32768) : (dcStep r c x).y = 0#16 := by
  have hstored : wrapS 40 (dcExact r c x) = (dcStep r c x).chain.dcY.toInt := (toInt_ofInt_wrapS _).symm
  have hround : fdiv (wrapS 40 (dcExact r c x) + 32768) 65536 = 0 :=
    fdiv_unique _ _ 0 (by norm_num) (by omega) (by omega)
  show BitVec.ofInt 16 (sat16 (fdiv (wrapS 40 (dcExact r c x) + 32768) 65536)) = 0#16
  rw [hround]
  rfl

/-- The chain after `k` steps of the DC blocker on the constant input `x`. -/
def dcHeld (r : BitVec 16) (x : Sample) (c : Chain) (k : Nat) : Chain := (fun c => (dcStep r c x).chain)^[k] c

/-- One more step on the constant input. -/
theorem dcHeld_succ (r : BitVec 16) (x : Sample) (c : Chain) (k : Nat) :
    dcHeld r x c (k + 1) = (dcStep r (dcHeld r x c k) x).chain := Function.iterate_succ_apply' _ k c

theorem dcHeld_inv {N : Nat} {c : Chain} (r : BitVec 16) (x : Sample) (h : Chain.Inv N c) (k : Nat) :
    Chain.Inv N (dcHeld r x c k) := by
  induction k with
  | zero => exact h
  | succ k ih =>
    rw [dcHeld_succ]
    exact dcStep_inv N _ r x ih

/-- The `k`-th output of a fold over the constant input is that of the step from `dcHeld`. -/
theorem foldl_dcStep (r : BitVec 16) (x : Sample) (c : Chain) (k : Nat) :
    (List.range k).foldl (fun o _ => dcStep r o.chain x) (dcStep r c x) = dcStep r (dcHeld r x c k) x := by
  induction k with
  | zero => rfl
  | succ k ih => rw [List.range_succ, List.foldl_append, ih, dcHeld_succ]; rfl

/-- From the second step on a constant input only the feedback product is left. -/
theorem dcHeld_dcY_succ {N : Nat} {c : Chain} (r : BitVec 16) (x : Sample) (h : Chain.Inv N c) (k : Nat) :
    (dcHeld r x c (k + 2)).dcY.toInt = tdiv ((r.toNat : Int) * (dcHeld r x c (k + 1)).dcY.toInt) 65536 := by
  have hx : (dcHeld r x c (k + 1)).dcX = x := by rw [dcHeld_succ]; rfl
  have hstep := dcY_of_same_input r (dcHeld_inv r x h (k + 1))
  rw [hx] at hstep
  rw [dcHeld_succ r x c (k + 1), hstep]

/-- A magnitude that shrinks at every step until it is 0 is 0 after as many steps as it was large. -/
theorem eq_zero_of_shrinking {Y : Nat → Int} (hlt : ∀ k, Y k ≠ 0 → (Y (k + 1)).natAbs < (Y k).natAbs)
    (hzero : ∀ k, Y k = 0 → Y (k + 1) = 0) {k : Nat} (hk : (Y 0).natAbs ≤ k) : Y k = 0 := by
  have hbound : ∀ j, (Y j).natAbs ≤ (Y 0).natAbs - j := by
    intro j
    induction j with
    | zero => exact Nat.le_refl _
    | succ j ih =>
      by_cases h0 : Y j = 0
      · simp [hzero j h0]
      · have := hlt j h0
        omega
  have := hbound k
  omega

/-- Settles O34: each further step multiplies the stored output by R and truncates (`dcHeld_dcY_succ`). -/
theorem constantInputConvergesToZero : Obligations.ConstantInputConvergesToZero := by
  intro N c r x h after
  have hafter : ∀ k, after k = dcStep r (dcHeld r x c k) x := foldl_dcStep r x c
  have hnext : ∀ k, (after (k + 1)).chain.dcY.toInt = tdiv ((r.toNat : Int) * (after k).chain.dcY.toInt) 65536 := by
    intro k
    rw [hafter, hafter, ← dcHeld_succ, ← dcHeld_succ]
    exact dcHeld_dcY_succ r x h k
  have hlt : ∀ k, (after k).chain.dcY.toInt ≠ 0 →
      (after (k + 1)).chain.dcY.toInt.natAbs < (after k).chain.dcY.toInt.natAbs := by
    intro k hk
    rw [hnext]
    exact natAbs_feedback_lt r hk
  have hzero : ∀ k, (after k).chain.dcY.toInt = 0 → (after (k + 1)).chain.dcY.toInt = 0 := by
    intro k hk
    rw [hnext, hk, mul_zero]
    rfl
  have hy : ∀ k, -32768 ≤ (after k).chain.dcY.toInt → (after k).chain.dcY.toInt < 32768 → (after k).y = 0#16 := by
    intro k
    rw [hafter]
    exact dcStep_y_eq_zero
  refine ⟨fun k hk => ?_, hzero, hy, (after 0).chain.dcY.toInt.natAbs, fun k hk => ?_⟩
  · rw [Int.abs_eq_natAbs, Int.abs_eq_natAbs]
    exact Int.ofNat_lt.mpr (hlt k hk)
  · have h0 := eq_zero_of_shrinking (Y := fun k => (after k).chain.dcY.toInt) hlt hzero hk
    exact ⟨h0, hy k (by omega) (by omega)⟩

/-! ### The low-pass filter (R190 to R193) -/

theorem sumTo_succ (N : Nat) (f : Nat → Int) : sumTo (N + 1) f = sumTo N f + f (N + 1) := by
  simp [sumTo, List.range_succ]

/-- A sum of `N` bounded terms. -/
theorem abs_sumTo_le (N : Nat) {f : Nat → Int} {B : Int} (h : ∀ k, |f k| ≤ B) : |sumTo N f| ≤ N * B := by
  induction N with
  | zero => simp [sumTo]
  | succ N ih =>
    rw [sumTo_succ]
    calc |sumTo N f + f (N + 1)| ≤ |sumTo N f| + |f (N + 1)| := abs_add_le _ _
      _ ≤ N * B + B := add_le_add ih (h _)
      _ = ((N + 1 : Nat) : Int) * B := by push_cast; ring

/-- The sum over coefficient and history indices is the sum over the two lists side by side. -/
theorem sumTo_eq_zipWith {N : Nat} {ks : List Word} {vs : List Sample} (hk : ks.length = N) (hv : vs.length = N) :
    sumTo N (fun k => sext (ks.getD (k - 1) 0#32) * histAt vs k) =
      (List.zipWith (fun k v => k.toInt * v.toInt) ks vs).sum := by
  unfold sumTo
  congr 1
  apply List.ext_getElem
  · simp [hk, hv]
  · intro i h1 h2
    have hi : i < N := by simpa using h1
    simp [histAt, sext, hk, hv, hi]

/-- `acc` as the sum of the products of R191, over the lists of coefficients and samples. -/
theorem lpfAcc_eq {g : FilterCfg} {c : Chain} {b0 : Word} {bs : List Word} (x : Sample) (hb : g.b = b0 :: bs)
    (hbs : bs.length = g.order) (ha : g.a.length = g.order) (hx : c.xh.length = g.order)
    (hy : c.yh.length = g.order) :
    lpfAcc g c x = b0.toInt * x.toInt + (List.zipWith (fun k v => k.toInt * v.toInt) bs c.xh).sum -
      (List.zipWith (fun k v => k.toInt * v.toInt) g.a c.yh).sum := by
  have hB : sumTo g.order (fun k => coefB g k * histAt c.xh k) =
      sumTo g.order (fun k => sext (bs.getD (k - 1) 0#32) * histAt c.xh k) := by
    simp [sumTo, coefB, hb]
  have h0 : coefB g 0 = sext b0 := by simp [coefB, hb]
  unfold lpfAcc
  rw [hB, h0, sumTo_eq_zipWith hbs hx]
  exact congrArg _ (sumTo_eq_zipWith ha hy)

/-- A history of `N` samples takes the new one and loses its last. -/
theorem shiftIn_eq_dropLast {N : Nat} {h : List Sample} (hN : 1 ≤ N) (hl : h.length = N) (v : Sample) :
    shiftIn N v h = v :: h.dropLast := by
  obtain ⟨n, rfl⟩ : ∃ n, N = n + 1 := ⟨N - 1, by omega⟩
  rw [shiftIn, List.take_succ_cons, List.dropLast_eq_take, hl, Nat.add_sub_cancel]

/-- What the low-pass stage gives once its accumulator is known: the rounded, saturated sample and the shifted
histories (R191). -/
theorem lpfStep_spec {g : FilterCfg} {c : Chain} {x : Sample} {acc : Int} (hacc : lpfAcc g c x = acc)
    (hN : 1 ≤ g.order) (hx : c.xh.length = g.order) (hy : c.yh.length = g.order) :
    ∃ yr : Int, 2 ^ 28 * yr ≤ acc + 2 ^ 27 ∧ acc + 2 ^ 27 < 2 ^ 28 * (yr + 1) ∧
      (lpfStep g c x).y.toInt = min (max yr (-32768)) 32767 ∧
      ((lpfStep g c x).sat = true ↔ yr < -32768 ∨ 32767 < yr) ∧
      (lpfStep g c x).chain = { c with xh := x :: c.xh.dropLast, yh := (lpfStep g c x).y :: c.yh.dropLast } := by
  obtain ⟨yr, hlow, hhigh, hval, hsat⟩ := roundSat_spec (lpfAcc g c x + 2 ^ 27) (b := 2 ^ 28) (by norm_num)
  refine ⟨yr, hacc ▸ hlow, hacc ▸ hhigh, hval, hsat, ?_⟩
  rw [← shiftIn_eq_dropLast hN hx, ← shiftIn_eq_dropLast hN hy]
  rfl

/-- Settles O35: the accumulator is the sum of products (`lpfAcc_eq`), and the stage rounds it (`lpfStep_spec`). -/
theorem lowPassIsTheDirectFormSum : Obligations.LowPassIsTheDirectFormSum := by
  refine ⟨fun g c x b0 bs hN _ hb hbs ha hx hy => lpfStep_spec (lpfAcc_eq x hb hbs ha hx hy) hN hx hy, ?_⟩
  intro g c x x1 x2 x3 x4 y1 y2 y3 y4 b0 b1 b2 b3 b4 a1 a2 a3 a4 hN hb ha hx hy
  refine lpfStep_spec ?_ (by simp [hN]) (by simp [hN, hx]) (by simp [hN, hy])
  rw [lpfAcc_eq x hb (by simp [hN]) (by simp [hN, ha]) (by simp [hN, hx]) (by simp [hN, hy]), ha, hx, hy]
  simp only [List.zipWith_cons_cons, List.zipWith_nil_right, List.sum_cons, List.sum_nil]
  ring

/-- A coefficient is at most 2^31 in magnitude and a sample at most 2^15 (R192). -/
theorem abs_product_le (b : Word) (v : Sample) : |sext b * sext v| ≤ 2 ^ 46 := by
  have hb : |sext b| ≤ 2 ^ 31 := by
    have h1 := BitVec.le_toInt b
    have h2 := BitVec.toInt_lt (x := b)
    rw [abs_le, sext]
    norm_num at h1 h2 ⊢
    omega
  have hv : |sext v| ≤ 2 ^ 15 := by
    obtain ⟨h1, h2⟩ := sample_range v
    rw [abs_le]
    omega
  calc |sext b * sext v| = |sext b| * |sext v| := abs_mul _ _
    _ ≤ 2 ^ 31 * 2 ^ 15 := mul_le_mul hb hv (abs_nonneg _) (by norm_num)
    _ = 2 ^ 46 := by norm_num

/-- Settles O36: nine products of at most 2^46 at order 4, fewer below. -/
theorem lowPassAccumulatorFits : Obligations.LowPassAccumulatorFits := by
  refine ⟨abs_product_le, fun g c x hN => ?_⟩
  have hb := abs_sumTo_le g.order (f := fun k => coefB g k * histAt c.xh k) fun k => abs_product_le _ _
  have ha := abs_sumTo_le g.order (f := fun k => coefA g k * histAt c.yh k) fun k => abs_product_le _ _
  have h0 : |coefB g 0 * sext x| ≤ 2 ^ 46 := abs_product_le _ x
  unfold lpfAcc
  rw [abs_le] at hb ha h0
  rw [abs_lt]
  omega

/-- Coefficients that are all 0 add nothing. -/
theorem sumTo_eq_zero {N : Nat} {coef : Nat → Int} {h : Nat → Int} (h0 : ∀ k, 1 ≤ k → coef k = 0) :
    sumTo N (fun k => coef k * h k) = 0 := by
  induction N with
  | zero => rfl
  | succ N ih => rw [sumTo_succ, ih, h0 (N + 1) (by omega), zero_mul, add_zero]

/-- A list of zeros reads as 0 at every index, past its end too. -/
theorem sext_getD_zeros (N k : Nat) : sext ((List.replicate N 0#32).getD k 0#32) = 0 := by
  by_cases hk : k < N <;> simp [List.getD_eq_getElem?_getD, hk, sext]

/-- With the reset coefficients only the product of LPF_B[0] is left (R193). -/
theorem lpfAcc_reset {g : FilterCfg} (hb : g.b = 0x10000000#32 :: List.replicate g.order 0#32)
    (ha : g.a = List.replicate g.order 0#32) (c : Chain) (x : Sample) : lpfAcc g c x = 2 ^ 28 * sext x := by
  have hB : ∀ k, 1 ≤ k → coefB g k = 0 := by
    rintro (_ | k) hk
    · omega
    · rw [coefB, hb, List.getD_cons_succ, sext_getD_zeros]
  have hA : ∀ k, 1 ≤ k → coefA g k = 0 := fun k _ => by rw [coefA, ha, sext_getD_zeros]
  have h0 : coefB g 0 = 2 ^ 28 := by rw [coefB, hb]; rfl
  rw [lpfAcc, h0, sumTo_eq_zero hB, sumTo_eq_zero hA, add_zero, sub_zero]

/-- Settles O37: half a unit added to a multiple of 2^28 rounds to that multiple, a sample, which is not saturated. -/
theorem resetCoefficientsAreTheIdentity : Obligations.ResetCoefficientsAreTheIdentity := by
  intro g c x hb ha
  have hacc := lpfAcc_reset hb ha c x
  have hround : fdiv (lpfAcc g c x + 2 ^ 27) (2 ^ 28) = sext x :=
    fdiv_unique _ _ _ (by norm_num) (by omega) (by omega)
  have hout : BitVec.ofInt 16 (sext x) = x := BitVec.ofInt_toInt
  refine ⟨hacc, ?_⟩
  simp only [lpfStep, hround, sat16_sext, hout]
  simp [shiftIn]

end Sys2Proof.Machine

/-! SUPPORT. The filter chains under the commands: one ChainStep at every setting of CTRL, what POP_BLOCK and ANALYZE
do to the two chains and to SAT_P and SAT_A, and the obligations about them. -/

namespace Sys2Proof.Machine

/-! ### ChainStep at every setting of CTRL (R200, R201) -/

/-- The sample that the low-pass stage of ChainStep takes: what the DC stage gives, or its input where that is off. -/
def dcStageOut (g : FilterCfg) (c : Chain) (x : Sample) : Sample := if g.dcEn then (dcStep g.rCode c x).y else x

/-- With the DC stage on, the DC state of ChainStep is that of DCStep, which the low-pass stage leaves alone. -/
theorem chainStep_dc_on {g : FilterCfg} (h : g.dcEn = true) (c : Chain) (x : Sample) :
    (chainStep g c x).chain.dcX = (dcStep g.rCode c x).chain.dcX ∧
      (chainStep g c x).chain.dcY = (dcStep g.rCode c x).chain.dcY := by
  simp only [chainStep, h]
  cases g.lpfEn <;> exact ⟨rfl, rfl⟩

/-- With the DC stage off, its state is frozen. -/
theorem chainStep_dc_off {g : FilterCfg} (h : g.dcEn = false) (c : Chain) (x : Sample) :
    (chainStep g c x).chain.dcX = c.dcX ∧ (chainStep g c x).chain.dcY = c.dcY := by
  simp only [chainStep, h]
  cases g.lpfEn <;> exact ⟨rfl, rfl⟩

/-- With the low-pass stage on, ChainStep gives its output and histories; the DC stage has left the histories alone. -/
theorem chainStep_lpf_on {g : FilterCfg} (h : g.lpfEn = true) (c : Chain) (x : Sample) :
    (chainStep g c x).y = (lpfStep g c (dcStageOut g c x)).y ∧
      (chainStep g c x).chain.xh = (lpfStep g c (dcStageOut g c x)).chain.xh ∧
      (chainStep g c x).chain.yh = (lpfStep g c (dcStageOut g c x)).chain.yh := by
  simp only [chainStep, dcStageOut, h]
  cases g.dcEn <;> exact ⟨rfl, rfl, rfl⟩

/-- With the low-pass stage off, its input passes and its histories are frozen. -/
theorem chainStep_lpf_off {g : FilterCfg} (h : g.lpfEn = false) (c : Chain) (x : Sample) :
    (chainStep g c x).y = dcStageOut g c x ∧ (chainStep g c x).chain.xh = c.xh ∧
      (chainStep g c x).chain.yh = c.yh := by
  simp only [chainStep, dcStageOut, h]
  cases g.dcEn <;> exact ⟨rfl, rfl, rfl⟩

/-- ChainStep saturates when a stage that is on does. -/
theorem chainStep_sat (g : FilterCfg) (c : Chain) (x : Sample) : (chainStep g c x).sat =
    (g.dcEn && (dcStep g.rCode c x).sat || g.lpfEn && (lpfStep g c (dcStageOut g c x)).sat) := by
  obtain ⟨dcEn, lpfEn, rCode, order, b, a⟩ := g
  cases dcEn <;> cases lpfEn <;> rfl

/-- With both stages off a chain is the identity. -/
theorem chainStep_off {g : FilterCfg} (hdc : g.dcEn = false) (hlpf : g.lpfEn = false) (c : Chain) (x : Sample) :
    chainStep g c x = { y := x, sat := false, chain := c } := by
  simp [chainStep, passThrough, hdc, hlpf]

/-- A block of one sample takes one ChainStep. -/
theorem chainBlock_singleton (g : FilterCfg) (c : Chain) (x : Sample) : chainBlock g c [x] =
    { ys := [(chainStep g c x).y], sat := (chainStep g c x).sat, chain := (chainStep g c x).chain } := by
  simp [chainBlock]

/-! ### ANALYZE (R220, R222) -/

/-- ANALYZE of a legal length as one equation: the block SNAPSHOT would give passes through FC_A under F, and its
statistics are written. -/
theorem exec_analyze_fits (f : Bool) {n : BitVec 16} {s : State} (h1 : 1 ≤ n.toNat)
    (hC : n.toNat ≤ s.params.capacity) :
    let out := chainBlockIf f s.filterCfg s.chainA (s.snapshotValues n.toNat)
    exec (.analyze .H f n) s = .next { s with
      chainA := out.chain
      satA := s.satA || out.sat
      stats := blockStats s.splitThr.toNat n.toNat out.ys
      statsValid := true
      posH := s.posH + 1 } := by
  intro out
  rw [exec_analyze, if_neg (by omega)]
  rfl

/-- ANALYZE of any other length is an error (R222). -/
theorem exec_analyze_badLen (f : Bool) {n : BitVec 16} {s : State} (h : n.toNat = 0 ∨ s.params.capacity < n.toNat) :
    exec (.analyze .H f n) s = .next (State.cmdError .badLen .H (Instr.analyze .H f n).header s) := by
  rw [exec_analyze, if_pos h]

/-- POP_BLOCK takes the oldest unpopped sample first (R145). -/
theorem popValues_one {s : State} {x : Sample} {rest : List Sample} (h : s.unpopped = x :: rest) :
    s.popValues 1 = [x] := by
  have hl : s.level = rest.length + 1 := by rw [← State.unpopped_length, h, List.length_cons]
  simp [State.popValues_eq, h, hl]

/-- Settles O38: each enable of ChainStep by its own lemma (`chainStep_dc_on` and those beside it), and both commands on
a block of one sample. -/
theorem disabledStagesPassAndFreeze : Obligations.DisabledStagesPassAndFreeze := by
  refine ⟨fun g c x => ?_, fun s => ⟨rfl, rfl, rfl, rfl, rfl, rfl⟩, fun s x rest h => ?_, fun s x h hC => ?_⟩
  · refine ⟨fun h => chainStep_dc_on h c x, fun h => chainStep_dc_off h c x, fun h => chainStep_lpf_on h c x,
      fun h => chainStep_lpf_off h c x, ?_, fun hdc hlpf => chainStep_off hdc hlpf c x⟩
    rw [chainStep_sat, Bool.or_eq_true, Bool.and_eq_true, Bool.and_eq_true]
    rfl
  · refine ⟨_, exec_popBlock_eq true 1#16 s, ?_⟩
    have hout : chainBlockIf true s.filterCfg s.chainP (s.popValues (1#16).toNat) = _ :=
      (congrArg _ (popValues_one h)).trans (chainBlock_singleton _ _ _)
    rw [hout]
    exact ⟨rfl, rfl, rfl⟩
  · refine ⟨_, exec_analyze_fits true (n := 1#16) (Nat.le_refl 1) hC, ?_⟩
    have hout : chainBlockIf true s.filterCfg s.chainA (s.snapshotValues (1#16).toNat) = _ :=
      (congrArg _ ((State.snapshotValues_eq 1 s).trans h)).trans (chainBlock_singleton _ _ _)
    rw [hout]
    exact ⟨rfl, rfl, rfl⟩

/-! ### Isolation of the chains (R205) -/

/-- An error neither reads nor writes FC_A. -/
theorem cmdError_withChainA (c : Cause) (p : Port) (w0 : Word) (s : State) (other : Chain) :
    State.cmdError c p w0 { s with chainA := other } = { State.cmdError c p w0 s with chainA := other } := by
  cases p <;> rfl

/-- An error neither reads nor writes FC_P. -/
theorem cmdError_withChainP (c : Cause) (p : Port) (w0 : Word) (s : State) (other : Chain) :
    State.cmdError c p w0 { s with chainP := other } = { State.cmdError c p w0 s with chainP := other } := by
  cases p <;> rfl

/-- POP_BLOCK on every port neither reads nor writes FC_A, and leaves SAT_A. -/
theorem popBlock_isolated (s : State) (p : Port) (f : Bool) (n : BitVec 16) (other : Chain) :
    ∃ t, exec (.popBlock p f n) s = .next t ∧ t.chainA = s.chainA ∧ t.satA = s.satA ∧
      exec (.popBlock p f n) { s with chainA := other } = .next { t with chainA := other } := by
  cases hw : (Instr.popBlock p f n).wellFormed with
  | false =>
    exact ⟨_, exec_wrongPort _ s hw, by simp, by simp,
      by rw [exec_wrongPort _ _ hw, cmdError_withChainA]⟩
  | true =>
    obtain rfl := (wellFormed_popBlock p f n).mp hw
    exact ⟨_, exec_popBlock_eq f n s, rfl, rfl, exec_popBlock_eq f n { s with chainA := other }⟩

/-- ANALYZE on every port and of every length neither reads nor writes FC_P, and leaves SAT_P. -/
theorem analyze_isolated (s : State) (p : Port) (f : Bool) (n : BitVec 16) (other : Chain) :
    ∃ t, exec (.analyze p f n) s = .next t ∧ t.chainP = s.chainP ∧ t.satP = s.satP ∧
      exec (.analyze p f n) { s with chainP := other } = .next { t with chainP := other } := by
  cases hw : (Instr.analyze p f n).wellFormed with
  | false =>
    exact ⟨_, exec_wrongPort _ s hw, by simp, by simp,
      by rw [exec_wrongPort _ _ hw, cmdError_withChainP]⟩
  | true =>
    obtain rfl := (wellFormed_analyze p f n).mp hw
    by_cases hlen : n.toNat = 0 ∨ s.params.capacity < n.toNat
    · exact ⟨_, exec_analyze_badLen f hlen, by simp, by simp,
        (exec_analyze_badLen f (s := { s with chainP := other }) hlen).trans
          (congrArg Host.Outcome.next (cmdError_withChainP ..))⟩
    · obtain ⟨h1, hC⟩ : 1 ≤ n.toNat ∧ n.toNat ≤ s.params.capacity := by omega
      exact ⟨_, exec_analyze_fits f h1 hC, rfl, rfl, exec_analyze_fits f (s := { s with chainP := other }) h1 hC⟩

/-- Settles O39, for each command by what it reads and writes. -/
theorem filterChainsAreIsolated : Obligations.FilterChainsAreIsolated :=
  fun s p f n other => ⟨popBlock_isolated s p f n other, analyze_isolated s p f n other⟩

/-! ### SAT_P and SAT_A (R44, R202) -/

/-- The register at address 3 is STATUS, and no other is. -/
theorem csrOf_eq_status {N : Nat} {a : BitVec 8} (h : csrOf N a = some .status) : a = 0x03#8 :=
  (((csrOf_spec N a).2 _ h).2).mp rfl

/-- SAT_P changes by a filtered POP_BLOCK, which adds its saturation, and by a write of STATUS, which clears it under
bit 1, only. -/
theorem Effect.satP {i : Instr} {s t : State} (h : Effect s i t) : t.satP = s.satP ∨
    (∃ n, i = .popBlock .R true n ∧
      t.satP = (s.satP || (chainBlock s.filterCfg s.chainP (s.popValues n.toNat)).sat)) ∨
    ∃ d, i = .csrWrite .H 0x03#8 d ∧ t.satP = (s.satP && !d.getLsbD 1) := by
  cases h with
  | popBlock f n =>
    cases f with
    | false => exact .inl (Bool.or_false _)
    | true => exact .inr (.inl ⟨n, rfl, rfl⟩)
  | csrWrite a d c hc hw =>
    rcases csrStore_flags c d s with ⟨-, hP, -⟩ | ⟨rfl, -, hP, -⟩
    · exact .inl hP
    · obtain rfl := csrOf_eq_status hc
      exact .inr (.inr ⟨d, rfl, hP⟩)
  | _ => exact .inl (by simp [State.snapshot, State.analyze])

/-- SAT_A changes by a filtered ANALYZE, which adds its saturation, and by a write of STATUS, which clears it under
bit 2, only. -/
theorem Effect.satA {i : Instr} {s t : State} (h : Effect s i t) : t.satA = s.satA ∨
    (∃ n, i = .analyze .H true n ∧
      t.satA = (s.satA || (chainBlock s.filterCfg s.chainA (s.snapshotValues n.toNat)).sat)) ∨
    ∃ d, i = .csrWrite .H 0x03#8 d ∧ t.satA = (s.satA && !d.getLsbD 2) := by
  cases h with
  | analyze f n h1 hC =>
    cases f with
    | false => exact .inl (Bool.or_false _)
    | true => exact .inr (.inl ⟨n, rfl, rfl⟩)
  | csrWrite a d c hc hw =>
    rcases csrStore_flags c d s with ⟨-, -, hA⟩ | ⟨rfl, -, -, hA⟩
    · exact .inl hA
    · obtain rfl := csrOf_eq_status hc
      exact .inr (.inr ⟨d, rfl, hA⟩)
  | _ => exact .inl (by simp [State.snapshot, State.popBlock])

/-- A bit that changes only by adding a saturation or by a write is sticky: a write alone clears it, a saturation alone
sets it. -/
theorem sticky_bit {α β : Type} {old new : Bool} {runs : α → Prop} {saturates : α → Bool} {writes : β → Prop}
    {clears : β → Bool} (h : new = old ∨ (∃ n, runs n ∧ new = (old || saturates n)) ∨
      ∃ d, writes d ∧ new = (old && !clears d)) :
    (old = true → new = false → ∃ d, writes d ∧ clears d = true) ∧
      (old = false → new = true → ∃ n, runs n ∧ saturates n = true) := by
  constructor <;> rintro rfl rfl <;> rcases h with e | ⟨n, hn, e⟩ | ⟨d, hd, e⟩
  · cases e
  · cases e
  · exact ⟨d, hd, by simpa using e⟩
  · cases e
  · exact ⟨n, hn, e.symm⟩
  · cases e

/-- Settles O41: the two bits are sticky, and neither command touches ERR. -/
theorem saturationIsStickyAndNoError : Obligations.SaturationIsStickyAndNoError := by
  intro i s t h
  obtain ⟨hclearP, hsetP⟩ := sticky_bit (effect_of_exec h).satP
  obtain ⟨hclearA, hsetA⟩ := sticky_bit (effect_of_exec h).satA
  refine ⟨hclearP, hclearA, hsetP, hsetA, ?_, ?_⟩
  · rintro f n rfl
    rw [exec_popBlock_eq] at h
    injection h with h
    rw [← h]
  · rintro f n rfl h1 hC
    rw [exec_analyze_fits f h1 hC] at h
    injection h with h
    rw [← h]

end Sys2Proof.Machine

/-! SUPPORT. ANALYZE: the block it measures, what each statistics register holds of a block, and what writes the
statistics at all. -/

namespace Sys2Proof.Machine

/-! ### The command (R220 to R222) -/

/-- Settles O42: ANALYZE measures the values of SNAPSHOT (`State.snapshotValues_eq`), and `chainBlockIf` is the choice
of F. -/
theorem analyzeMeasuresTheSnapshotBlock : Obligations.AnalyzeMeasuresTheSnapshotBlock := by
  intro s f n h1 hC
  refine ⟨_, exec_analyze_fits f h1 hC, ?_⟩
  intro block out
  have hblock : s.snapshotValues n.toNat = block := State.snapshotValues_eq n.toNat s
  have hlen : block.length = n.toNat := hblock ▸ State.snapshotValues_length n.toNat s
  have hout : chainBlockIf f s.filterCfg s.chainA block = out := rfl
  rw [hblock, hout]
  refine ⟨?_, hlen, ?_, ?_, rfl, rfl, rfl, rfl, rfl, rfl⟩
  · rintro rfl
    exact chainBlock_stepsThrough _ _ _
  · rw [← hout, chainBlockIf_length, hlen]
  · exact BitVec.ofNat_toNat ..

/-- Settles O43, with the record of a BAD_LEN error written out. -/
theorem analyzeOfABadLengthIsDropped : Obligations.AnalyzeOfABadLengthIsDropped := by
  intro s f n h
  rw [exec_analyze_badLen f h, State.cmdError, cmdLen_header_one rfl]
  rfl

/-! ### What writes the statistics (R234) -/

/-- The statistics registers and STATS_VALID change by ANALYZE and by RESET with bit STATS only (R234). -/
theorem Effect.stats {i : Instr} {s t : State} (h : Effect s i t) :
    t.stats = s.stats ∧ t.statsValid = s.statsValid ∨
      (∃ f n, i = .analyze .H f n) ∨ ∃ m, i = .reset .H m ∧ m.getLsbD 4 = true := by
  cases h with
  | analyze f n => exact .inr (.inl ⟨f, n, rfl⟩)
  | reset m =>
    by_cases hm : m.getLsbD 4 = true
    · exact .inr (.inr ⟨m, rfl, hm⟩)
    · exact .inl ⟨if_neg hm, if_neg hm⟩
  | _ => exact .inl (by simp [State.popBlock, State.snapshot])

/-- Settles O49: the answer of ANALYZE (`exec_analyze_fits`) mentions neither the old statistics nor the old
STATS_VALID. -/
theorem statisticsAreRecomputedFresh : Obligations.StatisticsAreRecomputedFresh := by
  refine ⟨fun s f n old valid h1 hC => ?_, fun i s t h => (effect_of_exec h).stats⟩
  exact ⟨_, exec_analyze_fits f h1 hC, rfl,
    exec_analyze_fits f (s := { s with stats := old, statsValid := valid }) h1 hC⟩

/-! ### The sum of squares (R223) -/

/-- SUMSQ holds the sum of the squares whole, whatever length is written beside it. -/
theorem blockStats_sumsq (thr n : Nat) {z : List Sample} (hz : z.length ≤ 65535) :
    (blockStats thr n z).sumsq.toNat = sumSq z := by
  have hsum := sumSq_le z
  exact Nat.mod_eq_of_lt (by omega)

/-- Settles O44: each square is at most 2^30, so 65535 of them stay below 2^46. -/
theorem sumOfSquaresIsExact : Obligations.SumOfSquaresIsExact := by
  rintro thr n z rfl hn
  rw [blockStats_sumsq thr _ hn]
  have hsum := sumSq_le z
  exact ⟨sumSq_int z, by omega⟩

/-! ### The root mean square (R224) -/

/-- The floor of a real square root sees the integer part of its argument only. -/
theorem natFloor_sqrt {x : ℝ} (hx : 0 ≤ x) : ⌊√x⌋₊ = Nat.sqrt ⌊x⌋₊ := by
  refine eq_of_forall_le_iff fun k => ?_
  rw [Nat.le_floor_iff (Real.sqrt_nonneg x), Real.le_sqrt (Nat.cast_nonneg k) hx, Nat.le_sqrt', Nat.le_floor_iff hx,
    Nat.cast_pow]

/-- `RMS_Q8` is 256 times the real root mean square, rounded down: the factor enters the root as 65536. -/
theorem rmsQ8_eq_floor (q n : Nat) : ((rmsQ8 q n : Nat) : Int) = ⌊256 * √((q : ℝ) / n)⌋ := by
  have hscale : 256 * √((q : ℝ) / n) = √(((q * 65536 : Nat) : ℝ) / n) := by
    have h256 : √(65536 : ℝ) = 256 := by
      rw [show (65536 : ℝ) = 256 ^ 2 by norm_num]
      exact Real.sqrt_sq (by norm_num)
    rw [Nat.cast_mul, mul_comm, mul_div_right_comm, Real.sqrt_mul (by positivity), Nat.cast_ofNat, h256]
  rw [hscale, ← Int.natCast_floor_eq_floor (Real.sqrt_nonneg _), natFloor_sqrt (by positivity), Nat.floor_div_eq_div,
    rmsQ8, isqrt_eq_sqrt]

theorem sumSq_replicate_min (n : Nat) : sumSq (List.replicate n 0x8000#16) = n * 2 ^ 30 := by
  have hsq : (sext 0x8000#16 * sext 0x8000#16).toNat = 2 ^ 30 := by decide
  rw [sumSq, List.map_replicate, List.sum_replicate, hsq, smul_eq_mul]

/-- The bound of R224 is reached: a mean square of 2^30 has the root 2^15. -/
theorem rmsQ8_max {n : Nat} (h : 1 ≤ n) : rmsQ8 (n * 2 ^ 30) n = 2 ^ 23 := by
  have hmean : n * 2 ^ 30 * 65536 / n = 2 ^ 23 * 2 ^ 23 := by
    rw [mul_assoc, Nat.mul_div_cancel_left _ h]
    norm_num
  rw [rmsQ8, hmean, isqrt_eq_sqrt, Nat.sqrt_eq]

/-- Settles O45: the digit-by-digit root is `Nat.sqrt` (`isqrt_eq_sqrt`) and the real floor (`rmsQ8_eq_floor`). -/
theorem rmsIsTheRealRootRoundedDown : Obligations.RmsIsTheRealRootRoundedDown := by
  refine ⟨fun thr n h1 hn => ?_, fun thr n z hz h1 hn => ?_⟩
  · obtain ⟨-, -, hrms, -⟩ := blockStats_ranges thr n _ List.length_replicate h1 hn
    rw [hrms, sumSq_replicate_min, rmsQ8_max h1]
  · obtain ⟨-, hsumsq, hrms, -⟩ := blockStats_ranges thr n z hz h1 hn
    rw [hrms, hsumsq]
    exact ⟨isqrt_eq_sqrt _, rmsQ8_eq_floor _ n, rmsQ8_le _ n (hz ▸ sumSq_le z)⟩

/-! ### The peak (R226) -/

/-- PEAK holds the largest magnitude whole. -/
theorem blockStats_peak (thr n : Nat) (z : List Sample) : (blockStats thr n z).peak.toNat = peakOf z := by
  have hpeak := peakOf_le z
  exact Nat.mod_eq_of_lt (by omega)

theorem natAbs_le_peakOf {z : List Sample} {v : Sample} (hv : v ∈ z) : (sext v).natAbs ≤ peakOf z := by
  obtain ⟨-, hle, -⟩ := foldl_max_spec (z.map fun v => (sext v).natAbs) 0
  exact hle _ (List.mem_map_of_mem hv)

/-- A block that is not empty has a sample of the largest magnitude. -/
theorem exists_natAbs_eq_peakOf {z : List Sample} (hz : z ≠ []) : ∃ v ∈ z, (sext v).natAbs = peakOf z := by
  obtain ⟨-, -, hzero | hmem⟩ := foldl_max_spec (z.map fun v => (sext v).natAbs) 0
  · have hhead := natAbs_le_peakOf (List.head_mem hz)
    have hpeak : peakOf z = 0 := hzero
    exact ⟨_, List.head_mem hz, by omega⟩
  · exact List.mem_map.mp hmem

/-- Settles O46. -/
theorem peakIsTheLargestMagnitude : Obligations.PeakIsTheLargestMagnitude := by
  intro thr n z hz
  rw [blockStats_peak]
  exact ⟨fun v hv => natAbs_le_peakOf hv, exists_natAbs_eq_peakOf hz, peakOf_le z⟩

/-! ### The energy split (R230 to R232) -/

/-- The recursion over neighbours gives the differences of R230, index by index. -/
theorem firstDiffs_eq_range_map (z : List Sample) : firstDiffs z =
    (List.range (z.length - 1)).map fun i => ((z.getD (i + 1) 0#16).toInt - (z.getD i 0#16).toInt).natAbs := by
  induction z with
  | nil => rfl
  | cons a z ih =>
    cases z with
    | nil => rfl
    | cons b z =>
      rw [firstDiffs, ih]
      simp only [List.length_cons, Nat.add_sub_cancel, List.range_succ_eq_map, List.map_cons, List.map_map]
      rfl

/-- LOW_SUM and HIGH_SUM hold their sums whole: both are at most the sum of all differences. -/
theorem blockStats_energySums (thr n : Nat) {z : List Sample} (hz : z.length ≤ 65535) :
    (blockStats thr n z).lowSum.toNat = lowSumOf thr z ∧ (blockStats thr n z).highSum.toNat = highSumOf thr z := by
  have hall := firstDiffs_sum_le z
  have hsplit := lowSumOf_add_highSumOf thr z
  exact ⟨Nat.mod_eq_of_lt (by omega), Nat.mod_eq_of_lt (by omega)⟩

/-- Settles O47: the registers hold the sums whole, over the differences index by index. -/
theorem energySplitIsExact : Obligations.EnergySplitIsExact := by
  rintro thr n z rfl hn
  intro dlt
  have hdlt : firstDiffs z = dlt := firstDiffs_eq_range_map z
  obtain ⟨hlow, hhigh⟩ := blockStats_energySums thr z.length hn
  rw [hlow, hhigh, lowSumOf_add_highSumOf, lowSumOf, highSumOf, hdlt]
  exact ⟨rfl, rfl, rfl⟩

/-- A sum of `n - 1` differences has a normalised value below 65535 * 256 (R232). -/
theorem energyQ8_lt {sum n : Nat} (h1 : 1 ≤ n) (h : sum ≤ 65535 * (n - 1)) : energyQ8 sum n < 65535 * 256 :=
  (Nat.div_lt_iff_lt_mul h1).mpr (by omega)

/-- Settles O48: each quotient is below 65535 * 256 (`energyQ8_lt`), so its register holds it whole. -/
theorem energiesAreNormalisedByBlockLength : Obligations.EnergiesAreNormalisedByBlockLength := by
  rintro thr n z rfl h1 hn
  obtain ⟨hlow, hhigh⟩ := blockStats_energySums thr z.length hn
  have hall := firstDiffs_sum_le z
  have hsplit := lowSumOf_add_highSumOf thr z
  have hlowLt : energyQ8 (lowSumOf thr z) z.length < 65535 * 256 := energyQ8_lt h1 (by omega)
  have hhighLt : energyQ8 (highSumOf thr z) z.length < 65535 * 256 := energyQ8_lt h1 (by omega)
  have hlowE : (blockStats thr z.length z).lowE.toNat = energyQ8 (lowSumOf thr z) z.length :=
    Nat.mod_eq_of_lt (by omega)
  have hhighE : (blockStats thr z.length z).highE.toNat = energyQ8 (highSumOf thr z) z.length :=
    Nat.mod_eq_of_lt (by omega)
  rw [hlow, hhigh, hlowE, hhighE]
  exact ⟨rfl, rfl, hlowLt, hhighLt⟩

end Sys2Proof.Machine

/-! SUPPORT. Which error a turn raises and what it then does (R301, R302), and the obligations about RESET, CSR_READ
headers, CSR_WRITE and the error record. -/

namespace Sys2Proof.Machine

/-! ### The error of a decoded command (R300, R301) -/

/-- The error a decoded command raises at capacity `C` and order `N`, if any. -/
def causeOf (C N : Nat) : Instr → Option Cause
  | .snapshot _ n => if C < n.toNat then some .badLen else none
  | .analyze _ _ n => if n.toNat = 0 ∨ C < n.toNat then some .badLen else none
  | .csrRead _ a => if ¬mappedAddr N a.toNat then some .badCsrAddr else none
  | .csrWrite _ a _ =>
    if ¬mappedAddr N a.toNat then some .badCsrAddr else if readOnlyAddr a.toNat then some .csrReadOnly else none
  | _ => none

/-- The response words of a header that raises an error: one 0 for a CSR_READ on port H (R272), else none. -/
def errorWords (p : Port) (w0 : Word) : List Word := if p = .H ∧ opcodeOf w0 = 0x6#4 then [0#32] else []

/-- No header but that of CSR_READ emits a word with its error. -/
theorem errorWords_header {i : Instr} (p : Port) (h : i.opcode ≠ 0x6#4) : errorWords p i.header = [] :=
  if_neg fun ⟨_, hop⟩ => h (header_opcode i ▸ hop)

/-- An address that holds a register is mapped. -/
theorem mapped_of_csrOf {N : Nat} {a : BitVec 8} {c : Csr} (h : csrOf N a = some c) : mappedAddr N a.toNat := by
  by_contra hun
  rw [(csrOf_spec N a).1.mpr hun] at h
  cases h

/-- On a port that accepts it a command with a cause raises that error, and nothing else happens. -/
theorem exec_of_causeOf {i : Instr} {s : State} {c : Cause} (hw : i.wellFormed = true)
    (hc : causeOf s.params.capacity s.params.lpfOrder i = some c) :
    exec i s = .next (State.cmdError c i.port i.header (State.emit i.port (errorWords i.port i.header) s)) := by
  cases i with
  | nop p hint => cases hc
  | push p x => cases hc
  | popBlock p f n => cases hc
  | reset p m => cases hc
  | snapshot p n =>
    obtain rfl := (wellFormed_snapshot p n).mp hw
    obtain ⟨hlen, ⟨⟩⟩ := Option.ite_none_right_eq_some.mp hc
    rw [exec_snapshot, if_pos hlen, errorWords_header _ (by simp [Instr.opcode]), emit_nil]
    rfl
  | analyze p f n =>
    obtain rfl := (wellFormed_analyze p f n).mp hw
    obtain ⟨hlen, ⟨⟩⟩ := Option.ite_none_right_eq_some.mp hc
    rw [exec_analyze, if_pos hlen, errorWords_header _ (by simp [Instr.opcode]), emit_nil]
    rfl
  | csrRead p a =>
    obtain rfl := (wellFormed_csrRead p a).mp hw
    obtain ⟨hunmapped, ⟨⟩⟩ := Option.ite_none_right_eq_some.mp hc
    rw [exec_csrRead, errorWords, if_pos ⟨rfl, header_opcode _⟩]
    rcases csrRead_cases .H a s with ⟨-, e⟩ | ⟨r, hr, -⟩
    · rw [e]; rfl
    · exact absurd (mapped_of_csrOf hr) hunmapped
  | csrWrite p a d =>
    obtain rfl := (wellFormed_csrWrite p a d).mp hw
    obtain ⟨hnone, hsome⟩ := csrOf_spec s.params.lpfOrder a
    rw [exec_csrWrite, errorWords_header _ (by simp [Instr.opcode]), emit_nil]
    rw [causeOf] at hc
    rcases csrWrite_cases .H a d s with ⟨hn, e⟩ | ⟨r, hr, hro, e⟩ | ⟨r, hr, hro, -⟩
    · rw [if_pos (hnone.mp hn)] at hc
      cases hc
      rw [e]; rfl
    · rw [if_neg (not_not_intro (mapped_of_csrOf hr)), if_pos ((hsome r hr).1.mp hro)] at hc
      cases hc
      rw [e]; rfl
    · rw [if_neg (not_not_intro (mapped_of_csrOf hr)), if_neg fun h => by simp [(hsome r hr).1.mpr h] at hro] at hc
      cases hc

/-! ### The error of a turn (R109, R301, R302) -/

/-- A header that does not decode raises the error that `raisedCode` names. -/
theorem raisedCode_of_error {p : Port} {w0 w1 : Word} {c : Cause} (C N : Nat) (h : decode p w0 w1 = .error c) :
    raisedCode C N p w0 = some c.code := by
  unfold decode at h
  unfold raisedCode
  split_ifs at h with hop hport hrsv <;> cases h
  · exact if_pos hop
  · exact (if_neg hop).trans (if_pos hport)
  · exact (if_neg hop).trans ((if_neg hport).trans (if_pos hrsv))

/-- A header that decodes raises what its command raises. -/
theorem raisedCode_of_ok {p : Port} {w0 w1 : Word} {i : Instr} (C N : Nat) (h : decode p w0 w1 = .ok i) :
    raisedCode C N p w0 = (causeOf C N i).map Cause.code := by
  obtain ⟨hop, hport, hrsv, rfl⟩ := (decode_ok p w0 w1 i).mp h
  simp only [raisedCode, hop, hport, hrsv, Bool.true_eq_false, ne_eq, not_true_eq_false, if_false]
  rcases opcode_cases _ hop with e | e | e | e | e | e | e | e <;>
    simp [e, operandsOf, causeOf, apply_ite (Option.map Cause.code), Cause.code]

/-- Of the CSR_READ headers that do not decode, those on port H are the ones with reserved bits (R112, R109). -/
theorem reservedBits_iff_port {p : Port} {w0 w1 : Word} {c : Cause} (h : decode p w0 w1 = .error c)
    (hop : opcodeOf w0 = 0x6#4) : c = .reservedBits ↔ p = .H := by
  unfold decode at h
  rw [hop, if_neg (by decide)] at h
  split_ifs at h with hport hrsv <;> cases h
  · cases p <;> simp [acceptedOn] at hport ⊢
  · cases p <;> simp [acceptedOn] at hport ⊢

/-- A header that does not decode emits its error words, and its error is recorded. -/
theorem decodeError_of_decode {p : Port} {w0 w1 : Word} {c : Cause} (h : decode p w0 w1 = .error c) (s : State) :
    State.decodeError c p w0 s = State.cmdError c p w0 (State.emit p (errorWords p w0) s) := by
  unfold State.decodeError errorWords
  by_cases hop : opcodeOf w0 = 0x6#4
  · simp only [reservedBits_iff_port h hop]
    split
    · rfl
    · rw [emit_nil]
  · rw [if_neg fun hc => hop hc.2, if_neg fun hc => hop hc.2, emit_nil]

/-- The command a header decodes to stands on the port of the header, which accepts it. -/
theorem decode_ok_command {p : Port} {w0 w1 : Word} {i : Instr} (h : decode p w0 w1 = .ok i) :
    i.wellFormed = true ∧ i.port = p ∧ i.header = w0 := by
  obtain ⟨hop, haccept, hrsv, rfl⟩ := (decode_ok p w0 w1 i).mp h
  obtain ⟨hheader, hopcode, hport, -⟩ := header_operandsOf p w0 w1 hop hrsv
  exact ⟨by rw [Instr.wellFormed, hopcode, hport, haccept], hport, hheader⟩

/-- A turn that raises an error emits the words of that error, records it and moves on, and does nothing else. -/
theorem turn_of_raisedCode {s : State} {p : Port} {w0 w1 : Word} {code : BitVec 4} (hp : s.pending p = some (w0, w1))
    (hc : raisedCode s.params.capacity s.params.lpfOrder p w0 = some code) : ∃ c : Cause, c.code = code ∧
      State.turn p s = .next (State.cmdError c p w0 (State.emit p (errorWords p w0) s)) := by
  rw [turn_some s p w0 w1 hp]
  cases hd : decode p w0 w1 with
  | error c =>
    rw [raisedCode_of_error _ _ hd] at hc
    exact ⟨c, Option.some_inj.mp hc, congrArg _ (decodeError_of_decode hd s)⟩
  | ok i =>
    rw [raisedCode_of_ok _ _ hd] at hc
    obtain ⟨c, hcause, hcode⟩ := Option.map_eq_some_iff.mp hc
    obtain ⟨hw, rfl, rfl⟩ := decode_ok_command hd
    exact ⟨c, hcode, exec_of_causeOf hw hcause⟩

/-! ### CSR_READ headers (R272) -/

/-- A turn of a CSR_READ header that raises nothing is a read of a mapped register. -/
theorem turn_csrRead {s : State} {w0 w1 : Word} (hop : opcodeOf w0 = 0x6#4) (hp : s.pending .H = some (w0, w1))
    (hc : raisedCode s.params.capacity s.params.lpfOrder .H w0 = none) :
    ∃ c, csrOf s.params.lpfOrder (w0.extractLsb' 0 8) = some c ∧
      State.turn .H s = .next { s with rspH := s.rspH ++ [s.csrValue c], posH := s.posH + 1 } := by
  rw [turn_some s .H w0 w1 hp]
  cases hd : decode .H w0 w1 with
  | error c =>
    rw [raisedCode_of_error _ _ hd] at hc
    cases hc
  | ok i =>
    rw [raisedCode_of_ok _ _ hd, Option.map_eq_none_iff] at hc
    obtain ⟨-, -, -, rfl⟩ := (decode_ok .H w0 w1 i).mp hd
    rw [operandsOf_csrRead hop] at hc ⊢
    have hmapped : mappedAddr s.params.lpfOrder (w0.extractLsb' 0 8).toNat := by
      by_contra hun
      rw [causeOf, if_pos hun] at hc
      cases hc
    obtain ⟨c, hreg⟩ := Option.ne_none_iff_exists'.mp fun h => (csrOf_spec _ _).1.mp h hmapped
    exact ⟨c, hreg, exec_csrRead_mapped hreg⟩

/-- Settles O55: the turn raises an error (`turn_of_raisedCode`) or reads a register (`turn_csrRead`). -/
theorem everyCsrReadHeaderEmitsOneWord : Obligations.EveryCsrReadHeaderEmitsOneWord := by
  intro s w0 w1 hnum
  have hop : opcodeOf w0 = 0x6#4 := BitVec.eq_of_toNat_eq hnum
  refine ⟨fun hp => ?_, fun p hH hp => ?_⟩
  · cases hc : raisedCode s.params.capacity s.params.lpfOrder .H w0 with
    | some code =>
      obtain ⟨c, -, hturn⟩ := turn_of_raisedCode hp hc
      exact ⟨_, 0#32, hturn, by simp [errorWords, hop], by simp, fun _ => rfl, nofun⟩
    | none =>
      obtain ⟨c, hreg, hturn⟩ := turn_csrRead hop hp hc
      refine ⟨_, _, hturn, rfl, rfl, fun h => absurd rfl h, fun c' _ hreg' => ?_⟩
      rw [Option.some_inj.mp (hreg.symm.trans hreg')]
  · have hwrong : raisedCode s.params.capacity s.params.lpfOrder p w0 = some 2#4 := by
      cases p with
      | H => exact absurd rfl hH
      | _ => simp [raisedCode, hop, acceptedOn]
    obtain ⟨c, hcode, hturn⟩ := turn_of_raisedCode hp hwrong
    rw [errorWords, if_neg fun h => hH h.1, emit_nil] at hturn
    exact ⟨_, hturn, by simp, by simp, by simp, fun h => by simp [State.cmdError_errCause, h, hcode]⟩

/-! ### RESET (R262, R263) -/

/-- Settles O51: RESET is `State.resetParts` and a move of the position of port H. -/
theorem resetClearsTheNamedParts : Obligations.ResetClearsTheNamedParts := by
  intro s m
  refine ⟨_, exec_reset m s, rfl, ?ring, rfl, rfl, ?counters, ?stats, rfl⟩
  case ring =>
    split
    · next hm =>
      have hlevel : (State.advance .H 1 (State.resetParts m s)).level = 0 := if_pos hm
      have hfill : (State.advance .H 1 (State.resetParts m s)).fill = 0 := if_pos hm
      exact ⟨if_pos hm, hlevel, hfill, List.length_eq_zero_iff.mp (by rw [State.held_length, hfill]),
        List.length_eq_zero_iff.mp (by rw [State.unpopped_length, hlevel])⟩
    · next hm => exact ⟨if_neg hm, if_neg hm, if_neg hm⟩
  case counters =>
    split
    · next hm => exact ⟨if_pos hm, if_pos hm⟩
    · next hm => exact ⟨if_neg hm, if_neg hm⟩
  case stats =>
    split
    · next hm => exact ⟨if_pos hm, if_pos hm⟩
    · next hm => exact ⟨if_neg hm, if_neg hm⟩

/-! ### CSR_WRITE (R263, R275) -/

/-- The configuration registers change by CSR_WRITE only (R263). -/
theorem Effect.config {i : Instr} {s t : State} (h : Effect s i t) :
    (t.dcEn = s.dcEn ∧ t.lpfEn = s.lpfEn ∧ t.dcR = s.dcR ∧ t.splitThr = s.splitThr ∧ t.lpfB = s.lpfB ∧
      t.lpfA = s.lpfA) ∨ ∃ a d, i = .csrWrite .H a d := by
  cases h with
  | csrWrite a d => exact .inr ⟨a, d, rfl⟩
  | _ => exact .inl (by simp [State.popBlock, State.snapshot, State.analyze])

/-- CSR_WRITE of STATUS clears each of ERR, SAT_P and SAT_A whose bit is written 1 (R44). -/
theorem exec_csrWrite_status (d : Word) (s : State) : exec (.csrWrite .H 0x03#8 d) s = .next { s with
    err := if d.getLsbD 0 then false else s.err
    satP := if d.getLsbD 1 then false else s.satP
    satA := if d.getLsbD 2 then false else s.satA
    posH := s.posH + 2 } := by
  have hclear : ∀ b old : Bool, (if b then false else old) = (old && !b) := by decide
  rw [exec_csrWrite_writable (c := .status) d rfl rfl]
  simp only [hclear]
  rfl

/-- Settles O52: RESET leaves both by the frame of its parts, and no effect but that of CSR_WRITE reaches the
configuration (`Effect.config`). -/
theorem configurationChangesOnlyByCsrWrite : Obligations.ConfigurationChangesOnlyByCsrWrite := by
  refine ⟨fun s t m h => ?_, fun i s t h => (effect_of_exec h).config, fun s t h => ?_⟩
  · rw [exec_reset] at h
    injection h with h
    simp [← h]
  · rw [exec_csrWrite_status] at h
    injection h with h
    exact h ▸ ⟨rfl, rfl, rfl⟩

/-- Settles O56, register by register. -/
theorem csrWriteSetsTheRegister : Obligations.CsrWriteSetsTheRegister := by
  rintro s d h ⟨hB, hA⟩
  have hN : s.params.lpfOrder ≤ 4 := h.2.2
  refine ⟨exec_csrWrite_writable (c := .ctrl) d rfl rfl, exec_csrWrite_status d s,
    exec_csrWrite_writable (c := .dcR) d rfl rfl, exec_csrWrite_writable (c := .splitThr) d rfl rfl, ?lpfB, ?lpfA⟩
  case lpfB =>
    intro k hk
    exact ⟨_, exec_csrWrite_writable d (csrOf_lpfB _ hN k hk) rfl, rfl, List.getElem?_set_self (by omega),
      fun j hj => List.getElem?_set_ne hj.symm⟩
  case lpfA =>
    intro k h1 hk
    exact ⟨_, exec_csrWrite_writable d (csrOf_lpfA _ hN k h1 hk) rfl, rfl, List.getElem?_set_self (by omega),
      fun j hj => List.getElem?_set_ne hj.symm⟩

/-- Settles O57: a read-only address is mapped, so the cause is CSR_READ_ONLY. -/
theorem csrWriteOfAReadOnlyRegisterIsDropped : Obligations.CsrWriteOfAReadOnlyRegisterIsDropped := by
  intro s a d hro
  have hmapped : mappedAddr s.params.lpfOrder a.toNat := by
    unfold readOnlyAddr at hro
    unfold mappedAddr
    omega
  have hcause : causeOf s.params.capacity s.params.lpfOrder (.csrWrite .H a d) = some .csrReadOnly := by
    rw [causeOf, if_neg (not_not_intro hmapped), if_pos hro]
  rw [exec_of_causeOf rfl hcause, errorWords_header _ (by simp [Instr.opcode]), emit_nil, State.cmdError, cmdLen_header]
  rfl

/-! ### The error record (R277) -/

/-- An error that finds ERR at 0 is recorded (R302). -/
theorem turn_captures {s u : State} {p : Port} {w0 w1 : Word} {code : BitVec 4} (herr : s.err = false)
    (hp : s.pending p = some (w0, w1)) (hc : raisedCode s.params.capacity s.params.lpfOrder p w0 = some code)
    (h : State.turn p s = .next u) :
    u.err = true ∧ u.errCause = code ∧ u.errPort = portNumber p ∧ u.errWord = w0 := by
  obtain ⟨c, rfl, hturn⟩ := turn_of_raisedCode hp hc
  rw [hturn] at h
  injection h with hu
  subst hu
  simp [State.cmdError_errCause, State.cmdError_errPort, State.cmdError_errWord, herr, portNumber_eq_code]

/-- Settles O59: the write leaves ERR at 0 and the record alone, and then an error is recorded (`turn_captures`). -/
theorem clearingErrRearmsTheCapture : Obligations.ClearingErrRearmsTheCapture := by
  intro s d hd
  have herr : (if d.getLsbD 0 then false else s.err) = false := if_pos hd
  exact ⟨_, exec_csrWrite_status d s, herr, rfl, rfl, rfl, fun _ _ _ _ _ => turn_captures herr⟩

end Sys2Proof.Machine

/-! SUPPORT. Errors and the block (R301 to R306): a turn that raises none leaves the error record, one that raises an
error changes little else, and neither stops the block. -/

namespace Sys2Proof.Machine

/-! ### Nothing stops the block (R303, R306, R346) -/

/-- No turn changes the parameters. -/
theorem turn_params {p : Port} {s t : State} (h : State.turn p s = .next t) : t.params = s.params := by
  cases hp : s.pending p with
  | none =>
    rw [turn_none s p hp] at h
    injection h with h
    rw [h]
  | some command =>
    obtain ⟨w0, w1⟩ := command
    rcases turn_effect hp h with ⟨i, -, -, he⟩ | ⟨c, ws, rfl⟩
    · exact he.params
    · simp

/-- Every input is performed, at the same parameters. -/
theorem perform_next (inp : Input) (s : State) : ∃ t, State.perform inp s = .next t ∧ t.params = s.params := by
  cases inp with
  | accept p w => exact ⟨_, rfl, by simp⟩
  | execute p =>
    obtain ⟨t, ht⟩ := turn_next p s
    exact ⟨t, ht, turn_params ht⟩
  | hardReset => exact ⟨_, rfl, rfl⟩

/-- Settles O11: a step waits, or performs an input (`perform_next`). -/
theorem noStepStopsTheBlock : Obligations.NoStepStopsTheBlock := by
  intro s
  cases h : s.inputs with
  | nil => exact ⟨s, by rw [step, h], rfl⟩
  | cons inp rest =>
    rw [step_cons h]
    exact perform_next inp { s with inputs := rest }

/-! ### Turns that raise an error (R301, R302) -/

/-- What an error emits, as one equation over the whole state (R272). -/
theorem emit_errorWords (p : Port) (w0 : Word) (s : State) : State.emit p (errorWords p w0) s =
    { s with rspH := if p = .H ∧ opcodeOf w0 = 0x6#4 then s.rspH ++ [0#32] else s.rspH } := by
  unfold errorWords
  split
  · next h => rw [h.1]; rfl
  · exact emit_nil p s

/-! ### Turns that raise none -/

/-- From `s` to `t` the cause, port and header that were recorded stay. -/
def KeepsRecord (s t : State) : Prop := t.errCause = s.errCause ∧ t.errPort = s.errPort ∧ t.errWord = s.errWord

/-- A turn that raises no error executes the command its header decodes to, and that command has no cause. -/
theorem turn_of_raisedCode_none {s : State} {p : Port} {w0 w1 : Word} (hp : s.pending p = some (w0, w1))
    (hc : raisedCode s.params.capacity s.params.lpfOrder p w0 = none) : ∃ i, decode p w0 w1 = .ok i ∧
      causeOf s.params.capacity s.params.lpfOrder i = none ∧ State.turn p s = exec i s := by
  rw [turn_some s p w0 w1 hp]
  cases hd : decode p w0 w1 with
  | error c =>
    rw [raisedCode_of_error _ _ hd] at hc
    cases hc
  | ok i =>
    rw [raisedCode_of_ok _ _ hd, Option.map_eq_none_iff] at hc
    exact ⟨i, rfl, hc, rfl⟩

/-- A register write leaves what was recorded, and leaves ERR too unless it clears it through STATUS (R275, R277). -/
theorem csrStore_record (c : Csr) (d : Word) (s : State) :
    KeepsRecord s (State.csrStore c d s) ∧ ((State.csrStore c d s).err = s.err ∨
      c = .status ∧ d.getLsbD 0 = true ∧ (State.csrStore c d s).err = false) := by
  refine ⟨⟨csrStore_errCause c d s, csrStore_errPort c d s, csrStore_errWord c d s⟩, ?_⟩
  rcases csrStore_flags c d s with ⟨hkept, -⟩ | ⟨hstatus, herr, -⟩
  · exact .inl hkept
  · rw [herr]
    cases hd : d.getLsbD 0 with
    | false => exact .inl (by simp)
    | true => exact .inr ⟨hstatus, rfl, by simp⟩

/-- A CSR_READ that raises no error reads a register. -/
theorem csrOf_of_csrRead_no_cause {C N : Nat} {p : Port} {a : BitVec 8} (h : causeOf C N (.csrRead p a) = none) :
    ∃ c, csrOf N a = some c := by
  have hmapped : mappedAddr N a.toNat := by
    by_contra hun
    rw [causeOf, if_pos hun] at h
    cases h
  exact Option.ne_none_iff_exists'.mp fun hn => (csrOf_spec N a).1.mp hn hmapped

/-- A CSR_WRITE that raises no error writes a writable register. -/
theorem csrOf_of_csrWrite_no_cause {C N : Nat} {p : Port} {a : BitVec 8} {d : Word}
    (h : causeOf C N (.csrWrite p a d) = none) : ∃ c, csrOf N a = some c ∧ c.readOnly = false := by
  obtain ⟨hunmapped, hsome⟩ := csrOf_spec N a
  rw [causeOf] at h
  split_ifs at h with hmapped hro
  obtain ⟨c, hreg⟩ := Option.ne_none_iff_exists'.mp fun hn => hunmapped.mp hn hmapped
  exact ⟨c, hreg, Bool.eq_false_iff.mpr fun h => hro ((hsome c hreg).1.mp h)⟩

/-- On a port that accepts it a command without a cause leaves what was recorded, and only a CSR_WRITE of STATUS with
bit 0 set clears ERR. -/
theorem exec_record_of_no_cause {i : Instr} {s t : State} (hw : i.wellFormed = true)
    (hc : causeOf s.params.capacity s.params.lpfOrder i = none) (h : exec i s = .next t) :
    KeepsRecord s t ∧ (t.err = s.err ∨
      ∃ d, i = .csrWrite .H 0x03#8 d ∧ d.getLsbD 0 = true ∧ t.err = false) := by
  rcases exec_cases i s with ⟨hbad, -⟩ | ⟨p, hint, rfl, e⟩ | ⟨x, rfl, e⟩ | ⟨f, n, rfl, e⟩ | ⟨n, rfl, e⟩ |
    ⟨f, n, rfl, e⟩ | ⟨m, rfl, e⟩ | ⟨a, rfl, -⟩ | ⟨a, d, rfl, -⟩
  · rw [hw] at hbad
    cases hbad
  · cases e.symm.trans h
    simp [KeepsRecord]
  · cases e.symm.trans h
    simp [KeepsRecord]
  · cases e.symm.trans h
    simp [KeepsRecord, State.popBlock]
  · have hfits : ¬s.params.capacity < n.toNat := fun hlen => by simp [causeOf, hlen] at hc
    rw [if_neg hfits] at e
    cases e.symm.trans h
    simp [KeepsRecord, State.snapshot]
  · have hfits : ¬(n.toNat = 0 ∨ s.params.capacity < n.toNat) := fun hlen => by simp [causeOf, hlen] at hc
    rw [if_neg hfits] at e
    cases e.symm.trans h
    simp [KeepsRecord, State.analyze]
  · cases e.symm.trans h
    simp [KeepsRecord]
  · obtain ⟨c, hreg⟩ := csrOf_of_csrRead_no_cause hc
    cases (exec_csrRead_mapped hreg).symm.trans h
    exact ⟨⟨rfl, rfl, rfl⟩, .inl rfl⟩
  · obtain ⟨c, hreg, hwritable⟩ := csrOf_of_csrWrite_no_cause hc
    cases (exec_csrWrite_writable d hreg hwritable).symm.trans h
    obtain ⟨hrecord, hkept | ⟨hstatus, hbit, hcleared⟩⟩ := csrStore_record c d s
    · exact ⟨hrecord, .inl hkept⟩
    · obtain rfl := ((csrOf_spec _ a).2 c hreg).2.mp hstatus
      exact ⟨hrecord, .inr ⟨d, rfl, hbit, hcleared⟩⟩

/-- A header that decodes to a CSR_WRITE holds its address, and the word behind it is the data (R102). -/
theorem decode_csrWrite_fields {p q : Port} {w0 w1 d : Word} {a : BitVec 8}
    (h : decode p w0 w1 = .ok (.csrWrite q a d)) :
    p = q ∧ opcodeOf w0 = 0x7#4 ∧ w0.extractLsb' 0 8 = a ∧ w1 = d := by
  obtain ⟨rfl, -, rfl, hdata, -⟩ := decodedCommandsEncodeBack p w0 w1 _ h
  exact ⟨rfl, header_opcode _, field_low _ _, (List.singleton_inj.mp (hdata (cmdLen_header _))).symm⟩

/-! ### The turn as a whole -/

/-- Settles O7: a turn records the error of `raisedCode` (`turn_of_raisedCode`), or runs a command without a cause
(`exec_record_of_no_cause`). -/
theorem turnRaisesTheFirstErrorOfTheTable : Obligations.TurnRaisesTheFirstErrorOfTheTable := by
  intro s p w0 w1 hp
  cases hc : raisedCode s.params.capacity s.params.lpfOrder p w0 with
  | some code =>
    obtain ⟨c, rfl, hturn⟩ := turn_of_raisedCode hp hc
    obtain ⟨hself, hother, -⟩ := turn_advancesBy hp hturn
    refine ⟨_, hturn, hself, hother, ?_⟩
    rw [emit_errorWords, portNumber_eq_code]
    exact cmdError_eq c p w0 _
  | none =>
    obtain ⟨i, hd, hcause, hturn⟩ := turn_of_raisedCode_none hp hc
    obtain ⟨t, ht⟩ := exec_next i s
    obtain ⟨⟨hcode, hport, hword⟩, herr⟩ := exec_record_of_no_cause (decode_ok_command hd).1 hcause ht
    refine ⟨t, hturn.trans ht, hcode, hport, hword, herr.imp_right ?_⟩
    rintro ⟨d, rfl, hbit, hcleared⟩
    obtain ⟨rfl, hop, haddr, rfl⟩ := decode_csrWrite_fields hd
    exact ⟨rfl, hop, haddr, hbit, hcleared⟩

end Sys2Proof.Machine
